-- ==== Sys2Proof/Word.lean ====
section
/-! DEFINITION. The plain types of the block: bytes, register words, host addresses (00_scope.md R10, 10_state.md section 2). -/

namespace Sys2Proof

/-- A byte: 8 bits, a number from 0 to 255 (00_scope.md R10). -/
abbrev Byte := BitVec 8

/-- The value of a 32-bit control register, and a command word (10_state.md section 2, 30_encoding.md R80). -/
abbrev Word := BitVec 32

/-- A byte address of the host bus (20_memory.md R62, R63: every address of the map fits 32 bits). -/
abbrev Addr := BitVec 32

end Sys2Proof
end

