-- ==== Sys2Proof/Config.lean ====
section
/-! DEFINITION. What is fixed for one machine, and the free values: the buffer spaces, the parameters of 00_scope.md R8 and
20_memory.md R63, the configuration functions of 00_scope.md R9 and the free bytes of the entropy source. -/

namespace Sys2Proof

/-- The eight internal buffers, each with a length register (10_state.md R22 and section 3). -/
inductive Buf where
  /-- the password (10_state.md R31) -/
  | pw
  /-- the nonce, 24 bytes (10_state.md R32) -/
  | nonce
  /-- the associated data, 32 bytes (10_state.md R32) -/
  | ad
  /-- the derived key, KEY_BYTES bytes (10_state.md R33) -/
  | key
  /-- the plaintext (10_state.md R34) -/
  | pt
  /-- the ciphertext with its tag (10_state.md R34) -/
  | ct
  /-- the cipher blob (10_state.md R34) -/
  | blob
  /-- the frame, or a byte stream to scan (10_state.md R34, R35) -/
  | frame
deriving DecidableEq, Repr

/-- The nine byte spaces the host sees through windows: the eight buffers and the pixel memory (20_memory.md R63). -/
inductive Space where
  /-- an internal buffer -/
  | buf (b : Buf)
  /-- the pixel memory (10_state.md R36) -/
  | img
deriving DecidableEq, Repr

/-- The parameters of 00_scope.md R8 that the document leaves open, and the window bases of 20_memory.md R63. BLOB_MAX, CT_MAX
and PT_MAX are derived from `frameMax` (Machine/Layout.lean). Which values are legal is `Params.legal` (WellFormed.lean). -/
structure Params where
  /-- KEY_BYTES, the length of the symmetric key -/
  keyBytes : Nat
  /-- FRAME_MAX, the capacity of the FRAME buffer -/
  frameMax : Nat
  /-- PW_MAX, the capacity of the PW buffer -/
  pwMax : Nat
  /-- IMG_MAX_PIX, the number of pixels the IMG space holds -/
  imgMaxPix : Nat
  /-- PIXEL_STRIDE, bytes per pixel -/
  pixelStride : Nat
  /-- base of the NONCE window -/
  nonceBase : Nat
  /-- base of the AD window -/
  adBase : Nat
  /-- base of the KEY window -/
  keyBase : Nat
  /-- base of the PW window -/
  pwBase : Nat
  /-- base of the PT window -/
  ptBase : Nat
  /-- base of the CT window -/
  ctBase : Nat
  /-- base of the BLOB window -/
  blobBase : Nat
  /-- base of the FRAME window -/
  frameBase : Nat
  /-- base of the IMG window -/
  imgBase : Nat
deriving DecidableEq, Repr

/-- The three configuration functions that stand for the cryptography (00_scope.md R9). The lengths of the results, P-LEN among
them, are in the types. The meanings take a `Crypto` as an argument, so that a claim can be stated for every one. DESIGN CHOICE, safe
(log 12): R9 gives the functions for a password of 1 to PW_MAX bytes, a key of KEY_BYTES, a nonce or salt of 24, associated data of 32 and a
ciphertext of at least 16 bytes, and says nothing of other arguments. Here they have a value for every argument, and the meanings ask for
it inside R9's domains alone. -/
structure Crypto where
  /-- KDF(pw, salt); `none` is the document's "internal derivation failure" -/
  kdf : (keyBytes : Nat) → (pw salt : List Byte) → Option (Vector Byte keyBytes)
  /-- AEAD_SEAL(key, nonce, pt, ad), exactly 16 bytes longer than `pt` (P-LEN) -/
  aeadSeal : (key nonce pt ad : List Byte) → Vector Byte (pt.length + 16)
  /-- AEAD_OPEN(key, nonce, ct, ad); `none` is "the tag does not verify" -/
  aeadOpen : (key nonce ct ad : List Byte) → Option (Vector Byte (ct.length - 16))

/-- A key, a nonce and associated data of the lengths for which 00_scope.md R9 gives the cipher: KEY_BYTES, 24 and 32. -/
abbrev cipherLengths (keyBytes : Nat) (k n a : List Byte) : Prop := k.length = keyBytes ∧ n.length = 24 ∧ a.length = 32

/-- Property P-RT of 00_scope.md R9 for keys of `keyBytes` bytes: what was sealed opens again, under the same key, nonce and associated
data. Its "for all k, n, p, a" is read within R9's lengths (`cipherLengths`; DESIGN CHOICE, safe, log 12). A claim that needs it names it
as a hypothesis. -/
def Crypto.RoundTrips (C : Crypto) (keyBytes : Nat) : Prop :=
  ∀ k n p a, cipherLengths keyBytes k n a → (C.aeadOpen k n (C.aeadSeal k n p a).toList a).map Vector.toList = some p

/-- Two byte strings that differ in exactly one bit. -/
def oneBitApart (v w : List Byte) : Prop := ∃ i < v.length, ∃ k < 8, w = v.set i (v.getD i 0 ^^^ (1 <<< k))

/-- Property P-TAMPER of 00_scope.md R9 for keys of `keyBytes` bytes, within R9's lengths (DESIGN CHOICE, safe, log 12): one flipped bit
of the ciphertext with tag, or of the associated data, and nothing opens. A claim that needs it names it as a hypothesis (93 U3). -/
def Crypto.DetectsTampering (C : Crypto) (keyBytes : Nat) : Prop :=
  ∀ k n p a, cipherLengths keyBytes k n a →
    (∀ ct, oneBitApart (C.aeadSeal k n p a).toList ct → C.aeadOpen k n ct a = none) ∧
    (∀ b, oneBitApart a b → C.aeadOpen k n (C.aeadSeal k n p a).toList b = none)

/-- Property P-WRONGKEY of 00_scope.md R9 for keys of `keyBytes` bytes, within R9's lengths of key, nonce and associated data
(DESIGN CHOICE, safe, log 12; the passwords are any byte strings, as in the statement that uses it): what was sealed under the key of one password does not open under the key of another. A claim that needs it names it
as a hypothesis (93 U3). -/
def Crypto.RejectsWrongKeys (C : Crypto) (keyBytes : Nat) : Prop :=
  ∀ (pw pw' n p a : List Byte) (k k' : Vector Byte keyBytes), cipherLengths keyBytes k.toList n a → pw ≠ pw' →
    C.kdf keyBytes pw n = some k → C.kdf keyBytes pw' n = some k' →
    C.aeadOpen k'.toList n (C.aeadSeal k.toList n p a).toList a = none

/-- The hardware's KDF: open in the spec (40_kdf.md R102, 93 U1, U4), so a constant with no body. Log 3. -/
opaque Config.kdf : (keyBytes : Nat) → (pw salt : List Byte) → Option (Vector Byte keyBytes)

/-- The hardware's AEAD_SEAL: open in the spec (41_aead.md R116, 93 U2), so a constant with no body. Log 3. -/
opaque Config.aeadSeal : (key nonce pt ad : List Byte) → Vector Byte (pt.length + 16)

/-- The hardware's AEAD_OPEN: open in the spec (41_aead.md R116, 93 U2, U10), so a constant with no body. Log 3. -/
opaque Config.aeadOpen : (key nonce ct ad : List Byte) → Option (Vector Byte (ct.length - 16))

/-- The hardware's configuration functions together. -/
def Config.crypto : Crypto where
  kdf := Config.kdf
  aeadSeal := Config.aeadSeal
  aeadOpen := Config.aeadOpen

/-- The bytes the entropy source answers with when the run supplies none: free (45_system.md R171: "any 56 bytes may come
back"). The argument is a fresh number for every byte drawn. Log 4. -/
opaque Config.entropyByte : Nat → Byte

end Sys2Proof
end

