-- ==== Sys2Proof/Machine/Layout.lean ====
section
/-! DEFINITION. The sizes and places the rules give: the document's constants (00_scope.md R7), the capacities derived from the
parameters (00_scope.md R8), the windows and their default bases (20_memory.md R63). -/

namespace Sys2Proof.Machine

/-- NONCE_BYTES (00_scope.md R7). -/
def nonceBytes : Nat := 24

/-- AD_BYTES (00_scope.md R7). -/
def adBytes : Nat := 32

/-- TAG_BYTES (00_scope.md R7). -/
def tagBytes : Nat := 16

/-- START_SENTINEL, `######` (00_scope.md R7). -/
def startSentinel : List Byte := [0x23, 0x23, 0x23, 0x23, 0x23, 0x23]

/-- END_SENTINEL, `======` (00_scope.md R7). -/
def endSentinel : List Byte := [0x3D, 0x3D, 0x3D, 0x3D, 0x3D, 0x3D]

/-- The largest IMG_W and IMG_H the host can write (10_state.md R26). -/
def dimMax : Nat := 65535

/-- The defaults of 00_scope.md R8 and 20_memory.md R63. -/
def defaultParams : Params where
  keyBytes := 32
  frameMax := 65536
  pwMax := 4096
  imgMaxPix := 524288
  pixelStride := 4
  nonceBase := 0x00000100
  adBase := 0x00000120
  keyBase := 0x00000140
  pwBase := 0x00001000
  ptBase := 0x01000000
  ctBase := 0x02000000
  blobBase := 0x03000000
  frameBase := 0x04000000
  imgBase := 0x80000000

/-- The size in bytes of a buffer, which is also the largest value of its length register (10_state.md R27 and section 3;
00_scope.md R8 for BLOB_MAX, CT_MAX and PT_MAX). -/
def bufSize (P : Params) : Buf → Nat
  | .pw => P.pwMax
  | .nonce => nonceBytes
  | .ad => adBytes
  | .key => P.keyBytes
  | .pt => P.frameMax - 84
  | .ct => P.frameMax - 68
  | .blob => P.frameMax - 12
  | .frame => P.frameMax

/-- The size in bytes of a window (20_memory.md R63). -/
def spaceSize (P : Params) : Space → Nat
  | .buf b => bufSize P b
  | .img => P.imgMaxPix * P.pixelStride

/-- The base address of a window (20_memory.md R63). -/
def spaceBase (P : Params) : Space → Nat
  | .buf .nonce => P.nonceBase
  | .buf .ad => P.adBase
  | .buf .key => P.keyBase
  | .buf .pw => P.pwBase
  | .buf .pt => P.ptBase
  | .buf .ct => P.ctBase
  | .buf .blob => P.blobBase
  | .buf .frame => P.frameBase
  | .img => P.imgBase

/-- The eight buffers. -/
def allBufs : List Buf := [.pw, .nonce, .ad, .key, .pt, .ct, .blob, .frame]

/-- The nine windows (20_memory.md R63). -/
def allSpaces : List Space := allBufs.map .buf ++ [.img]

/-- The number of host byte addresses the control registers take, from address 0 on (20_memory.md R62). -/
def csrBytes : Nat := 0x100

end Sys2Proof.Machine
end

