-- ==== Sys2Proof/Syntax.lean ====
section
/-! DEFINITION. The commands of the block, one constructor per row of spec/opcode_table.json (30_encoding.md R85). -/

namespace Sys2Proof

/-- The thirteen commands. No command has an operand in its word (30_encoding.md R83), so no constructor has an argument. -/
inductive Instr where
  /-- GEN: draw a nonce and associated data (45_system.md R170). -/
  | gen
  /-- DERIVE: password and nonce to key (40_kdf.md R100). -/
  | derive
  /-- SEAL: plaintext to ciphertext with tag (41_aead.md R110). -/
  | sealPt
  /-- OPEN: ciphertext with tag to plaintext (41_aead.md R114). -/
  | openCt
  /-- PACK: nonce, associated data and ciphertext to blob (42_frame.md R120). -/
  | pack
  /-- UNPACK: blob to nonce, associated data and ciphertext (42_frame.md R124). -/
  | unpack
  /-- BUILD: blob to frame (42_frame.md R127). -/
  | build
  /-- SCAN: byte stream in FRAME to blob (42_frame.md R132). -/
  | scan
  /-- EMBED: frame into the red parities of the image (43_bitplane.md R143). -/
  | embed
  /-- EXTRACT: red parities of the image to blob (43_bitplane.md R151). -/
  | extract
  /-- ENCODE: GEN, DERIVE, SEAL, PACK, BUILD, EMBED (44_composite.md R160). -/
  | encode
  /-- DECODE: EXTRACT, UNPACK, DERIVE, OPEN (44_composite.md R163). -/
  | decode
  /-- CLR: clear every internal buffer and length (45_system.md R173). -/
  | clr
deriving DecidableEq, Repr

end Sys2Proof
end

