-- ==== Sys2Proof/WellFormed.lean ====
section
/-! DEFINITION. The checks on what is given to the machine: its parameters (00_scope.md R8, 20_memory.md R63), a command
(30_encoding.md R83) and a command word (30_encoding.md R82, R86). -/

namespace Sys2Proof

/-- The numeric constraints of 00_scope.md R8. -/
def Params.sizesLegal (P : Params) : Bool :=
  decide (1 ≤ P.keyBytes) && decide (P.keyBytes ≤ 64) &&
  decide (85 ≤ P.frameMax) && decide (P.frameMax ≤ 2 ^ 24) &&
  decide (1 ≤ P.pwMax) && decide (P.pwMax ≤ 4096) &&
  decide (P.imgMaxPix ≤ 8 * P.frameMax) &&
  decide (1 ≤ P.pixelStride) && decide (P.pixelStride ≤ 16)

/-- A window as an interval of host addresses: its base and its size. -/
def Params.interval (P : Params) (x : Space) : Nat × Nat := (Machine.spaceBase P x, Machine.spaceSize P x)

/-- Two intervals of addresses share no address. DESIGN CHOICE, safe (log 11): an empty interval shares none with any other, wherever its
base lies. 00_scope.md R8 allows IMG_MAX_PIX = 0, so the IMG window can be empty, and 20_memory.md R63 does not say whether an empty
window's base may lie inside another range. -/
abbrev apart (i j : Nat × Nat) : Prop := i.2 = 0 ∨ j.2 = 0 ∨ i.1 + i.2 ≤ j.1 ∨ j.1 + j.2 ≤ i.1

/-- "The windows and the CSR range do not overlap, for the defaults and for any other choice of bases a platform makes"
(20_memory.md R63; for an empty window see `apart`), and every window ends within the 32-bit address space (DEDUCED, log 2). -/
def Params.windowsLegal (P : Params) : Bool :=
  decide (((0, Machine.csrBytes) :: Machine.allSpaces.map P.interval).Pairwise apart) &&
  (Machine.allSpaces.map P.interval).all (fun i => decide (i.1 + i.2 ≤ 2 ^ 32))

/-- The parameters meet every constraint the spec puts on them. -/
def Params.legal (P : Params) : Bool := P.sizesLegal && P.windowsLegal

/-- Every command is well formed: it has no operand that could be out of range (30_encoding.md R83). -/
def Instr.wf (_ : Instr) : Bool := true

/-- A command word selects a command: bits [31:8] are 0 and the opcode is one of 0x01 to 0x0D (30_encoding.md R82, R85). -/
def wordLegal (w : Word) : Bool :=
  decide (w.extractLsb' 8 24 = 0) && decide (0x01 ≤ w.toNat) && decide (w.toNat ≤ 0x0D)

end Sys2Proof
end

