-- ==== Sys2Proof/Decode.lean ====
section
/-! DEFINITION. Decoding of command words, total, and the encoder beside it (30_encoding.md R80 to R87; the rows of
spec/opcode_table.json). -/

namespace Sys2Proof

/-- Why a word is no command (30_encoding.md R82: both are answered with IllegalCommandError). -/
inductive IllegalWord where
  /-- a bit of [31:8] is set; raised by `decode`; safe, the block answers IllegalCommandError -/
  | highBitsSet (w : Word)
  /-- bits [31:8] are 0 and bits [7:0] are no opcode of R85; raised by `decode`; safe, as above -/
  | noSuchOpcode (op : BitVec 8)
deriving DecidableEq, Repr

/-- The opcode map (30_encoding.md R85). -/
def opcodeOf : Instr → BitVec 8
  | .gen => 0x01
  | .derive => 0x02
  | .sealPt => 0x03
  | .openCt => 0x04
  | .pack => 0x05
  | .unpack => 0x06
  | .build => 0x07
  | .scan => 0x08
  | .embed => 0x09
  | .extract => 0x0A
  | .encode => 0x0B
  | .decode => 0x0C
  | .clr => 0x0D

/-- The command an opcode selects (30_encoding.md R85), if any (R86). -/
def instrOfOpcode (op : BitVec 8) : Option Instr :=
  match op.toNat with
  | 0x01 => some .gen
  | 0x02 => some .derive
  | 0x03 => some .sealPt
  | 0x04 => some .openCt
  | 0x05 => some .pack
  | 0x06 => some .unpack
  | 0x07 => some .build
  | 0x08 => some .scan
  | 0x09 => some .embed
  | 0x0A => some .extract
  | 0x0B => some .encode
  | 0x0C => some .decode
  | 0x0D => some .clr
  | _ => none

/-- Field "zero" of format C, bits [31:8] (30_encoding.md R81). -/
def zeroField (w : Word) : BitVec 24 := w.extractLsb' 8 24

/-- Field "opcode" of format C, bits [7:0] (30_encoding.md R81). -/
def opcodeField (w : Word) : BitVec 8 := w.extractLsb' 0 8

/-- Decoding is total: every 32-bit word either selects exactly one command or is illegal (30_encoding.md R82). -/
def decode (w : Word) : Except IllegalWord Instr :=
  if zeroField w = 0 then
    match instrOfOpcode (opcodeField w) with
    | some i => .ok i
    | none => .error (.noSuchOpcode (opcodeField w))
  else .error (.highBitsSet w)

/-- The word of a command: format C, bits [31:8] zero (30_encoding.md R81, R85). -/
def encode (i : Instr) : Word := (0 : BitVec 24) ++ opcodeOf i

/-- A row of spec/opcode_table.json as the spec reads it: the word selects the row when `w & mask = match` (30_encoding.md R82). -/
structure OpcodeRow where
  /-- the row's "match" -/
  pattern : Word
  /-- the row's "mask" -/
  mask : Word
  /-- the command the row's mnemonic names -/
  instr : Instr
deriving DecidableEq, Repr

/-- The thirteen rows of spec/opcode_table.json. -/
def opcodeTable : List OpcodeRow :=
  [⟨0x00000001, 0xFFFFFFFF, .gen⟩,
   ⟨0x00000002, 0xFFFFFFFF, .derive⟩,
   ⟨0x00000003, 0xFFFFFFFF, .sealPt⟩,
   ⟨0x00000004, 0xFFFFFFFF, .openCt⟩,
   ⟨0x00000005, 0xFFFFFFFF, .pack⟩,
   ⟨0x00000006, 0xFFFFFFFF, .unpack⟩,
   ⟨0x00000007, 0xFFFFFFFF, .build⟩,
   ⟨0x00000008, 0xFFFFFFFF, .scan⟩,
   ⟨0x00000009, 0xFFFFFFFF, .embed⟩,
   ⟨0x0000000A, 0xFFFFFFFF, .extract⟩,
   ⟨0x0000000B, 0xFFFFFFFF, .encode⟩,
   ⟨0x0000000C, 0xFFFFFFFF, .decode⟩,
   ⟨0x0000000D, 0xFFFFFFFF, .clr⟩]

/-- The byte lanes of a control register on a byte-laned bus: bits [7:0] at the lowest address (20_memory.md R55,
informational). -/
def wordLanes (w : Word) : List Byte :=
  [w.extractLsb' 0 8, w.extractLsb' 8 8, w.extractLsb' 16 8, w.extractLsb' 24 8]

/-- The command word that four byte lanes hold, lowest address first (20_memory.md R55). -/
def wordOfLanes (b0 b1 b2 b3 : Byte) : Word := b3 ++ b2 ++ b1 ++ b0

/-- The word an instruction's bits stand for, numbered as spec/opcode_table.json numbers them: `nbits` bits of `w`, zero above. -/
def tableWord (nbits w : Nat) : Word := BitVec.ofNat 32 (w % 2 ^ nbits)

/-- The command the decoder reads from an instruction whose bits are `w` (30_encoding.md R80: one length, 32 bits). The word is laid
out in its byte lanes and read back from them. -/
def decodeTableWord (nbits w : Nat) : Option Instr :=
  match wordLanes (tableWord nbits w) with
  | [b0, b1, b2, b3] => (decode (wordOfLanes b0 b1 b2 b3)).toOption
  | _ => none

end Sys2Proof
end

