-- ==== Sys2Proof/Machine/State.lean ====
section
/-! DEFINITION. The state of the block (10_state.md R20) as plain data, the reasons a step can stop, and the state after reset
(10_state.md R38). -/

namespace Sys2Proof.Machine

/-- A byte space: the bytes that differ from what an unlisted offset reads as, by rising offset. -/
abbrev Memory := List Host.Cell

/-- What a byte that is not listed reads as. For the eight internal buffers this is the reset value the spec gives (10_state.md
R38: every byte 0x00); for IMG the spec gives none (93 U6) and 0x00 is a DESIGN CHOICE, unsafe (log 5). -/
abbrev Memory.unlisted : Byte := 0

/-- The canonical form: offsets strictly rising, no byte listed that an unlisted offset reads as anyway. -/
abbrev Memory.wf (m : Memory) : Prop :=
  m.Pairwise (fun c d => c.1 < d.1) ∧ ∀ c ∈ m, c.2 ≠ Memory.unlisted

/-- The result kinds of a command (60_exceptions.md R180). The codes are in Flags.lean; the values 7 to 15 of the field are never
produced (93 U11) and the type leaves them out (log 8). -/
inductive ErrorKind where
  /-- code 0: the command reached its end -/
  | success
  /-- code 1: InputError -/
  | input
  /-- code 2: KeyDerivationError -/
  | keyDerivation
  /-- code 3: AuthenticationError -/
  | authentication
  /-- code 4: CapacityError -/
  | capacity
  /-- code 5: SentinelNotFoundError -/
  | sentinelNotFound
  /-- code 6: IllegalCommandError -/
  | illegalCommand
deriving DecidableEq, Repr

/-- The states of the sentinel scanner (10_state.md R25); the value 3 of the field is never produced (93 U11, log 8). -/
inductive ScanState where
  /-- 0: the start sentinel has not been matched -/
  | scanningStart
  /-- 1: the start sentinel has been matched, the end sentinel has not -/
  | collectingPayload
  /-- 2: both sentinels have been matched -/
  | done
deriving DecidableEq, Repr

/-- What the outside does to the block, one event a step (20_memory.md R50, R51; 70_reset_and_hazards.md R200). The two 16-bit
accesses are admitted nowhere and stand here so that their refusal is visible (93 U8, log 7). -/
inductive HostEvent where
  /-- HostRead32(a) -/
  | read32 (a : Addr)
  /-- HostWrite32(a, v) -/
  | write32 (a : Addr) (v : Word)
  /-- HostRead8(a) -/
  | read8 (a : Addr)
  /-- HostWrite8(a, v) -/
  | write8 (a : Addr) (v : Byte)
  /-- a 16-bit read, not admitted (R51) -/
  | read16 (a : Addr)
  /-- a 16-bit write, not admitted (R51) -/
  | write16 (a : Addr) (v : BitVec 16)
  /-- the reset input (R200); `image` is what IMG holds afterwards, any contents (R38, 93 U6, log 6) -/
  | reset (image : List Host.Cell)
deriving DecidableEq, Repr

/-- What the last event answered: a value for a read, nothing otherwise (20_memory.md R52). -/
inductive Reply where
  /-- no value: a write, a reset, or no event yet -/
  | none
  /-- the value of a 32-bit read -/
  | word (v : Word)
  /-- the value of an 8-bit read -/
  | byte (v : Byte)
deriving DecidableEq, Repr

/-- The state of the block (10_state.md R20) and, first, the model's own fields that hold the parameters and inputs of a step. -/
structure State where
  /-- the parameters (00_scope.md R8); the model's own field, which no step writes (log 2) -/
  params : Params
  /-- the host's events not yet made (20_memory.md R50); the model's own field (log 1) -/
  script : List HostEvent
  /-- what the last event answered (20_memory.md R52); the model's own field (log 1) -/
  reply : Reply
  /-- answers supplied to the next draws (45_system.md R171); the model's own field (log 4) -/
  entropy : List Byte
  /-- how many bytes have been drawn; indexes the free bytes of the entropy source; the model's own field (log 4) -/
  drawn : Nat
  /-- STATUS.ERR (10_state.md R24) -/
  err : ErrorKind
  /-- STATUS.FSM (10_state.md R25) -/
  fsm : ScanState
  /-- IMG_W, register 2 (10_state.md R26) -/
  imgW : Word
  /-- IMG_H, register 3 (10_state.md R26) -/
  imgH : Word
  /-- PW_LEN, register 4 (10_state.md R27) -/
  pwLen : Word
  /-- NONCE_LEN, register 5 -/
  nonceLen : Word
  /-- AD_LEN, register 6 -/
  adLen : Word
  /-- KEY_LEN, register 7 -/
  keyLen : Word
  /-- PT_LEN, register 8 -/
  ptLen : Word
  /-- CT_LEN, register 9 -/
  ctLen : Word
  /-- BLOB_LEN, register 10 -/
  blobLen : Word
  /-- FRAME_LEN, register 11 -/
  frameLen : Word
  /-- SCAN_POS, register 12 (10_state.md R29) -/
  scanPos : Word
  /-- PW (10_state.md R31) -/
  pw : Memory
  /-- NONCE (10_state.md R32) -/
  nonce : Memory
  /-- AD (10_state.md R32) -/
  ad : Memory
  /-- KEY (10_state.md R33) -/
  key : Memory
  /-- PT (10_state.md R34) -/
  pt : Memory
  /-- CT (10_state.md R34) -/
  ct : Memory
  /-- BLOB (10_state.md R34) -/
  blob : Memory
  /-- FRAME (10_state.md R34, R35) -/
  frame : Memory
  /-- IMG, the pixel memory (10_state.md R36) -/
  img : Memory
deriving DecidableEq, Repr

/-- The reasons a step can stop the machine. There is none: an error of the block is a code in STATUS.ERR and stops nothing
(60_exceptions.md R184 to R186). -/
inductive Fault where
deriving DecidableEq, Repr

/-- The host accesses the model gives no meaning (20_memory.md R51, R56: "the model refuses it"; 93 U8), and the name for a command
that has no meaning yet. All are raised before anything changes; all are safe (log 7). -/
inductive Refusal where
  /-- a command with no meaning yet; raised by no arm of `exec`; safe -/
  | notModelled (mnemonic : String)
  /-- a 32-bit access at an address that is no multiple of 4; raised by `access32` in Port.lean; safe -/
  | misalignedAccess (a : Addr)
  /-- a 32-bit access to a window; raised by `access32` in Port.lean; safe -/
  | wordAccessToWindow (a : Addr)
  /-- an 8-bit access to a control register; raised by `access8` in Port.lean; safe -/
  | byteAccessToRegister (a : Addr)
  /-- a 16-bit access; raised by `perform` in Port.lean; safe -/
  | halfwordAccess (a : Addr)
deriving DecidableEq, Repr

/-- The block right after reset (10_state.md R38): STATUS, IMG_W, IMG_H, the lengths and SCAN_POS 0, every internal buffer
0x00. IMG is unspecified there: here it reads 0x00 (DESIGN CHOICE, log 5). The model's own fields: the default parameters (log 2), no
event pending and no answer yet (log 1), no entropy supplied (log 4). -/
def State.reset : State where
  params := defaultParams
  script := []
  reply := .none
  entropy := []
  drawn := 0
  err := .success
  fsm := .scanningStart
  imgW := 0
  imgH := 0
  pwLen := 0
  nonceLen := 0
  adLen := 0
  keyLen := 0
  ptLen := 0
  ctLen := 0
  blobLen := 0
  frameLen := 0
  scanPos := 0
  pw := []
  nonce := []
  ad := []
  key := []
  pt := []
  ct := []
  blob := []
  frame := []
  img := []

end Sys2Proof.Machine
end

