-- ==== Sys2Proof/Machine/Ops.lean ====
section
/-! DEFINITION. The named operations over memories and registers, ending a command (`raise`, the one way an error is taken),
running one command after another, the entropy draw and the reset input. -/

namespace Sys2Proof.Machine

/-! Memory: one byte space. -/

/-- The byte at an offset. -/
def Memory.read : Memory → Nat → Byte
  | [], _ => Memory.unlisted
  | c :: m, a => if c.1 = a then c.2 else Memory.read m a

/-- Put a cell in its place by offset. -/
def Memory.insert (a : Nat) (v : Byte) : Memory → Memory
  | [] => [(a, v)]
  | c :: m => if c.1 < a then c :: Memory.insert a v m else (a, v) :: c :: m

/-- Write one byte, keeping the canonical form: a byte equal to what an unlisted offset reads as is not listed. -/
def Memory.write (m : Memory) (a : Nat) (v : Byte) : Memory :=
  if v = Memory.unlisted then m.filter (fun c => decide (c.1 ≠ a))
  else Memory.insert a v (m.filter (fun c => decide (c.1 ≠ a)))

/-- MemRead(SPACE, off, n): the `n` bytes at offsets `off` to `off + n - 1` (00_scope.md R11). -/
def Memory.readBytes (m : Memory) (off n : Nat) : List Byte :=
  (List.range n).map (fun i => Memory.read m (off + i))

/-- MemWrite(SPACE, off, |v|, v) (00_scope.md R11). -/
def Memory.writeBytes (m : Memory) (off : Nat) : List Byte → Memory
  | [] => m
  | b :: bs => Memory.writeBytes (Memory.write m off b) (off + 1) bs

/-- MemWrite(SPACE, 0, n, n bytes of 0x00), in one pass: 0x00 is what an unlisted offset reads as, so the cells below `n` go. -/
def Memory.clearBelow (m : Memory) (n : Nat) : Memory := m.filter (fun c => decide (n ≤ c.1))

/-- A memory of `size` bytes with the given cells written in order; a cell outside it is dropped. -/
def Memory.ofCells (size : Nat) (cells : List Host.Cell) : Memory :=
  (cells.filter (fun c => decide (c.1 < size))).foldl (fun m c => Memory.write m c.1 c.2) []

/-! Registers and buffers by name. -/

/-- The memory of a buffer. -/
def State.buf (s : State) : Buf → Memory
  | .pw => s.pw
  | .nonce => s.nonce
  | .ad => s.ad
  | .key => s.key
  | .pt => s.pt
  | .ct => s.ct
  | .blob => s.blob
  | .frame => s.frame

/-- Replace the memory of a buffer. The buffers are disjoint storage (10_state.md R22). -/
def State.setBuf (s : State) (b : Buf) (m : Memory) : State :=
  match b with
  | .pw => { s with pw := m }
  | .nonce => { s with nonce := m }
  | .ad => { s with ad := m }
  | .key => { s with key := m }
  | .pt => { s with pt := m }
  | .ct => { s with ct := m }
  | .blob => { s with blob := m }
  | .frame => { s with frame := m }

/-- The length register of a buffer (10_state.md R27). -/
def State.lenReg (s : State) : Buf → Word
  | .pw => s.pwLen
  | .nonce => s.nonceLen
  | .ad => s.adLen
  | .key => s.keyLen
  | .pt => s.ptLen
  | .ct => s.ctLen
  | .blob => s.blobLen
  | .frame => s.frameLen

/-- Write the length register of a buffer; the buffer's bytes stay (10_state.md R27). -/
def State.setLenReg (s : State) (b : Buf) (v : Word) : State :=
  match b with
  | .pw => { s with pwLen := v }
  | .nonce => { s with nonceLen := v }
  | .ad => { s with adLen := v }
  | .key => { s with keyLen := v }
  | .pt => { s with ptLen := v }
  | .ct => { s with ctLen := v }
  | .blob => { s with blobLen := v }
  | .frame => { s with frameLen := v }

/-- x[X_LEN] as a natural number (00_scope.md R11). -/
def State.len (s : State) (b : Buf) : Nat := (s.lenReg b).toNat

/-- The memory of a byte space. -/
def State.mem (s : State) : Space → Memory
  | .buf b => s.buf b
  | .img => s.img

/-- Replace the memory of a byte space. -/
def State.setMem (s : State) (x : Space) (m : Memory) : State :=
  match x with
  | .buf b => s.setBuf b m
  | .img => { s with img := m }

/-- How a command delivers an output: MemWrite(Y, 0, n, v), then x[Y_LEN] <- n; the bytes of Y at `n` and above stay (20_memory.md
R59). -/
def State.store (s : State) (b : Buf) (v : List Byte) : State :=
  (s.setBuf b (Memory.writeBytes (s.buf b) 0 v)).setLenReg b (BitVec.ofNat 32 v.length)

/-- MemWrite(X, 0, size(X), size(X) bytes of 0x00) and x[X_LEN] <- 0 (43_bitplane.md R146, 45_system.md R173). -/
def State.discard (s : State) (b : Buf) : State :=
  (s.setBuf b (Memory.clearBelow (s.buf b) (bufSize s.params b))).setLenReg b 0

/-! The end of a command. -/

/-- What a command's body leaves: the state it has written so far, and the code it will end with. -/
structure CmdResult where
  /-- the state, STATUS.ERR not written yet -/
  state : State
  /-- the code for STATUS.ERR -/
  err : ErrorKind
deriving DecidableEq, Repr

/-- A body that reaches its end: the code will be 0 (00_scope.md R11). -/
def complete (s : State) : CmdResult := ⟨s, .success⟩

/-- `raise e`, the one way an error is taken: the command ends with the code, nothing else is written after it, no state is saved and
control goes nowhere (60_exceptions.md R184, R185). There is no return from it (R186). -/
def raise (s : State) (e : ErrorKind) : CmdResult := ⟨s, e⟩

/-- Every command writes STATUS.ERR exactly once, when it ends (10_state.md R24, 30_encoding.md R80). -/
def finish (r : CmdResult) : Host.Outcome State Fault Refusal := .next { r.state with err := r.err }

/-- The next `step` of a composite command: it runs on the state so far unless an earlier step raised an error, which then ends the
command (44_composite.md R160, R162). -/
def CmdResult.andThen (r : CmdResult) (f : State → CmdResult) : CmdResult :=
  if r.err = .success then f r.state else r

/-! The entropy source. -/

/-- The `n` bytes draw(n) answers: those supplied with the run, and free bytes after them (45_system.md R171; log 4). -/
def State.drawBytes (s : State) (n : Nat) : List Byte :=
  (List.range n).map (fun i => s.entropy.getD i (Config.entropyByte (s.drawn + i)))

/-- The draw uses up the supplied answers and moves on to fresh free bytes (log 4). -/
def State.afterDraw (s : State) (n : Nat) : State :=
  { s with entropy := s.entropy.drop n, drawn := s.drawn + n }

/-! The reset input. -/

/-- Reset: every piece of the block's state as 10_state.md R38 says, IMG with the contents given, which may be any (93 U6, log 6). The
parameters and what the outside still has to offer are not the block's state and stay. -/
def State.resetInput (s : State) (image : List Host.Cell) : State :=
  { State.reset with
    params := s.params
    script := s.script
    entropy := s.entropy
    drawn := s.drawn
    img := Memory.ofCells (spaceSize s.params .img) image }

end Sys2Proof.Machine
end

