-- ==== Sys2Proof/Machine/Operands.lean ====
section
/-! DEFINITION. The operand forms. Every operand is implicit (30_encoding.md R83): the present bytes of a buffer, a fixed-size operand
and its presence, the image shape, the red byte of a pixel. -/

namespace Sys2Proof.Machine

/-- MemRead(X, 0, x[X_LEN]): the bytes of a buffer that are present (20_memory.md R59). -/
def State.contents (s : State) (b : Buf) : List Byte := Memory.readBytes (s.buf b) 0 (s.len b)

/-- MemRead(X, 0, size(X)): a fixed-size operand, NONCE, AD or KEY, whole. -/
def State.whole (s : State) (b : Buf) : List Byte := Memory.readBytes (s.buf b) 0 (bufSize s.params b)

/-- A fixed-size operand is present when its length register has its full size (10_state.md R28). -/
def State.present (s : State) (b : Buf) : Bool := decide (s.len b = bufSize s.params b)

/-- NPIX = x[IMG_W] * x[IMG_H], exact (10_state.md R26, 43_bitplane.md R153). -/
def State.npix (s : State) : Nat := s.imgW.toNat * s.imgH.toNat

/-- The index of the pixel at column `x`, row `y`: row-major, ascending x then y (20_memory.md R58). -/
def State.pixelIndex (s : State) (x y : Nat) : Nat := y * s.imgW.toNat + x

/-- The IMG offset of the red byte of pixel `p` (10_state.md R36, 20_memory.md R58). -/
def redOffset (stride p : Nat) : Nat := p * stride

/-- Red(p) of an image with the given bytes per pixel (00_scope.md R11). -/
def redAt (stride : Nat) (m : Memory) (p : Nat) : Byte := Memory.read m (redOffset stride p)

/-- Red(p) (00_scope.md R11). -/
def State.red (s : State) (p : Nat) : Byte := redAt s.params.pixelStride s.img p

/-- Red(p) <- v; no other byte of the pixel is written (00_scope.md R11). -/
def setRedAt (stride : Nat) (m : Memory) (p : Nat) (v : Byte) : Memory := Memory.write m (redOffset stride p) v

end Sys2Proof.Machine
end

