-- ==== Sys2Proof/Machine/Aead.lean ====
section
/-! DEFINITION. The AuthenticatedCipher unit: SEAL and OPEN (41_aead.md). -/

namespace Sys2Proof.Machine

/-- The body of SEAL (41_aead.md R110), for any configuration functions. -/
def sealBody (C : Crypto) (s : State) : CmdResult :=
  if s.len .pt = 0 then raise s .input
  else if !(s.present .key && s.present .nonce && s.present .ad) then raise s .input
  else complete (s.store .ct (C.aeadSeal (s.whole .key) (s.whole .nonce) (s.contents .pt) (s.whole .ad)).toList)

/-- SEAL (41_aead.md R110). -/
def execSeal (s : State) : Host.Outcome State Fault Refusal := finish (sealBody Config.crypto s)

/-- The body of OPEN (41_aead.md R114), for any configuration functions: the key's presence first (InputError), then the shape of the
other operands, then the tag (both AuthenticationError; 60_exceptions.md R183). -/
def openBody (C : Crypto) (s : State) : CmdResult :=
  if !s.present .key then raise s .input
  else if !(s.present .nonce && s.present .ad) || decide (s.len .ct < tagBytes) then raise s .authentication
  else
    match C.aeadOpen (s.whole .key) (s.whole .nonce) (s.contents .ct) (s.whole .ad) with
    | none => raise s .authentication
    | some p => complete (s.store .pt p.toList)

/-- OPEN (41_aead.md R114). -/
def execOpen (s : State) : Host.Outcome State Fault Refusal := finish (openBody Config.crypto s)

end Sys2Proof.Machine
end

