-- ==== Sys2Proof/Machine/Bits.lean ====
section
/-! DEFINITION. The pure functions of the bit-plane codec (43_bitplane.md R141, R142, R150) and its loop over the pixels (R143). -/

namespace Sys2Proof.Machine

/-- The parity of a byte, its bit 0 (00_scope.md R10). -/
def parity (v : Byte) : Bool := v.getLsbD 0

/-- The bits of a byte, most significant first (20_memory.md R53). -/
def byteBits (b : Byte) : List Bool := (List.range 8).map (fun k => b.getLsbD (7 - k))

/-- Expand(f), the byte-to-bit expander (43_bitplane.md R141). -/
def expand (f : List Byte) : List Bool := f.flatMap byteBits

/-- Adjust(v, b), the parity adjuster, minimal change (43_bitplane.md R142). -/
def adjust (v : Byte) (b : Bool) : Byte :=
  if b then
    if parity v then v else if v = 0 then 1 else v - 1
  else
    if parity v then (if v = 255 then 254 else v + 1) else v

/-- Eight bits to a byte: bit number `k` read is worth 2^(7-k) (43_bitplane.md R150). -/
def packByte (bit : Nat → Bool) : Byte :=
  BitVec.ofNat 8 ((List.range 8).map (fun k => (bit k).toNat * 2 ^ (7 - k))).sum

/-- Stream(N) over an image, the bit-to-byte packer (43_bitplane.md R150): the last N mod 8 pixels are ignored. -/
def streamAt (stride : Nat) (m : Memory) (n : Nat) : List Byte :=
  (List.range (n / 8)).map (fun j => packByte (fun k => parity (redAt stride m (8 * j + k))))

/-- Stream(N) (43_bitplane.md R150). -/
def State.stream (s : State) (n : Nat) : List Byte := streamAt s.params.pixelStride s.img n

/-- One pixel of EMBED: Red(p) <- Adjust(Red(p), bits[p mod L]) (43_bitplane.md R143). -/
def embedPixel (stride : Nat) (bits : List Bool) (m : Memory) (p : Nat) : Memory :=
  setRedAt stride m p (adjust (redAt stride m p) (bits.getD (p % bits.length) false))

/-- The loop of EMBED: p = 0, 1, ..., n - 1 in this order (43_bitplane.md R143). -/
def embedPixels (stride : Nat) (bits : List Bool) (m : Memory) (n : Nat) : Memory :=
  (List.range n).foldl (embedPixel stride bits) m

end Sys2Proof.Machine
end

