-- ==== Sys2Proof/Machine/Flags.lean ====
section
/-! DEFINITION. The STATUS register: the codes of its two fields and its value as the host reads it (10_state.md R24, R25;
60_exceptions.md R180). -/

namespace Sys2Proof.Machine

/-- The code of a result kind, STATUS bits [3:0] (60_exceptions.md R180). -/
def ErrorKind.code : ErrorKind → BitVec 4
  | .success => 0
  | .input => 1
  | .keyDerivation => 2
  | .authentication => 3
  | .capacity => 4
  | .sentinelNotFound => 5
  | .illegalCommand => 6

/-- The encoding of the scanner's state, STATUS bits [5:4] (10_state.md R25). -/
def ScanState.code : ScanState → BitVec 2
  | .scanningStart => 0
  | .collectingPayload => 1
  | .done => 2

/-- STATUS as a 32-bit value: ERR in [3:0], FSM in [5:4], bits [31:6] read as 0 (10_state.md R24). -/
def State.status (s : State) : Word := (0 : BitVec 26) ++ s.fsm.code ++ s.err.code

/-- The scanner's visible results: SCAN_POS and STATUS.FSM, written by every scan, found or not (42_frame.md R132, 10_state.md R25,
R29). -/
def State.setScan (s : State) (pos : Nat) (st : ScanState) : State :=
  { s with scanPos := BitVec.ofNat 32 pos, fsm := st }

end Sys2Proof.Machine
end

