-- ==== Sys2Proof/Machine/Scanner.lean ====
section
/-! DEFINITION. The scanner function of 42_frame.md R130, the same scanner one byte at a time (R131), and when a blob is clean (R133). -/

namespace Sys2Proof.Machine

/-- The result of a scan (42_frame.md R130): the state reached, the bytes consumed, and the payload when both sentinels were found. -/
structure ScanResult where
  /-- the state the scan ended in -/
  state : ScanState
  /-- how many bytes of the stream were consumed -/
  pos : Nat
  /-- the bytes strictly between the sentinels, when found -/
  payload : Option (List Byte)
deriving DecidableEq, Repr

/-- The least index at which `pat` stands in a byte string, if there is one. -/
def firstIndex (pat : List Byte) : List Byte → Option Nat
  | [] => if pat.isPrefixOf [] then some 0 else none
  | b :: bs => if pat.isPrefixOf (b :: bs) then some 0 else (firstIndex pat bs).map (· + 1)

/-- Scan(B) (42_frame.md R130): START is looked for at every offset and its first occurrence counts; END is looked for from the byte
after START on and its first occurrence counts. -/
def scanStream (B : List Byte) : ScanResult :=
  match firstIndex startSentinel B with
  | none => ⟨.scanningStart, B.length, none⟩
  | some s =>
    match firstIndex endSentinel (B.drop (s + 6)) with
    | none => ⟨.collectingPayload, B.length, none⟩
    | some k => ⟨.done, s + 6 + k + 6, some ((B.drop (s + 6)).take k)⟩

/-- The working state of the scanner that takes one byte at a time (42_frame.md R131). -/
structure ScanRun where
  /-- the state -/
  state : ScanState
  /-- how many bytes of the sentinel looked for stand in a row so far, 0 to 6 -/
  run : Nat
  /-- the payload collected so far -/
  payload : List Byte
  /-- the count of bytes taken -/
  taken : Nat
deriving DecidableEq, Repr

/-- The start of the byte-at-a-time scanner (42_frame.md R131). -/
def ScanRun.start : ScanRun := ⟨.scanningStart, 0, [], 0⟩

/-- One byte of the byte-at-a-time scanner (42_frame.md R131); in DONE it has stopped and takes none. -/
def scanByte (r : ScanRun) (b : Byte) : ScanRun :=
  match r.state with
  | .scanningStart =>
    let c := if b = 0x23 then r.run + 1 else 0
    if c = 6 then ⟨.collectingPayload, 0, r.payload, r.taken + 1⟩ else ⟨.scanningStart, c, r.payload, r.taken + 1⟩
  | .collectingPayload =>
    let c := if b = 0x3D then r.run + 1 else 0
    if c = 6 then ⟨.done, c, (r.payload ++ [b]).take (r.payload.length + 1 - 6), r.taken + 1⟩
    else ⟨.collectingPayload, c, r.payload ++ [b], r.taken + 1⟩
  | .done => r

/-- The result the byte-at-a-time scanner stops with: `pos` is the number of bytes taken, and there is a payload only in DONE
(42_frame.md R131). -/
def scanBytewise (B : List Byte) : ScanResult :=
  let r := B.foldl scanByte ScanRun.start
  ⟨r.state, r.taken, if r.state = .done then some r.payload else none⟩

/-- Clean(blob) (42_frame.md R133): in `blob || END` the end sentinel stands at no offset inside the blob. -/
abbrev cleanBlob (blob : List Byte) : Prop :=
  ∀ j < blob.length, ((blob ++ endSentinel).drop j).take 6 ≠ endSentinel

/-- `START || blob || END` (42_frame.md R127, 20_memory.md R54). -/
def frameOf (blob : List Byte) : List Byte := startSentinel ++ blob ++ endSentinel

end Sys2Proof.Machine
end

