-- ==== Sys2Proof/Machine/Frame.lean ====
section
/-! DEFINITION. The FrameBuilder / SentinelScanner unit: PACK, UNPACK, BUILD, SCAN (42_frame.md). -/

namespace Sys2Proof.Machine

/-- The body of PACK (42_frame.md R120). -/
def packBody (s : State) : CmdResult :=
  if !(s.present .nonce && s.present .ad) || decide (s.len .ct < tagBytes) then raise s .input
  else complete (s.store .blob (s.whole .nonce ++ s.whole .ad ++ s.contents .ct))

/-- PACK (42_frame.md R120). -/
def execPack (s : State) : Host.Outcome State Fault Refusal := finish (packBody s)

/-- The body of UNPACK (42_frame.md R124): total, a short blob gives short operands. -/
def unpackBody (s : State) : CmdResult :=
  let b := s.contents .blob
  complete (((s.store .nonce (b.take nonceBytes)).store .ad ((b.drop nonceBytes).take adBytes)).store .ct
    (b.drop (nonceBytes + adBytes)))

/-- UNPACK (42_frame.md R124). -/
def execUnpack (s : State) : Host.Outcome State Fault Refusal := finish (unpackBody s)

/-- The body of BUILD (42_frame.md R127). -/
def buildBody (s : State) : CmdResult :=
  if s.len .blob = 0 then raise s .input
  else complete (s.store .frame (frameOf (s.contents .blob)))

/-- BUILD (42_frame.md R127). -/
def execBuild (s : State) : Host.Outcome State Fault Refusal := finish (buildBody s)

/-- What SCAN and EXTRACT share (42_frame.md R132, 43_bitplane.md R151): SCAN_POS and FSM are written in any case, BLOB only when both
sentinels were found. -/
def deliverScan (s : State) (r : ScanResult) : CmdResult :=
  match r.payload with
  | none => raise (s.setScan r.pos r.state) .sentinelNotFound
  | some p => complete ((s.setScan r.pos r.state).store .blob p)

/-- The body of SCAN (42_frame.md R132). -/
def scanBody (s : State) : CmdResult := deliverScan s (scanStream (s.contents .frame))

/-- SCAN (42_frame.md R132). -/
def execScan (s : State) : Host.Outcome State Fault Refusal := finish (scanBody s)

end Sys2Proof.Machine
end

