-- ==== Sys2Proof/Machine/BitPlane.lean ====
section
/-! DEFINITION. The BitPlaneCodec unit: EMBED and EXTRACT (43_bitplane.md). -/

namespace Sys2Proof.Machine

/-- The body of EMBED (43_bitplane.md R143): the checks come before any pixel is changed (R145), and a success discards the frame
(R146). -/
def embedBody (s : State) : CmdResult :=
  if s.len .frame = 0 then raise s .input
  else if s.npix > s.params.imgMaxPix then raise s .input
  else if 8 * s.len .frame > s.npix then raise s .capacity
  else
    let img' := embedPixels s.params.pixelStride (expand (s.contents .frame)) s.img s.npix
    complete ((s.setMem .img img').discard .frame)

/-- EMBED (43_bitplane.md R143). -/
def execEmbed (s : State) : Host.Outcome State Fault Refusal := finish (embedBody s)

/-- The body of EXTRACT (43_bitplane.md R151). -/
def extractBody (s : State) : CmdResult :=
  if s.npix > s.params.imgMaxPix then raise s .input
  else deliverScan s (scanStream (s.stream s.npix))

/-- EXTRACT (43_bitplane.md R151). -/
def execExtract (s : State) : Host.Outcome State Fault Refusal := finish (extractBody s)

end Sys2Proof.Machine
end

