-- ==== Sys2Proof/Machine/Kdf.lean ====
section
/-! DEFINITION. The KeyDerivation unit: DERIVE (40_kdf.md). -/

namespace Sys2Proof.Machine

/-- The body of DERIVE (40_kdf.md R100), for any configuration functions. -/
def deriveBody (C : Crypto) (s : State) : CmdResult :=
  if s.len .pw = 0 then raise s .keyDerivation
  else if s.len .nonce ≠ nonceBytes then raise s .keyDerivation
  else
    match C.kdf s.params.keyBytes (s.contents .pw) (s.whole .nonce) with
    | none => raise s .keyDerivation
    | some k => complete (s.store .key k.toList)

/-- DERIVE (40_kdf.md R100). -/
def execDerive (s : State) : Host.Outcome State Fault Refusal := finish (deriveBody Config.crypto s)

end Sys2Proof.Machine
end

