-- ==== Sys2Proof/Machine/System.lean ====
section
/-! DEFINITION. The system commands: GEN, CLR and the answer to an illegal command word (45_system.md). -/

namespace Sys2Proof.Machine

/-- The body of GEN (45_system.md R170): 56 bytes are drawn, the first 24 become the nonce, the other 32 the associated data. -/
def genBody (s : State) : CmdResult :=
  let r := s.drawBytes (nonceBytes + adBytes)
  complete (((s.afterDraw (nonceBytes + adBytes)).store .nonce (r.take nonceBytes)).store .ad (r.drop nonceBytes))

/-- GEN (45_system.md R170). -/
def execGen (s : State) : Host.Outcome State Fault Refusal := finish (genBody s)

/-- The body of CLR (45_system.md R173): every buffer and every length, SCAN_POS and FSM; not IMG_W, IMG_H or IMG. -/
def clrBody (s : State) : CmdResult := complete ((allBufs.foldl State.discard s).setScan 0 .scanningStart)

/-- CLR (45_system.md R173). -/
def execClr (s : State) : Host.Outcome State Fault Refusal := finish (clrBody s)

/-- The answer to a word that selects no command: IllegalCommandError and no other change (30_encoding.md R82, 45_system.md R175). -/
def answerIllegal (s : State) : Host.Outcome State Fault Refusal := finish (raise s .illegalCommand)

end Sys2Proof.Machine
end

