-- ==== Sys2Proof/Machine/Composite.lean ====
section
/-! DEFINITION. The end-to-end flows: ENCODE and DECODE, each a fixed sequence of the other commands' bodies (44_composite.md). -/

namespace Sys2Proof.Machine

/-- The body of ENCODE (44_composite.md R160), for any configuration functions. -/
def encodeBody (C : Crypto) (s : State) : CmdResult :=
  (((((genBody s).andThen (deriveBody C)).andThen (sealBody C)).andThen packBody).andThen buildBody).andThen embedBody

/-- ENCODE (44_composite.md R160). -/
def execEncode (s : State) : Host.Outcome State Fault Refusal := finish (encodeBody Config.crypto s)

/-- The body of DECODE (44_composite.md R163), for any configuration functions. -/
def decodeBody (C : Crypto) (s : State) : CmdResult :=
  (((extractBody s).andThen unpackBody).andThen (deriveBody C)).andThen (openBody C)

/-- DECODE (44_composite.md R163). -/
def execDecode (s : State) : Host.Outcome State Fault Refusal := finish (decodeBody Config.crypto s)

end Sys2Proof.Machine
end

