-- ==== Sys2Proof/Machine/Dispatch.lean ====
section
/-! DEFINITION. The one place where a command meets its meaning, one arm per constructor of Instr. -/

namespace Sys2Proof.Machine

/-- Run one command to its end (30_encoding.md R80, R85). -/
def exec (i : Instr) (s : State) : Host.Outcome State Fault Refusal :=
  match i with
  | .gen => Sys2Proof.Machine.execGen s
  | .derive => Sys2Proof.Machine.execDerive s
  | .sealPt => Sys2Proof.Machine.execSeal s
  | .openCt => Sys2Proof.Machine.execOpen s
  | .pack => Sys2Proof.Machine.execPack s
  | .unpack => Sys2Proof.Machine.execUnpack s
  | .build => Sys2Proof.Machine.execBuild s
  | .scan => Sys2Proof.Machine.execScan s
  | .embed => Sys2Proof.Machine.execEmbed s
  | .extract => Sys2Proof.Machine.execExtract s
  | .encode => Sys2Proof.Machine.execEncode s
  | .decode => Sys2Proof.Machine.execDecode s
  | .clr => Sys2Proof.Machine.execClr s

end Sys2Proof.Machine
end

