-- ==== Sys2Proof/Machine/Port.lean ====
section
/-! DEFINITION. The host port: where an address leads (20_memory.md R62 to R64), the control registers (10_state.md section 2), the
windows, the four accesses (20_memory.md R51, R52) and the reset input. -/

namespace Sys2Proof.Machine

/-- Where a host byte address leads (20_memory.md R62 to R64). -/
inductive Target where
  /-- into the register range -/
  | register
  /-- into a window, at an offset of its buffer -/
  | window (x : Space) (off : Nat)
  /-- nowhere (R64) -/
  | unmapped
deriving DecidableEq, Repr

/-- The address lies in the window of a space (20_memory.md R63). -/
def inWindow (P : Params) (a : Nat) (x : Space) : Bool :=
  decide (spaceBase P x ≤ a) && decide (a < spaceBase P x + spaceSize P x)

/-- Where a host byte address leads: the register range, one of the nine windows, or nowhere (20_memory.md R62 to R64). -/
def locate (P : Params) (a : Nat) : Target :=
  if a < csrBytes then .register
  else
    match allSpaces.find? (inWindow P a) with
    | some x => .window x (a - spaceBase P x)
    | none => .unmapped

/-- The control registers by name (10_state.md section 2). -/
inductive Reg where
  /-- register 0 -/
  | cmd
  /-- register 1 -/
  | status
  /-- register 2 -/
  | imgW
  /-- register 3 -/
  | imgH
  /-- registers 4 to 11 -/
  | len (b : Buf)
  /-- register 12 -/
  | scanPos
deriving DecidableEq, Repr

/-- The number of a control register (10_state.md section 2). -/
def regNumber : Reg → Nat
  | .cmd => 0
  | .status => 1
  | .imgW => 2
  | .imgH => 3
  | .len .pw => 4
  | .len .nonce => 5
  | .len .ad => 6
  | .len .key => 7
  | .len .pt => 8
  | .len .ct => 9
  | .len .blob => 10
  | .len .frame => 11
  | .scanPos => 12

/-- The thirteen control registers. -/
def allRegs : List Reg := [.cmd, .status, .imgW, .imgH] ++ allBufs.map .len ++ [.scanPos]

/-- The register at a number; 13 and up are reserved (10_state.md R30). -/
def regOfNumber (n : Nat) : Option Reg := allRegs.find? (fun r => decide (regNumber r = n))

/-- The byte address of a register: four times its number (20_memory.md R62). -/
def regAddr (r : Reg) : Addr := BitVec.ofNat 32 (4 * regNumber r)

/-- What a host read of a control register returns: CMD reads 0 (10_state.md R23), STATUS its two fields (R24). -/
def readReg (s : State) : Reg → Word
  | .cmd => 0
  | .status => s.status
  | .imgW => s.imgW
  | .imgH => s.imgH
  | .len b => s.lenReg b
  | .scanPos => s.scanPos

/-- What a host write of a control register stores: a value above the register's maximum is ignored (10_state.md R26, R27), a write to a
read-only register too (R24, R29). CMD stores nothing; its effect is `command`. -/
def writeReg (s : State) (r : Reg) (v : Word) : State :=
  match r with
  | .cmd => s
  | .status => s
  | .imgW => if v.toNat ≤ dimMax then { s with imgW := v } else s
  | .imgH => if v.toNat ≤ dimMax then { s with imgH := v } else s
  | .len b => if v.toNat ≤ bufSize s.params b then s.setLenReg b v else s
  | .scanPos => s

/-- A write of `w` to CMD: the word is decoded and the command runs to its end in the same step (30_encoding.md R80, R82). -/
def command (s : State) (w : Word) : Host.Outcome State Fault Refusal :=
  match decode w with
  | .ok i => exec i s
  | .error _ => answerIllegal s

/-- HostRead8 through a window: the byte, but 0x00 in the PW window (10_state.md R31, 20_memory.md R52). -/
def readWindow (s : State) (x : Space) (off : Nat) : Byte :=
  match x with
  | .buf .pw => 0
  | x => Memory.read (s.mem x) off

/-- HostWrite8 through a window: stores the byte and changes nothing else (20_memory.md R52). -/
def writeWindow (s : State) (x : Space) (off : Nat) (v : Byte) : State :=
  s.setMem x (Memory.write (s.mem x) off v)

/-- The answer to a read. -/
def State.answer (s : State) (r : Reply) : State := { s with reply := r }

/-- The checks a 32-bit access must pass, and where it leads: a multiple of 4 (20_memory.md R56), not a window (R51); a register by its
number, `none` for a reserved register (10_state.md R30) and for an unmapped address (20_memory.md R64). -/
def access32 (P : Params) (a : Addr) : Except Refusal (Option Reg) :=
  if a.toNat % 4 ≠ 0 then .error (.misalignedAccess a)
  else
    match locate P a.toNat with
    | .register => .ok (regOfNumber (a.toNat / 4))
    | .window _ _ => .error (.wordAccessToWindow a)
    | .unmapped => .ok none

/-- The check an 8-bit access must pass, and where it leads: not a control register (20_memory.md R51); a byte of a window, or `none` for
an unmapped address (R64). -/
def access8 (P : Params) (a : Addr) : Except Refusal (Option (Space × Nat)) :=
  match locate P a.toNat with
  | .register => .error (.byteAccessToRegister a)
  | .window x off => .ok (some (x, off))
  | .unmapped => .ok none

/-- HostRead32(a) (20_memory.md R52): a reserved register and an unmapped address read 0 (10_state.md R30, 20_memory.md R64). -/
def hostRead32 (s : State) (a : Addr) : Host.Outcome State Fault Refusal :=
  match access32 s.params a with
  | .error e => .refused e
  | .ok (some r) => .next (s.answer (.word (readReg s r)))
  | .ok none => .next (s.answer (.word 0))

/-- HostWrite32(a, v) (20_memory.md R52): to CMD it runs a command; to a reserved register or an unmapped address it changes nothing. -/
def hostWrite32 (s : State) (a : Addr) (v : Word) : Host.Outcome State Fault Refusal :=
  match access32 s.params a with
  | .error e => .refused e
  | .ok (some .cmd) => command s v
  | .ok (some r) => .next (writeReg s r v)
  | .ok none => .next s

/-- HostRead8(a) (20_memory.md R52, R64). -/
def hostRead8 (s : State) (a : Addr) : Host.Outcome State Fault Refusal :=
  match access8 s.params a with
  | .error e => .refused e
  | .ok (some (x, off)) => .next (s.answer (.byte (readWindow s x off)))
  | .ok none => .next (s.answer (.byte 0))

/-- HostWrite8(a, v) (20_memory.md R52, R64). -/
def hostWrite8 (s : State) (a : Addr) (v : Byte) : Host.Outcome State Fault Refusal :=
  match access8 s.params a with
  | .error e => .refused e
  | .ok (some (x, off)) => .next (writeWindow s x off v)
  | .ok none => .next s

/-- One event of the outside, in one step (20_memory.md R50). -/
def perform (s : State) : HostEvent → Host.Outcome State Fault Refusal
  | .read32 a => hostRead32 s a
  | .write32 a v => hostWrite32 s a v
  | .read8 a => hostRead8 s a
  | .write8 a v => hostWrite8 s a v
  | .read16 a => .refused (.halfwordAccess a)
  | .write16 a _ => .refused (.halfwordAccess a)
  | .reset image => .next (s.resetInput image)

/-- Take the next event off the host's list; the port answers nothing until the event does (log 1). -/
def State.accept (s : State) (rest : List HostEvent) : State := { s with script := rest, reply := .none }

/-- Let the host make its next access. With none pending nothing in the block changes (20_memory.md R50, 70_reset_and_hazards.md
R201). -/
def hostStep (s : State) : Host.Outcome State Fault Refusal :=
  match s.script with
  | [] => .next s
  | e :: rest => perform (s.accept rest) e

end Sys2Proof.Machine
end

