-- ==== Sys2Proof/Machine/Step.lean ====
section
/-! DEFINITION. One step of the machine, and how the host puts a command where the next step takes it. -/

namespace Sys2Proof.Machine

/-- One step: the host's next access (20_memory.md R50). -/
def step (s : State) : Host.Outcome State Fault Refusal := hostStep s

/-- The state with a write of the word to CMD as the host's next access, so that the next step decodes and runs it. The block fetches
nothing (10_state.md R21, 20_memory.md R70): a command comes from the host's write alone (log 1). -/
def State.withFetchWord (s : State) (nbits w : Nat) : State :=
  { s with script := .write32 (regAddr .cmd) (tableWord nbits w) :: s.script }

end Sys2Proof.Machine
end

