-- ==== Sys2Proof/Safety.lean ====
section
/-! DEFINITION. The terms claims use: the invariant of the machine and what two states have in common. -/

namespace Sys2Proof.Machine

/-- Every cell of a memory lies inside its `size` bytes. -/
abbrev Memory.within (m : Memory) (size : Nat) : Prop := ∀ c ∈ m, c.1 < size

/-- The invariant: the parameters are legal (00_scope.md R8); IMG_W and IMG_H are at most 65535 (10_state.md R26); every length register is
at most its maximum (R27) and SCAN_POS at most FRAME_MAX (section 2); every memory has its canonical form and lies inside its size. -/
abbrev State.Inv (s : State) : Prop :=
  s.params.legal = true ∧ s.imgW.toNat ≤ dimMax ∧ s.imgH.toNat ≤ dimMax ∧ s.scanPos.toNat ≤ s.params.frameMax ∧
  (∀ b ∈ allBufs, s.len b ≤ bufSize s.params b) ∧
  (∀ x ∈ allSpaces, Memory.wf (s.mem x) ∧ Memory.within (s.mem x) (spaceSize s.params x))

/-- Every byte of a space reads in `t` as in `s`. -/
def sameBytes (x : Space) (s t : State) : Prop := ∀ a, Memory.read (t.mem x) a = Memory.read (s.mem x) a

/-- A buffer is left alone: its length register and every byte. -/
def sameBuffer (b : Buf) (s t : State) : Prop := t.lenReg b = s.lenReg b ∧ sameBytes (.buf b) s t

/-- Every buffer but those named is left alone. -/
def buffersKept (written : List Buf) (s t : State) : Prop := ∀ b, b ∉ written → sameBuffer b s t

/-- IMG_W, IMG_H and every byte of IMG are left alone. -/
def imageKept (s t : State) : Prop := t.imgW = s.imgW ∧ t.imgH = s.imgH ∧ sameBytes .img s t

/-- STATUS.FSM and SCAN_POS are left alone. -/
def scannerKept (s t : State) : Prop := t.fsm = s.fsm ∧ t.scanPos = s.scanPos

/-- The parameters, the host's events still to come and the last answer are left alone. -/
def portKept (s t : State) : Prop := t.params = s.params ∧ t.script = s.script ∧ t.reply = s.reply

/-- The supplied entropy and its counter are left alone. -/
def entropyKept (s t : State) : Prop := t.entropy = s.entropy ∧ t.drawn = s.drawn

/-- Every control register is left alone: STATUS, IMG_W, IMG_H, the length registers, SCAN_POS. -/
def registersKept (s t : State) : Prop :=
  t.err = s.err ∧ t.fsm = s.fsm ∧ t.imgW = s.imgW ∧ t.imgH = s.imgH ∧ t.scanPos = s.scanPos ∧ ∀ b, t.lenReg b = s.lenReg b

/-- `buf` holds the byte string `v` from offset 0 on, its length register says so, and its bytes above are those it had (20_memory.md
R59). -/
def delivered (b : Buf) (v : List Byte) (s t : State) : Prop :=
  t.len b = v.length ∧ t.contents b = v ∧
  ∀ a, v.length ≤ a → Memory.read (t.buf b) a = Memory.read (s.buf b) a

/-- A buffer is empty and every byte of it is 0x00. -/
def discarded (b : Buf) (t : State) : Prop := t.len b = 0 ∧ ∀ a, Memory.read (t.buf b) a = 0

/-- `B[i : i+6) = pat`, the six bytes of a sentinel stand at offset `i` (42_frame.md R130). -/
def standsAt (pat B : List Byte) (i : Nat) : Prop := i + 6 ≤ B.length ∧ (B.drop i).take 6 = pat

/-- Bit number `i` of the bit stream of a byte string: bit `7 - (i mod 8)` of byte `floor(i / 8)` (20_memory.md R53). -/
def streamBit (f : List Byte) (i : Nat) : Bool := (f.getD (i / 8) 0).getLsbD (7 - i % 8)

/-- The buffers a command may write, with their length registers (10_state.md R39). -/
def writtenBuffers : Instr → List Buf
  | .gen => [.nonce, .ad]
  | .derive => [.key]
  | .sealPt => [.ct]
  | .openCt => [.pt]
  | .pack => [.blob]
  | .unpack => [.nonce, .ad, .ct]
  | .build => [.frame]
  | .scan => [.blob]
  | .embed => [.frame]
  | .extract => [.blob]
  | .encode => [.nonce, .ad, .key, .ct, .blob, .frame]
  | .decode => [.blob, .nonce, .ad, .ct, .key, .pt]
  | .clr => [.pw, .nonce, .ad, .key, .pt, .ct, .blob, .frame]

/-- The commands that write SCAN_POS and STATUS.FSM (10_state.md R25, R39). -/
def writesScanner : Instr → Bool
  | .scan => true
  | .extract => true
  | .decode => true
  | .clr => true
  | .gen => false
  | .derive => false
  | .sealPt => false
  | .openCt => false
  | .pack => false
  | .unpack => false
  | .build => false
  | .embed => false
  | .encode => false

/-- Commands run one after another as separate commands, stopping after the first that ends with an error (44_composite.md R162). -/
def runCommands : List Instr → State → Host.Outcome State Fault Refusal
  | [], s => .next s
  | [i], s => exec i s
  | i :: j :: rest, s =>
    match exec i s with
    | .next t => if t.err = .success then runCommands (j :: rest) t else .next t
    | .fault f => .fault f
    | .refused r => .refused r

end Sys2Proof.Machine
end

