-- ==== Sys2Proof/Certificates/Slice0/Obligations.lean ====
section
/-! DEFINITION. The statements for the provers, from the numbered rules of spec/. `Inv` is the invariant of Safety.lean. A statement about a
command's result is also its completion statement: its conclusion is that `exec` answers that next state. What is the model's own form and
no rule of the spec, wherever it stands below: the host's list of accesses `script` and the answer `reply` (log 1), the parameters in the
state (log 2), the supplied entropy `entropy` and its counter `drawn` (log 4), the reset event with its image (log 6). -/

open Sys2Proof Sys2Proof.Machine

/-! Encoding (30_encoding.md). -/

/-- R81, R85: decoding and encoding agree in both directions, over every word and every command. -/
def Obligations.DecodeEncodeAgree : Prop :=
  ∀ (w : Word) (i : Instr), decode w = .ok i ↔ w = encode i

/-- R82: a word selects a row of the opcode table exactly when `w & mask = match`, and no two rows are selected by one word. -/
def Obligations.DecodeSelectsTheTableRow : Prop :=
  (∀ (w : Word) (i : Instr), decode w = .ok i ↔ ∃ r ∈ opcodeTable, r.instr = i ∧ w &&& r.mask = r.pattern) ∧
  (∀ (w : Word), ∀ r ∈ opcodeTable, ∀ q ∈ opcodeTable, w &&& r.mask = r.pattern → w &&& q.mask = q.pattern → r = q)

/-- R85: a few words of the spec's table, written out, and words it calls illegal (V43). A sanity statement. -/
def Obligations.WordsOfTheSpecDecode : Prop :=
  decode 0x00000001 = .ok .gen ∧ decode 0x00000003 = .ok .sealPt ∧ decode 0x00000007 = .ok .build ∧
  decode 0x0000000A = .ok .extract ∧ decode 0x0000000C = .ok .decode ∧ decode 0x0000000D = .ok .clr ∧
  decode 0x00000000 = .error (.noSuchOpcode 0x00) ∧ decode 0x0000000E = .error (.noSuchOpcode 0x0E) ∧
  decode 0x00000103 = .error (.highBitsSet 0x00000103) ∧ decode 0x80000001 = .error (.highBitsSet 0x80000001)

/-- R55, R80: a command word laid out in its byte lanes and read back decodes as the word itself, and as `decodeTableWord`
says (log 10). -/
def Obligations.TableBitsDecodeAsTheWord : Prop :=
  ∀ (w : Word), wordOfLanes (w.extractLsb' 0 8) (w.extractLsb' 8 8) (w.extractLsb' 16 8) (w.extractLsb' 24 8) = w ∧
    decodeTableWord 32 w.toNat = (decode w).toOption

/-! A step (20_memory.md R50, 30_encoding.md R80). -/

/-- R80: when the host's next access writes to CMD a word that decodes to a command, the step is that command, run on the state with the
access taken off the host's list and the last answer cleared. -/
def Obligations.StepRunsTheDecodedCommand : Prop :=
  (∀ (s : State) (w : Word) (i : Instr) (rest : List HostEvent), decode w = .ok i → s.script = .write32 0 w :: rest →
    step s = exec i { s with script := rest, reply := .none }) ∧
  (∀ (s : State) (i : Instr), step (s.withFetchWord 32 (encode i).toNat) = exec i { s with reply := .none })

/-- R82, R86, R175: a word written to CMD that is 0 or above 0x0D selects no command: STATUS.ERR becomes IllegalCommandError and nothing else
of the block changes. -/
def Obligations.IllegalWordSetsOnlyErr : Prop :=
  ∀ (s : State) (w : Word) (rest : List HostEvent), (w.toNat = 0 ∨ 0x0D < w.toNat) → s.script = .write32 0 w :: rest →
    step s = .next { s with script := rest, reply := .none, err := .illegalCommand }

/-- R50, R201: with no access pending nothing in the block changes. -/
def Obligations.NothingPendingChangesNothing : Prop :=
  ∀ s : State, s.script = [] → step s = .next s

/-! Host accesses (20_memory.md section 1). -/

/-- R52, R62: a 32-bit read at a register's address answers the register's value, CMD answering 0 and STATUS its two fields, and changes
nothing. -/
def Obligations.RegisterReadAnswersAndChangesNothing : Prop :=
  ∀ (s : State) (r : Reg) (rest : List HostEvent), s.script = .read32 (BitVec.ofNat 32 (4 * regNumber r)) :: rest →
    step s = .next { s with
      script := rest
      reply := .word (match r with
        | .cmd => 0
        | .status => BitVec.ofNat 32 (s.err.code.toNat + 16 * s.fsm.code.toNat)
        | .imgW => s.imgW
        | .imgH => s.imgH
        | .len b => s.lenReg b
        | .scanPos => s.scanPos) }

/-- R26, R27, R52: a 32-bit write to a register other than CMD stores a value within the register's legal values, is ignored otherwise, and
changes nothing else. -/
def Obligations.RegisterWriteStoresLegalValues : Prop :=
  ∀ (s : State) (r : Reg) (v : Word) (rest : List HostEvent), r ≠ .cmd →
    s.script = .write32 (BitVec.ofNat 32 (4 * regNumber r)) v :: rest →
    step s = .next (match r with
      | .cmd => { s with script := rest, reply := .none }
      | .status => { s with script := rest, reply := .none }
      | .scanPos => { s with script := rest, reply := .none }
      | .imgW => { s with script := rest, reply := .none, imgW := if v.toNat ≤ 65535 then v else s.imgW }
      | .imgH => { s with script := rest, reply := .none, imgH := if v.toNat ≤ 65535 then v else s.imgH }
      | .len b => State.setLenReg { s with script := rest, reply := .none } b
          (if v.toNat ≤ bufSize s.params b then v else s.lenReg b))

/-- R30: register numbers 13 to 63 read 0 and ignore writes. -/
def Obligations.ReservedRegistersReadZeroIgnoreWrites : Prop :=
  ∀ (s : State) (n : Nat) (v : Word) (rest : List HostEvent), 13 ≤ n → n ≤ 63 →
    (s.script = .read32 (BitVec.ofNat 32 (4 * n)) :: rest → step s = .next { s with script := rest, reply := .word 0 }) ∧
    (s.script = .write32 (BitVec.ofNat 32 (4 * n)) v :: rest → step s = .next { s with script := rest, reply := .none })

/-- R64: an address in neither the register range nor a window reads 0 and ignores writes. -/
def Obligations.UnmappedReadsZeroIgnoresWrites : Prop :=
  ∀ (s : State) (a : Addr) (v : Word) (b : Byte) (rest : List HostEvent), 0x100 ≤ a.toNat →
    (∀ x ∈ allSpaces, a.toNat < spaceBase s.params x ∨ spaceBase s.params x + spaceSize s.params x ≤ a.toNat) →
    (s.script = .read8 a :: rest → step s = .next { s with script := rest, reply := .byte 0 }) ∧
    (s.script = .write8 a b :: rest → step s = .next { s with script := rest, reply := .none }) ∧
    (a.toNat % 4 = 0 → s.script = .read32 a :: rest → step s = .next { s with script := rest, reply := .word 0 }) ∧
    (a.toNat % 4 = 0 → s.script = .write32 a v :: rest → step s = .next { s with script := rest, reply := .none })

/-- R31, R52: an 8-bit read in a window answers the byte, but 0x00 in the PW window, and changes nothing. -/
def Obligations.WindowReadAnswersAndChangesNothing : Prop :=
  ∀ (s : State) (x : Space) (off : Nat) (rest : List HostEvent), s.params.legal = true → off < spaceSize s.params x →
    s.script = .read8 (BitVec.ofNat 32 (spaceBase s.params x + off)) :: rest →
    step s = .next { s with
      script := rest
      reply := .byte (if x = .buf .pw then 0 else Memory.read (s.mem x) off) }

/-- R52: an 8-bit write in a window stores the byte and changes nothing else; in particular no length register and no other byte. -/
def Obligations.WindowWriteStoresOneByte : Prop :=
  ∀ (s : State) (x : Space) (off : Nat) (v : Byte) (rest : List HostEvent), s.params.legal = true → off < spaceSize s.params x →
    s.script = .write8 (BitVec.ofNat 32 (spaceBase s.params x + off)) v :: rest →
    ∃ t, step s = .next t ∧ Memory.read (t.mem x) off = v ∧ (∀ a, a ≠ off → Memory.read (t.mem x) a = Memory.read (s.mem x) a) ∧
      (∀ y, y ≠ x → sameBytes y s t) ∧ registersKept s t ∧ entropyKept s t ∧
      t.params = s.params ∧ t.script = rest ∧ t.reply = .none

/-- R51, R56: the accesses that are not admitted are refused by name: misaligned 32-bit ones, 32-bit ones to a window, 8-bit ones to a
register, 16-bit ones. -/
def Obligations.InadmissibleAccessesAreRefused : Prop :=
  ∀ (s : State) (a : Addr) (v : Word) (b : Byte) (h : BitVec 16) (rest : List HostEvent),
    (a.toNat % 4 ≠ 0 → s.script = .read32 a :: rest ∨ s.script = .write32 a v :: rest → step s = .refused (.misalignedAccess a)) ∧
    (a.toNat % 4 = 0 → 0x100 ≤ a.toNat →
      (∃ x ∈ allSpaces, spaceBase s.params x ≤ a.toNat ∧ a.toNat < spaceBase s.params x + spaceSize s.params x) →
      s.script = .read32 a :: rest ∨ s.script = .write32 a v :: rest → step s = .refused (.wordAccessToWindow a)) ∧
    (a.toNat < 0x100 → s.script = .read8 a :: rest ∨ s.script = .write8 a b :: rest → step s = .refused (.byteAccessToRegister a)) ∧
    (s.script = .read16 a :: rest ∨ s.script = .write16 a h :: rest → step s = .refused (.halfwordAccess a))

/-- R31: no host access other than a command lets the password bytes show: two states that differ only in PW answer the same, and still
differ only in PW afterwards. -/
def Obligations.PasswordBytesAreNeverAnswered : Prop :=
  ∀ (s : State) (m : Memory) (e : HostEvent) (rest : List HostEvent), (∀ a v, e = .write32 a v → a.toNat ≠ 0) →
    s.script = e :: rest →
    match step s, step (s.setBuf .pw m) with
    | .next t, .next u => u.reply = t.reply ∧ u.setBuf .pw [] = t.setBuf .pw []
    | .refused r, .refused q => r = q
    | _, _ => False

/-! Reset (10_state.md R38, 70_reset_and_hazards.md R200). -/

/-- R38, R200: what the reset input leaves from any state, IMG with any contents that fit (unspecified there); and State.reset is such a
state. -/
def Obligations.ResetLeavesEverythingAbsent : Prop :=
  (∀ (s : State) (image : List Host.Cell) (rest : List HostEvent), s.script = .reset image :: rest →
    ∃ t, step s = .next t ∧ t.err = .success ∧ t.fsm = .scanningStart ∧ t.imgW = 0 ∧ t.imgH = 0 ∧ t.scanPos = 0 ∧
      (∀ b, t.lenReg b = 0 ∧ ∀ a, Memory.read (t.buf b) a = 0) ∧
      t.params = s.params ∧ t.script = rest ∧ t.reply = .none ∧ entropyKept s t ∧
      (Memory.wf image → Memory.within image (spaceSize s.params .img) → t.img = image)) ∧
  (State.reset.err = .success ∧ State.reset.fsm = .scanningStart ∧ State.reset.imgW = 0 ∧ State.reset.imgH = 0 ∧
    State.reset.scanPos = 0 ∧ ∀ b, State.reset.lenReg b = 0 ∧ ∀ a, Memory.read (State.reset.buf b) a = 0)

/-! GEN, DERIVE (45_system.md R170, 40_kdf.md). -/

/-- R170, R171: GEN draws 56 bytes, any bytes the entropy source answers; the first 24 become the nonce, the other 32 the associated data;
nothing else changes. -/
def Obligations.GenDrawsNonceAndAssociatedData : Prop :=
  encode .gen = 0x00000001 ∧
  ∀ s : State, ∃ (r : List Byte) (t : State), r.length = 56 ∧ (∀ i < 56, ∀ b, s.entropy[i]? = some b → r[i]? = some b) ∧
    exec .gen s = .next t ∧ t.err = .success ∧ delivered .nonce (r.take 24) s t ∧ delivered .ad (r.drop 24) s t ∧
    buffersKept [.nonce, .ad] s t ∧ imageKept s t ∧ scannerKept s t ∧ portKept s t

/-- R100: without a password or with an undersized nonce DERIVE gives KeyDerivationError and nothing else; otherwise it writes the key KDF gives,
or, where KDF gives none, only KeyDerivationError. -/
def Obligations.DeriveWritesTheDerivedKey : Prop :=
  encode .derive = 0x00000002 ∧
  (∀ s : State, s.len .pw = 0 ∨ s.len .nonce ≠ 24 → exec .derive s = .next { s with err := .keyDerivation }) ∧
  ∀ s : State, s.Inv → s.len .pw ≠ 0 → s.len .nonce = 24 →
    ∃ t, exec .derive s = .next t ∧
      match Config.kdf s.params.keyBytes (s.contents .pw) (s.contents .nonce) with
      | none => t = { s with err := .keyDerivation }
      | some k => t.err = .success ∧ delivered .key k.toList s t ∧ t.len .key = s.params.keyBytes ∧
          buffersKept [.key] s t ∧ imageKept s t ∧ scannerKept s t ∧ portKept s t ∧ entropyKept s t

/-- R101: two DERIVE commands on the same password and nonce both fail or both write the same key; said for any configuration functions, and
DERIVE is its body under the hardware's. -/
def Obligations.DeriveIsDeterministic : Prop :=
  (∀ s : State, exec .derive s = finish (deriveBody Config.crypto s)) ∧
  ∀ (C : Crypto) (s u : State), u.params = s.params → u.contents .pw = s.contents .pw → u.contents .nonce = s.contents .nonce →
    (deriveBody C u).err = (deriveBody C s).err ∧
    ((deriveBody C s).err = .success → (deriveBody C u).state.lenReg .key = (deriveBody C s).state.lenReg .key ∧
      (deriveBody C u).state.whole .key = (deriveBody C s).state.whole .key)

/-! SEAL, OPEN (41_aead.md). -/

/-- R110: with a payload and key, nonce and associated data present, SEAL writes the ciphertext with its tag, 16 bytes longer than the payload;
nothing else changes. Without one of them it gives InputError and nothing else. -/
def Obligations.SealWritesCiphertextWithTag : Prop :=
  encode .sealPt = 0x00000003 ∧
  (∀ s : State, s.len .pt = 0 ∨ s.len .key ≠ s.params.keyBytes ∨ s.len .nonce ≠ 24 ∨ s.len .ad ≠ 32 →
    exec .sealPt s = .next { s with err := .input }) ∧
  ∀ s : State, s.Inv → s.len .pt ≠ 0 → s.len .key = s.params.keyBytes → s.len .nonce = 24 → s.len .ad = 32 →
    ∃ t, exec .sealPt s = .next t ∧ t.err = .success ∧
      delivered .ct (Config.aeadSeal (s.contents .key) (s.contents .nonce) (s.contents .pt) (s.contents .ad)).toList s t ∧
      t.len .ct = s.len .pt + 16 ∧
      buffersKept [.ct] s t ∧ imageKept s t ∧ scannerKept s t ∧ portKept s t ∧ entropyKept s t

/-- R114: without the key OPEN gives InputError, with the key and an undersized operand AuthenticationError, and nothing else; otherwise it
writes the plaintext AEAD_OPEN gives, 16 bytes shorter than the ciphertext, or, where the tag does not verify, only AuthenticationError: PT
keeps its bytes. -/
def Obligations.OpenWritesThePlaintextOrNothing : Prop :=
  encode .openCt = 0x00000004 ∧
  (∀ s : State, s.len .key ≠ s.params.keyBytes → exec .openCt s = .next { s with err := .input }) ∧
  (∀ s : State, s.len .key = s.params.keyBytes → s.len .nonce ≠ 24 ∨ s.len .ad ≠ 32 ∨ s.len .ct < 16 →
    exec .openCt s = .next { s with err := .authentication }) ∧
  ∀ s : State, s.Inv → s.len .key = s.params.keyBytes → s.len .nonce = 24 → s.len .ad = 32 → 16 ≤ s.len .ct →
    ∃ t, exec .openCt s = .next t ∧
      match Config.aeadOpen (s.contents .key) (s.contents .nonce) (s.contents .ct) (s.contents .ad) with
      | none => t = { s with err := .authentication }
      | some p => t.err = .success ∧ delivered .pt p.toList s t ∧ t.len .pt = s.len .ct - 16 ∧
          buffersKept [.pt] s t ∧ imageKept s t ∧ scannerKept s t ∧ portKept s t ∧ entropyKept s t

/-- R115, an inference the spec marks as its own: what SEAL and OPEN promise together, for any configuration functions. In a state that
still has the nonce of a SEAL that succeeded: with key, associated data and ciphertext as they were, OPEN gives the payload back (P-RT);
with one bit of the ciphertext or of the associated data flipped it raises AuthenticationError (P-TAMPER); with the key of another password
it does too (P-WRONGKEY). SEAL and OPEN are their bodies under the hardware's functions. -/
def Obligations.SealAndOpenPromises : Prop :=
  (∀ s : State, exec .sealPt s = finish (sealBody Config.crypto s) ∧ exec .openCt s = finish (openBody Config.crypto s)) ∧
  ∀ (C : Crypto) (s t u : State), s.Inv → sealBody C s = ⟨t, .success⟩ → u.params = t.params → sameBuffer .nonce t u →
    (C.RoundTrips s.params.keyBytes → sameBuffer .key t u → sameBuffer .ad t u → sameBuffer .ct t u →
      ∃ v, openBody C u = ⟨v, .success⟩ ∧ v.contents .pt = s.contents .pt) ∧
    (C.DetectsTampering s.params.keyBytes → sameBuffer .key t u → u.len .ad = t.len .ad → u.len .ct = t.len .ct →
      (oneBitApart (t.contents .ct) (u.contents .ct) ∧ u.contents .ad = t.contents .ad) ∨
        (u.contents .ct = t.contents .ct ∧ oneBitApart (t.contents .ad) (u.contents .ad)) →
      openBody C u = ⟨u, .authentication⟩) ∧
    (∀ (pw pw' : List Byte) (k k' : Vector Byte s.params.keyBytes), C.RejectsWrongKeys s.params.keyBytes → pw ≠ pw' →
      C.kdf s.params.keyBytes pw (s.contents .nonce) = some k → C.kdf s.params.keyBytes pw' (s.contents .nonce) = some k' →
      s.contents .key = k.toList → u.contents .key = k'.toList → sameBuffer .ad t u → sameBuffer .ct t u →
      openBody C u = ⟨u, .authentication⟩)

/-! PACK, UNPACK, BUILD (42_frame.md). -/

/-- R120: PACK joins nonce, associated data and ciphertext into a blob of 56 bytes more than the ciphertext; nothing else changes. With an
undersized operand it gives InputError and nothing else. -/
def Obligations.PackJoinsTheBlob : Prop :=
  encode .pack = 0x00000005 ∧
  (∀ s : State, s.len .nonce ≠ 24 ∨ s.len .ad ≠ 32 ∨ s.len .ct < 16 → exec .pack s = .next { s with err := .input }) ∧
  ∀ s : State, s.Inv → s.len .nonce = 24 → s.len .ad = 32 → 16 ≤ s.len .ct →
    ∃ t, exec .pack s = .next t ∧ t.err = .success ∧
      delivered .blob (s.contents .nonce ++ s.contents .ad ++ s.contents .ct) s t ∧ t.len .blob = 56 + s.len .ct ∧
      buffersKept [.blob] s t ∧ imageKept s t ∧ scannerKept s t ∧ portKept s t ∧ entropyKept s t

/-- R124: UNPACK splits the blob whatever its length and never fails; a short blob gives short operands; nothing else changes. -/
def Obligations.UnpackSplitsTheBlob : Prop :=
  encode .unpack = 0x00000006 ∧
  ∀ s : State, ∃ t, exec .unpack s = .next t ∧ t.err = .success ∧
    delivered .nonce ((s.contents .blob).take 24) s t ∧ t.len .nonce = min (s.len .blob) 24 ∧
    delivered .ad (((s.contents .blob).drop 24).take 32) s t ∧ t.len .ad = min (s.len .blob - 24) 32 ∧
    delivered .ct ((s.contents .blob).drop 56) s t ∧ t.len .ct = s.len .blob - 56 ∧
    buffersKept [.nonce, .ad, .ct] s t ∧ imageKept s t ∧ scannerKept s t ∧ portKept s t ∧ entropyKept s t

/-- R125, an inference the spec marks as its own: PACK and UNPACK are inverse on well-formed operands. -/
def Obligations.PackAndUnpackAreInverse : Prop :=
  (∀ s t u : State, s.Inv → exec .pack s = .next t → t.err = .success → exec .unpack t = .next u →
    ∀ b ∈ [Buf.nonce, .ad, .ct], u.lenReg b = s.lenReg b ∧ u.contents b = s.contents b) ∧
  (∀ s t u : State, s.Inv → 72 ≤ s.len .blob → exec .unpack s = .next t → exec .pack t = .next u →
    u.err = .success ∧ u.lenReg .blob = s.lenReg .blob ∧ u.contents .blob = s.contents .blob)

/-- R127: BUILD wraps the blob between the sentinels, 12 bytes more; nothing else changes. Without a blob it gives InputError and nothing
else. -/
def Obligations.BuildWrapsTheBlob : Prop :=
  encode .build = 0x00000007 ∧
  (∀ s : State, s.len .blob = 0 → exec .build s = .next { s with err := .input }) ∧
  ∀ s : State, s.Inv → s.len .blob ≠ 0 →
    ∃ t, exec .build s = .next t ∧ t.err = .success ∧
      delivered .frame ([0x23, 0x23, 0x23, 0x23, 0x23, 0x23] ++ s.contents .blob ++ [0x3D, 0x3D, 0x3D, 0x3D, 0x3D, 0x3D]) s t ∧
      t.len .frame = s.len .blob + 12 ∧
      buffersKept [.frame] s t ∧ imageKept s t ∧ scannerKept s t ∧ portKept s t ∧ entropyKept s t

/-! The scanner (42_frame.md section 3). -/

/-- R130: the scanner takes the first START, then the first END from six bytes on; the three outcomes with their state, position and payload. -/
def Obligations.ScannerTakesTheFirstSentinels : Prop :=
  ∀ B : List Byte,
    ((∀ i, ¬ standsAt startSentinel B i) → scanStream B = ⟨.scanningStart, B.length, none⟩) ∧
    (∀ s, standsAt startSentinel B s → (∀ i < s, ¬ standsAt startSentinel B i) →
      ((∀ i, s + 6 ≤ i → ¬ standsAt endSentinel B i) → scanStream B = ⟨.collectingPayload, B.length, none⟩) ∧
      (∀ e, s + 6 ≤ e → standsAt endSentinel B e → (∀ i, s + 6 ≤ i → i < e → ¬ standsAt endSentinel B i) →
        scanStream B = ⟨.done, e + 6, some ((B.take e).drop (s + 6))⟩))

/-- R131, an inference the spec marks as its own: the scanner that takes one byte at a time is equivalent to the function of R130, on every
byte string. -/
def Obligations.BytewiseScannerIsEquivalent : Prop :=
  ∀ B : List Byte, scanBytewise B = scanStream B

/-- R132: SCAN leaves the scanner's state and position and, when both sentinels were found, the payload in BLOB; else
SentinelNotFoundError and BLOB as it was; nothing else changes. -/
def Obligations.ScanDeliversThePayload : Prop :=
  encode .scan = 0x00000008 ∧
  ∀ s : State, s.Inv → ∃ t, exec .scan s = .next t ∧
    t.fsm = (scanStream (s.contents .frame)).state ∧ t.scanPos.toNat = (scanStream (s.contents .frame)).pos ∧
    (match (scanStream (s.contents .frame)).payload with
      | none => t.err = .sentinelNotFound ∧ sameBuffer .blob s t
      | some p => t.err = .success ∧ delivered .blob p s t) ∧
    buffersKept [.blob] s t ∧ imageKept s t ∧ portKept s t ∧ entropyKept s t

/-- R133, an inference the spec marks as its own: a frame followed by anything is always found, its payload is a prefix of the blob, and it
is the whole blob, with `pos = n + 12`, exactly when the blob is clean; when it is not, the blob is cut at the least place where the end
sentinel stands. -/
def Obligations.ScanUndoesBuildExactlyOnCleanBlobs : Prop :=
  ∀ (blob T : List Byte), blob ≠ [] →
    standsAt startSentinel (frameOf blob ++ T) 0 ∧
    (∃ p pos, scanStream (frameOf blob ++ T) = ⟨.done, pos, some p⟩ ∧ p <+: blob ∧
      ((p = blob ∧ pos = blob.length + 12) ↔ cleanBlob blob)) ∧
    (∀ j < blob.length, standsAt endSentinel (blob ++ endSentinel) j → (∀ i < j, ¬ standsAt endSentinel (blob ++ endSentinel) i) →
      scanStream (frameOf blob ++ T) = ⟨.done, 6 + j + 6, some (blob.take j)⟩) ∧
    (cleanBlob blob ↔ (∀ j, ¬ standsAt endSentinel blob j) ∧ blob.getLast? ≠ some 0x3D)

/-! The bit-plane codec (43_bitplane.md). -/

/-- R141, R53: Expand, byte by byte, most significant bit first, eight bits a byte. -/
def Obligations.ExpandIsMostSignificantBitFirst : Prop :=
  ∀ f : List Byte, (expand f).length = 8 * f.length ∧
    ∀ i, i < 8 * f.length → (expand f)[i]? = some ((f.getD (i / 8) 0).getLsbD (7 - i % 8))

/-- R150: Stream groups red parities into bytes, most significant bit first, from pixel 0 on; the last N mod 8 pixels are ignored. -/
def Obligations.StreamGroupsParities : Prop :=
  ∀ (s : State) (n : Nat), (s.stream n).length = n / 8 ∧
    ∀ j < n / 8, ((s.stream n).getD j 0).toNat =
      ((List.range 8).map (fun k => ((s.red (8 * j + k)).toNat % 2) * 2 ^ (7 - k))).sum

/-- R143, with R142: EMBED on a frame that fits sets every red byte below NPIX by the minimal-change rule, pixel p for bit p mod L, changes no
other byte of IMG, and discards the frame. A missing frame, then an image shape beyond the pixel memory, give InputError, then a frame with
more bits than the image has pixels CapacityError, and nothing else. -/
def Obligations.EmbedAdjustsEveryPixel : Prop :=
  encode .embed = 0x00000009 ∧
  (∀ s : State, s.len .frame = 0 ∨ s.params.imgMaxPix < s.npix → exec .embed s = .next { s with err := .input }) ∧
  (∀ s : State, s.len .frame ≠ 0 → s.npix ≤ s.params.imgMaxPix → s.npix < 8 * s.len .frame →
    exec .embed s = .next { s with err := .capacity }) ∧
  ∀ s : State, s.Inv → s.len .frame ≠ 0 → s.npix ≤ s.params.imgMaxPix → 8 * s.len .frame ≤ s.npix →
    ∃ t, exec .embed s = .next t ∧ t.err = .success ∧
      (∀ p < s.npix, (t.red p).toNat =
        if streamBit (s.contents .frame) (p % (8 * s.len .frame)) then
          (if (s.red p).toNat % 2 = 1 then (s.red p).toNat
            else if (s.red p).toNat = 0 then 1 else (s.red p).toNat - 1)
        else
          (if (s.red p).toNat % 2 = 0 then (s.red p).toNat
            else if (s.red p).toNat = 255 then 254 else (s.red p).toNat + 1)) ∧
      (∀ a, (∀ p < s.npix, a ≠ p * s.params.pixelStride) → Memory.read t.img a = Memory.read s.img a) ∧
      discarded .frame t ∧ buffersKept [.frame] s t ∧ t.imgW = s.imgW ∧ t.imgH = s.imgH ∧
      scannerKept s t ∧ portKept s t ∧ entropyKept s t

/-- R144, an inference the spec marks as its own: what EMBED guarantees when it succeeds: the parities carry the bits, no red value moves by
more than one, no other byte changes, and the recovered stream is the frame repeated. -/
def Obligations.EmbedGuarantees : Prop :=
  ∀ s t : State, s.Inv → exec .embed s = .next t → t.err = .success →
    (∀ p < s.npix, (t.red p).toNat % 2 = (streamBit (s.contents .frame) (p % (8 * s.len .frame))).toNat) ∧
    (∀ p < s.npix, (t.red p).toNat ≤ (s.red p).toNat + 1 ∧ (s.red p).toNat ≤ (t.red p).toNat + 1) ∧
    (∀ a, (∀ p < s.npix, a ≠ p * s.params.pixelStride) → Memory.read t.img a = Memory.read s.img a) ∧
    (∀ j < s.npix / 8, (t.stream s.npix).getD j 0 = (s.contents .frame).getD (j % s.len .frame) 0)

/-- R146: a successful EMBED discards the frame, so that a second EMBED raises InputError; a refused one leaves the frame and everything else. -/
def Obligations.EmbedDiscardsTheFrameOnSuccess : Prop :=
  (∀ s t : State, s.Inv → exec .embed s = .next t → t.err = .success →
    discarded .frame t ∧ exec .embed t = .next { t with err := .input }) ∧
  (∀ s t : State, exec .embed s = .next t → t.err ≠ .success →
    (t.err = .input ∨ t.err = .capacity) ∧ t = { s with err := t.err })

/-- R151: EXTRACT scans the stream of the image; it leaves the scanner's state and position and, when both sentinels were found, the payload in
BLOB, else SentinelNotFoundError and BLOB as it was; an image shape beyond the pixel memory gives InputError and nothing else. -/
def Obligations.ExtractDeliversThePayload : Prop :=
  encode .extract = 0x0000000A ∧
  (∀ s : State, s.Inv → s.npix ≤ s.params.imgMaxPix → ∃ t, exec .extract s = .next t ∧
    t.fsm = (scanStream (s.stream s.npix)).state ∧ t.scanPos.toNat = (scanStream (s.stream s.npix)).pos ∧
    (match (scanStream (s.stream s.npix)).payload with
      | none => t.err = .sentinelNotFound ∧ sameBuffer .blob s t
      | some p => t.err = .success ∧ delivered .blob p s t) ∧
    buffersKept [.blob] s t ∧ imageKept s t ∧ portKept s t ∧ entropyKept s t) ∧
  (∀ s : State, s.params.imgMaxPix < s.npix → exec .extract s = .next { s with err := .input })

/-- R152, an inference the spec marks as its own: EXTRACT undoes EMBED: as long as no red parity below NPIX changes, it finds a prefix of
the blob, and the whole blob, with SCAN_POS the frame's length, exactly when the blob is clean. -/
def Obligations.ExtractUndoesEmbed : Prop :=
  ∀ (s t u : State) (blob : List Byte), s.Inv → blob ≠ [] → s.contents .frame = frameOf blob →
    exec .embed s = .next t → t.err = .success →
    u.params = t.params → u.imgW = t.imgW → u.imgH = t.imgH →
    (∀ p < t.npix, (u.red p).toNat % 2 = (t.red p).toNat % 2) →
    ∃ v, exec .extract u = .next v ∧ v.err = .success ∧ v.contents .blob <+: blob ∧
      ((v.contents .blob = blob ∧ v.scanPos.toNat = (frameOf blob).length) ↔ cleanBlob blob)

/-- R213: EXTRACT depends on the image through the red parities below NPIX alone. -/
def Obligations.ExtractReadsOnlyParities : Prop :=
  ∀ (s t : State) (m : Memory),
    (∀ p < s.npix, (Memory.read m (p * s.params.pixelStride)).toNat % 2 = (s.red p).toNat % 2) →
    exec .extract s = .next t → exec .extract { s with img := m } = .next { t with img := m }

/-! ENCODE, DECODE (44_composite.md). -/

/-- R162: ENCODE and DECODE are their sequences of separate commands, stopping after the first that fails, and nothing more; a failed ENCODE and
any DECODE leave the image as it was. -/
def Obligations.CompositesAreTheirSequences : Prop :=
  (∀ s : State,
    exec .encode s = runCommands [.gen, .derive, .sealPt, .pack, .build, .embed] s ∧
    exec .decode s = runCommands [.extract, .unpack, .derive, .openCt] s) ∧
  (∀ s t : State, exec .encode s = .next t → t.err ≠ .success → t.img = s.img) ∧
  (∀ s t : State, exec .decode s = .next t → t.img = s.img)

/-- R160: ENCODE on a password, a payload and an image large enough draws nonce and associated data, derives the key and, where KDF gives one,
leaves the blob in BLOB and the bits of its frame in the red parities, and no frame. -/
def Obligations.EncodeHidesThePayload : Prop :=
  encode .encode = 0x0000000B ∧
  ∀ s : State, s.Inv → s.len .pw ≠ 0 → s.len .pt ≠ 0 → 8 * (s.len .pt + 84) ≤ s.npix → s.npix ≤ s.params.imgMaxPix →
    ∃ (r : List Byte) (t : State), r.length = 56 ∧ (∀ i < 56, ∀ b, s.entropy[i]? = some b → r[i]? = some b) ∧
      exec .encode s = .next t ∧ delivered .nonce (r.take 24) s t ∧ delivered .ad (r.drop 24) s t ∧
      scannerKept s t ∧ portKept s t ∧ t.imgW = s.imgW ∧ t.imgH = s.imgH ∧
      match Config.kdf s.params.keyBytes (s.contents .pw) (r.take 24) with
      | none => t.err = .keyDerivation ∧ buffersKept [.nonce, .ad] s t ∧ imageKept s t
      | some k => ∃ ct blob,
          ct = (Config.aeadSeal k.toList (r.take 24) (s.contents .pt) (r.drop 24)).toList ∧
          blob = r.take 24 ++ r.drop 24 ++ ct ∧
          t.err = .success ∧ delivered .key k.toList s t ∧ delivered .ct ct s t ∧ delivered .blob blob s t ∧ discarded .frame t ∧
          buffersKept [.nonce, .ad, .key, .ct, .blob, .frame] s t ∧
          (∀ p < s.npix, (t.red p).toNat % 2 = (streamBit (frameOf blob) (p % (8 * (s.len .pt + 84)))).toNat) ∧
          (∀ a, (∀ p < s.npix, a ≠ p * s.params.pixelStride) → Memory.read t.img a = Memory.read s.img a)

/-- R163: DECODE on a password and an image whose stream holds a blob of at least 72 bytes splits the blob, derives the key from its nonce and
writes the plaintext AEAD_OPEN gives; where KDF or AEAD_OPEN gives none it ends with that error and PT keeps its bytes. -/
def Obligations.DecodeRecoversThePayload : Prop :=
  encode .decode = 0x0000000C ∧
  ∀ (s : State) (pos : Nat) (blob : List Byte), s.Inv → s.len .pw ≠ 0 → s.npix ≤ s.params.imgMaxPix →
    scanStream (s.stream s.npix) = ⟨.done, pos, some blob⟩ → 72 ≤ blob.length →
    ∃ t, exec .decode s = .next t ∧ t.fsm = .done ∧ t.scanPos.toNat = pos ∧ delivered .blob blob s t ∧
      delivered .nonce (blob.take 24) s t ∧ delivered .ad ((blob.drop 24).take 32) s t ∧ delivered .ct (blob.drop 56) s t ∧
      sameBuffer .pw s t ∧ sameBuffer .frame s t ∧ imageKept s t ∧ portKept s t ∧ entropyKept s t ∧
      match Config.kdf s.params.keyBytes (s.contents .pw) (blob.take 24) with
      | none => t.err = .keyDerivation ∧ sameBuffer .key s t ∧ sameBuffer .pt s t
      | some k => delivered .key k.toList s t ∧
          match Config.aeadOpen k.toList (blob.take 24) (blob.drop 56) ((blob.drop 24).take 32) with
          | none => t.err = .authentication ∧ sameBuffer .pt s t
          | some p => t.err = .success ∧ delivered .pt p.toList s t

/-- R163, R183: the errors of DECODE in their order: image shape, no sentinels, a blob too short for a nonce, a blob too short for
associated data and tag. PT keeps its bytes in each. -/
def Obligations.DecodeReportsTheFirstFailure : Prop :=
  (∀ s : State, s.params.imgMaxPix < s.npix → exec .decode s = .next { s with err := .input }) ∧
  (∀ (s : State) (pos : Nat) (st : ScanState), s.npix ≤ s.params.imgMaxPix → scanStream (s.stream s.npix) = ⟨st, pos, none⟩ →
    exec .decode s = .next { s with err := .sentinelNotFound, fsm := st, scanPos := BitVec.ofNat 32 pos }) ∧
  (∀ (s : State) (pos : Nat) (blob : List Byte), s.Inv → s.npix ≤ s.params.imgMaxPix →
    scanStream (s.stream s.npix) = ⟨.done, pos, some blob⟩ → s.len .pw = 0 ∨ blob.length < 24 →
    ∃ t, exec .decode s = .next t ∧ t.err = .keyDerivation ∧ sameBuffer .key s t ∧ sameBuffer .pt s t) ∧
  (∀ (s : State) (pos : Nat) (blob : List Byte), s.Inv → s.npix ≤ s.params.imgMaxPix →
    scanStream (s.stream s.npix) = ⟨.done, pos, some blob⟩ → s.len .pw ≠ 0 → 24 ≤ blob.length → blob.length < 72 →
    ∃ t, exec .decode s = .next t ∧ sameBuffer .pt s t ∧
      match Config.kdf s.params.keyBytes (s.contents .pw) (blob.take 24) with
      | none => t.err = .keyDerivation
      | some _ => t.err = .authentication)

/-- R165, an inference the spec marks as its own, first case: for any configuration functions with P-RT, DECODE gives back the payload
ENCODE hid, from any state that still has the password, the image shape and the red parities ENCODE left, when the blob is clean. The
bytes ENCODE draws are `drawBytes`, any bytes of the entropy source (log 4). An unclean blob, R165's second case, is left out here. ENCODE and
DECODE are their bodies under the hardware's functions. -/
def Obligations.DecodeUndoesEncode : Prop :=
  (∀ s : State, exec .encode s = finish (encodeBody Config.crypto s) ∧ exec .decode s = finish (decodeBody Config.crypto s)) ∧
  ∀ (C : Crypto) (s u : State) (k : Vector Byte s.params.keyBytes), C.RoundTrips s.params.keyBytes → s.Inv → 1 ≤ s.len .pw → 1 ≤ s.len .pt →
    8 * (s.len .pt + 84) ≤ s.npix → s.npix ≤ s.params.imgMaxPix →
    C.kdf s.params.keyBytes (s.contents .pw) ((s.drawBytes 56).take 24) = some k →
    cleanBlob (s.drawBytes 56 ++
      (C.aeadSeal k.toList ((s.drawBytes 56).take 24) (s.contents .pt) ((s.drawBytes 56).drop 24)).toList) →
    u.params = s.params → sameBuffer .pw s u → u.imgW = s.imgW → u.imgH = s.imgH →
    (∀ p < s.npix, (u.red p).toNat % 2 = ((encodeBody C s).state.red p).toNat % 2) →
    (encodeBody C s).err = .success ∧ (decodeBody C u).err = .success ∧
      (decodeBody C u).state.contents .pt = s.contents .pt

/-- R163: whenever DECODE ends with an error, PT keeps its length and its bytes, and so it is with OPEN. -/
def Obligations.FailedOpeningKeepsThePlaintext : Prop :=
  ∀ (i : Instr) (s t : State), i = .decode ∨ i = .openCt → exec i s = .next t → t.err ≠ .success → sameBuffer .pt s t

/-- R162, R184: whatever command fails, no byte of IMG has changed. -/
def Obligations.FailureLeavesTheImageWhole : Prop :=
  ∀ (i : Instr) (s t : State), exec i s = .next t → t.err ≠ .success → t.img = s.img ∧ t.imgW = s.imgW ∧ t.imgH = s.imgH

/-- R203: the block has no built-in password: with an empty one DERIVE and ENCODE end with KeyDerivationError and DECODE with some error, that
of its EXTRACT step where that fails first (R163). None of the three writes KEY; ENCODE writes no CT, and DECODE, whose UNPACK step may write
CT, no PT. -/
def Obligations.NoPasswordNoKey : Prop :=
  ∀ s t : State, s.len .pw = 0 →
    (exec .derive s = .next t → t.err = .keyDerivation ∧ sameBuffer .key s t) ∧
    (exec .encode s = .next t → t.err = .keyDerivation ∧ sameBuffer .key s t ∧ sameBuffer .ct s t) ∧
    (exec .decode s = .next t → t.err ≠ .success ∧ sameBuffer .key s t ∧ sameBuffer .pt s t)

/-- R216: SEAL refuses an empty payload with InputError, and ENCODE never succeeds on one. -/
def Obligations.EmptyPayloadIsRefused : Prop :=
  ∀ s t : State, s.len .pt = 0 →
    (exec .sealPt s = .next t → t = { s with err := .input }) ∧
    (exec .encode s = .next t → (t.err = .input ∨ t.err = .keyDerivation) ∧ t.img = s.img ∧ sameBuffer .ct s t)

/-! CLR (45_system.md R173). -/

/-- R173: CLR leaves the block as reset leaves it, but for IMG_W, IMG_H and IMG, which it keeps. -/
def Obligations.ClearIsResetButForTheImage : Prop :=
  encode .clr = 0x0000000D ∧
  ∀ s : State, s.Inv → exec .clr s = .next { State.reset with
    params := s.params, script := s.script, reply := s.reply, entropy := s.entropy, drawn := s.drawn,
    imgW := s.imgW, imgH := s.imgH, img := s.img }

/-! The whole machine. -/

/-- The invariant holds after every step (10_state.md R26, R27, R29; 00_scope.md R8: "no command can overflow a buffer"). -/
def Obligations.EveryStepKeepsTheInvariant : Prop :=
  ∀ s t : State, s.Inv → step s = .next t → t.Inv

/-- The invariant holds after reset, with any legal parameters and any contents of IMG. -/
def Obligations.ResetHasTheInvariant : Prop :=
  State.reset.Inv ∧
  ∀ (s : State) (image : List Host.Cell), s.params.legal = true → (s.resetInput image).Inv

/-- R39, an inference the spec marks as its own: who writes what. Every command runs to its end from every state; it writes only the buffers
its row names, the scanner's registers and the red bytes below NPIX only where its row says so, never IMG_W, IMG_H or another byte of
IMG. -/
def Obligations.CommandsWriteOnlyTheirOwn : Prop :=
  ∀ (i : Instr) (s : State), ∃ t, exec i s = .next t ∧ buffersKept (writtenBuffers i) s t ∧
    (writesScanner i = false → scannerKept s t) ∧ t.imgW = s.imgW ∧ t.imgH = s.imgH ∧
    (i ≠ .embed → i ≠ .encode → sameBytes .img s t) ∧
    (∀ a, (∀ p < s.npix, a ≠ p * s.params.pixelStride) → Memory.read t.img a = Memory.read s.img a) ∧
    portKept s t ∧ (i ≠ .gen → i ≠ .encode → entropyKept s t)

/-- R184: when a command other than the two composites raises an error, nothing changes but STATUS.ERR; SCAN and EXTRACT that found no
sentinel have written FSM and SCAN_POS too. -/
def Obligations.AnErrorChangesNothingElse : Prop :=
  ∀ (i : Instr) (s t : State), i ≠ .encode → i ≠ .decode → exec i s = .next t → t.err ≠ .success →
    t = { s with err := t.err } ∨
    ((i = .scan ∨ i = .extract) ∧ t.err = .sentinelNotFound ∧
      t = { s with err := .sentinelNotFound, fsm := t.fsm, scanPos := t.scanPos })

/-- R182: the errors of absent and undersized operands, command by command, in the order of R183. -/
def Obligations.AbsentOperandErrors : Prop :=
  ∀ s : State,
    (s.len .pw = 0 ∨ s.len .nonce ≠ 24 → exec .derive s = .next { s with err := .keyDerivation }) ∧
    (s.len .pt = 0 ∨ s.len .key ≠ s.params.keyBytes ∨ s.len .nonce ≠ 24 ∨ s.len .ad ≠ 32 →
      exec .sealPt s = .next { s with err := .input }) ∧
    (s.len .key ≠ s.params.keyBytes → exec .openCt s = .next { s with err := .input }) ∧
    (s.len .key = s.params.keyBytes → s.len .nonce ≠ 24 ∨ s.len .ad ≠ 32 ∨ s.len .ct < 16 →
      exec .openCt s = .next { s with err := .authentication }) ∧
    (s.len .nonce ≠ 24 ∨ s.len .ad ≠ 32 ∨ s.len .ct < 16 → exec .pack s = .next { s with err := .input }) ∧
    (∃ t, exec .unpack s = .next t ∧ t.err = .success ∧ t.len .nonce = min (s.len .blob) 24 ∧ t.len .ad = min (s.len .blob - 24) 32 ∧
      t.len .ct = s.len .blob - 56) ∧
    (s.len .blob = 0 → exec .build s = .next { s with err := .input }) ∧
    (s.len .frame = 0 →
      exec .scan s = .next { s with err := .sentinelNotFound, fsm := .scanningStart, scanPos := 0 }) ∧
    (s.len .frame = 0 → exec .embed s = .next { s with err := .input }) ∧
    (s.len .frame ≠ 0 → s.npix = 0 → exec .embed s = .next { s with err := .capacity }) ∧
    (s.npix = 0 → exec .extract s = .next { s with err := .sentinelNotFound, fsm := .scanningStart, scanPos := 0 })

/-- R24, R186: no command depends on the code an earlier one left: it runs normally and overwrites it. -/
def Obligations.AnEarlierErrorDoesNotMatter : Prop :=
  ∀ (i : Instr) (s : State) (e : ErrorKind), exec i { s with err := e } = exec i s

/-- R210: IMG_W and IMG_H enter every command through their product alone. -/
def Obligations.OnlyThePixelCountMatters : Prop :=
  ∀ (i : Instr) (s t : State) (w h : Word), w.toNat * h.toNat = s.npix → exec i s = .next t →
    exec i { s with imgW := w, imgH := h } = .next { t with imgW := w, imgH := h }
end

