-- ==== Sys2Proof/Laws/Memory.lean ====
section
/-! SUPPORT. What the memory operations do, read byte by byte, and that each keeps the canonical form and the bounds. The reading laws
hold of every list of cells, canonical or not. -/

namespace Sys2Proof.Machine

/-! Reading after one write. -/

theorem Memory.read_filter (q : Nat → Bool) (m : Memory) (a : Nat) :
    Memory.read (m.filter (fun c => q c.1)) a = if q a then Memory.read m a else 0 := by
  induction m with
  | nil => simp [Memory.read]
  | cons c m ih =>
    by_cases hq : q c.1 <;> by_cases hc : c.1 = a <;> simp_all [Memory.read]

theorem Memory.read_insert (m : Memory) (a : Nat) (v : Byte) (b : Nat)
    (h : Memory.read m a = 0) : Memory.read (Memory.insert a v m) b = if b = a then v else Memory.read m b := by
  induction m with
  | nil => by_cases hb : a = b <;> simp [Memory.insert, Memory.read, hb, eq_comm]
  | cons c m ih =>
    unfold Memory.insert
    split
    · next hlt =>
      have hca : c.1 ≠ a := by omega
      have ih := ih (by simpa [Memory.read, hca] using h)
      by_cases hcb : c.1 = b
      · have : b ≠ a := by omega
        simp [Memory.read, hcb, this]
      · simp [Memory.read, hcb, ih]
    · by_cases hab : a = b
      · simp [Memory.read, hab]
      · simp [Memory.read, hab, eq_comm (a := b)]

/-- A byte read after one byte was written: the byte written there, else what was there before. -/
@[simp] theorem Memory.read_write (m : Memory) (a : Nat) (v : Byte) (b : Nat) :
    Memory.read (Memory.write m a v) b = if b = a then v else Memory.read m b := by
  have hf : ∀ x, Memory.read (m.filter (fun c => decide (c.1 ≠ a))) x = if x = a then 0 else Memory.read m x := by
    intro x
    rw [Memory.read_filter (fun n => decide (n ≠ a))]
    by_cases hx : x = a <;> simp [hx]
  unfold Memory.write
  split
  · next hv => rw [hf]; by_cases hb : b = a <;> simp [hb, hv]
  · rw [Memory.read_insert _ _ _ _ (by rw [hf]; simp), hf]
    by_cases hb : b = a <;> simp [hb]

@[simp] theorem Memory.read_clearBelow (m : Memory) (n a : Nat) :
    Memory.read (Memory.clearBelow m n) a = if n ≤ a then Memory.read m a else 0 := by
  unfold Memory.clearBelow
  rw [Memory.read_filter (fun x => decide (n ≤ x))]
  simp

/-! Reading and writing byte strings. -/

@[simp] theorem Memory.length_readBytes (m : Memory) (off n : Nat) : (Memory.readBytes m off n).length = n := by
  simp [Memory.readBytes]

theorem Memory.getElem_readBytes (m : Memory) (off n i : Nat) (h : i < (Memory.readBytes m off n).length) :
    (Memory.readBytes m off n)[i] = Memory.read m (off + i) := by
  simp [Memory.readBytes]

/-- A byte read after a byte string was written. -/
theorem Memory.read_writeBytes (m : Memory) (off : Nat) (v : List Byte) (a : Nat) :
    Memory.read (Memory.writeBytes m off v) a =
      if off ≤ a ∧ a < off + v.length then v.getD (a - off) 0 else Memory.read m a := by
  induction v generalizing m off with
  | nil => simp [Memory.writeBytes]
  | cons b bs ih =>
    simp only [Memory.writeBytes, ih, Memory.read_write, List.length_cons]
    by_cases h1 : a = off
    · subst h1; simp
    · by_cases h2 : off + 1 ≤ a ∧ a < off + 1 + bs.length
      · have h3 : off ≤ a ∧ a < off + (bs.length + 1) := by omega
        have h4 : a - off = (a - (off + 1)) + 1 := by omega
        simp [h2, h3, h4]
      · have h3 : ¬ (off ≤ a ∧ a < off + (bs.length + 1)) := by omega
        rw [if_neg h2, if_neg h3, if_neg h1]

/-- What was written is what is read back. -/
@[simp] theorem Memory.readBytes_writeBytes (m : Memory) (off : Nat) (v : List Byte) :
    Memory.readBytes (Memory.writeBytes m off v) off v.length = v := by
  apply List.ext_getElem
  · simp
  · intro i h1 h2
    rw [Memory.getElem_readBytes, Memory.read_writeBytes]
    simp [h2]

/-- Byte strings read equal where the bytes are equal. -/
theorem Memory.readBytes_congr {m m' : Memory} {off n : Nat}
    (h : ∀ i < n, Memory.read m (off + i) = Memory.read m' (off + i)) :
    Memory.readBytes m off n = Memory.readBytes m' off n := by
  unfold Memory.readBytes
  apply List.map_congr_left
  intro i hi
  exact h i (by simpa using hi)

/-- Clearing in one pass reads as writing that many zero bytes. -/
theorem Memory.read_clearBelow_eq_writeBytes (m : Memory) (n a : Nat) :
    Memory.read (Memory.clearBelow m n) a = Memory.read (Memory.writeBytes m 0 (List.replicate n 0)) a := by
  rw [Memory.read_clearBelow, Memory.read_writeBytes]
  by_cases h : n ≤ a
  · have : ¬ a < n := by omega
    simp [h, this]
  · have : a < n := by omega
    simp [h, this]

/-! The canonical form. -/

theorem Memory.wf_nil : Memory.wf [] := ⟨List.Pairwise.nil, fun c hc => by simp at hc⟩

theorem Memory.wf_filter {m : Memory} (h : Memory.wf m) (q : Host.Cell → Bool) : Memory.wf (m.filter q) :=
  ⟨h.1.filter q, fun c hc => h.2 c (List.mem_filter.mp hc).1⟩

theorem Memory.mem_insert {a : Nat} {v : Byte} {m : Memory} {c : Host.Cell} (h : c ∈ Memory.insert a v m) :
    c = (a, v) ∨ c ∈ m := by
  induction m with
  | nil => simpa [Memory.insert] using h
  | cons d m ih =>
    unfold Memory.insert at h
    split at h
    · rcases List.mem_cons.mp h with h | h
      · simp [h]
      · rcases ih h with h | h <;> simp [h]
    · simpa using h

theorem Memory.wf_insert {a : Nat} {v : Byte} {m : Memory} (h : Memory.wf m) (hv : v ≠ 0)
    (ha : ∀ c ∈ m, c.1 ≠ a) : Memory.wf (Memory.insert a v m) := by
  induction m with
  | nil => exact ⟨by simp [Memory.insert], fun c hc => by simp [Memory.insert] at hc; simp [hc]; exact hv⟩
  | cons c m ih =>
    obtain ⟨hp, hn⟩ := h
    have hp' := List.pairwise_cons.mp hp
    have hm : Memory.wf m := ⟨hp'.2, fun d hd => hn d (by simp [hd])⟩
    have hca := ha c (by simp)
    unfold Memory.insert
    split
    · next hlt =>
      have ih := ih hm (fun d hd => ha d (by simp [hd]))
      refine ⟨List.pairwise_cons.mpr ⟨fun d hd => ?_, ih.1⟩, fun d hd => ?_⟩
      · rcases Memory.mem_insert hd with rfl | hd
        · exact hlt
        · exact hp'.1 d hd
      · rcases List.mem_cons.mp hd with rfl | hd
        · exact hn _ (by simp)
        · exact ih.2 d hd
    · next hlt =>
      have hac : a < c.1 := by omega
      refine ⟨List.pairwise_cons.mpr ⟨fun d hd => ?_, hp⟩, fun d hd => ?_⟩
      · rcases List.mem_cons.mp hd with rfl | hd
        · exact hac
        · exact lt_trans hac (hp'.1 d hd)
      · rcases List.mem_cons.mp hd with rfl | hd
        · exact hv
        · exact hn d hd

/-- A write keeps the canonical form. -/
theorem Memory.wf_write {m : Memory} (h : Memory.wf m) (a : Nat) (v : Byte) : Memory.wf (Memory.write m a v) := by
  unfold Memory.write
  split
  · exact Memory.wf_filter h _
  · next hv => exact Memory.wf_insert (Memory.wf_filter h _) hv (fun c hc => by simpa using (List.mem_filter.mp hc).2)

theorem Memory.wf_writeBytes {m : Memory} (h : Memory.wf m) (off : Nat) (v : List Byte) :
    Memory.wf (Memory.writeBytes m off v) := by
  induction v generalizing m off with
  | nil => exact h
  | cons b bs ih => exact ih (Memory.wf_write h off b) (off + 1)

theorem Memory.wf_clearBelow {m : Memory} (h : Memory.wf m) (n : Nat) : Memory.wf (Memory.clearBelow m n) :=
  Memory.wf_filter h _

/-- A fold of single writes keeps the canonical form. -/
theorem Memory.wf_foldl_write {α : Type} (f : α → Nat) (g : Memory → α → Byte) (l : List α) {m : Memory} (h : Memory.wf m) :
    Memory.wf (l.foldl (fun m x => Memory.write m (f x) (g m x)) m) := by
  induction l generalizing m with
  | nil => exact h
  | cons x l ih => exact ih (Memory.wf_write h _ _)

theorem Memory.wf_ofCells (size : Nat) (cells : List Host.Cell) : Memory.wf (Memory.ofCells size cells) :=
  Memory.wf_foldl_write (α := Host.Cell) (fun c => c.1) (fun _ c => c.2) _ Memory.wf_nil

/-- A byte outside every cell reads as unlisted. -/
theorem Memory.read_eq_zero {m : Memory} {a : Nat} (h : ∀ c ∈ m, c.1 ≠ a) : Memory.read m a = 0 := by
  induction m with
  | nil => rfl
  | cons c m ih => simp [Memory.read, h c (by simp), ih (fun d hd => h d (by simp [hd]))]

/-- Equal memories are equal data: two canonical memories that read the same everywhere are the same list. -/
theorem Memory.ext {m m' : Memory} (h : Memory.wf m) (h' : Memory.wf m') (he : ∀ a, Memory.read m a = Memory.read m' a) :
    m = m' := by
  induction m generalizing m' with
  | nil =>
    cases m' with
    | nil => rfl
    | cons c m' => exact absurd (he c.1).symm (by simpa [Memory.read] using h'.2 c (by simp))
  | cons c m ih =>
    have hp := List.pairwise_cons.mp h.1
    cases m' with
    | nil => exact absurd (he c.1) (by simpa [Memory.read] using h.2 c (by simp))
    | cons c' m' =>
      have hp' := List.pairwise_cons.mp h'.1
      have key : ∀ {d : Host.Cell} {l : Memory}, (∀ e ∈ l, d.1 < e.1) → ∀ a < d.1, Memory.read (d :: l) a = 0 :=
        fun {d l} hl a ha => Memory.read_eq_zero (fun e he => by
          rcases List.mem_cons.mp he with rfl | he
          · omega
          · have := hl e he; omega)
      have h1 : c.1 = c'.1 := by
        rcases Nat.lt_trichotomy c.1 c'.1 with hlt | heq | hgt
        · have := he c.1
          rw [key hp'.1 _ hlt] at this
          exact absurd this (by simpa [Memory.read] using h.2 c (by simp))
        · exact heq
        · have := he c'.1
          rw [key hp.1 _ hgt] at this
          exact absurd this.symm (by simpa [Memory.read] using h'.2 c' (by simp))
      have h2 : c.2 = c'.2 := by simpa [Memory.read, h1] using he c.1
      have hcc : c = c' := Prod.ext h1 h2
      subst hcc
      congr 1
      apply ih ⟨hp.2, fun d hd => h.2 d (by simp [hd])⟩ ⟨hp'.2, fun d hd => h'.2 d (by simp [hd])⟩
      intro a
      by_cases hca : c.1 = a
      · rw [Memory.read_eq_zero (fun d hd => by have := hp.1 d hd; omega),
          Memory.read_eq_zero (fun d hd => by have := hp'.1 d hd; omega)]
      · simpa [Memory.read, hca] using he a

theorem Memory.clearBelow_idem (m : Memory) (n : Nat) :
    Memory.clearBelow (Memory.clearBelow m n) n = Memory.clearBelow m n := by
  simp [Memory.clearBelow, List.filter_filter]

/-! The bounds. -/

theorem Memory.within_write {m : Memory} {n : Nat} (h : Memory.within m n) {a : Nat} (ha : a < n) (v : Byte) :
    Memory.within (Memory.write m a v) n := by
  intro c hc
  unfold Memory.write at hc
  split at hc
  · exact h c (List.mem_filter.mp hc).1
  · rcases Memory.mem_insert hc with rfl | hc
    · exact ha
    · exact h c (List.mem_filter.mp hc).1

theorem Memory.within_writeBytes {m : Memory} {n : Nat} (h : Memory.within m n) {off : Nat} {v : List Byte}
    (hv : off + v.length ≤ n) : Memory.within (Memory.writeBytes m off v) n := by
  induction v generalizing m off with
  | nil => exact h
  | cons b bs ih =>
    rw [List.length_cons] at hv
    exact ih (Memory.within_write h (by omega) b) (by omega)

theorem Memory.within_clearBelow {m : Memory} {n : Nat} (h : Memory.within m n) (k : Nat) :
    Memory.within (Memory.clearBelow m k) n :=
  fun c hc => h c (List.mem_filter.mp hc).1

/-- A memory cleared up to its size is empty. -/
theorem Memory.clearBelow_eq_nil {m : Memory} {n : Nat} (h : Memory.within m n) : Memory.clearBelow m n = [] := by
  unfold Memory.clearBelow
  rw [List.filter_eq_nil_iff]
  intro c hc
  simpa using h c hc

theorem Memory.within_foldl_write {α : Type} (f : α → Nat) (g : Memory → α → Byte) (l : List α) {m : Memory} {n : Nat}
    (h : Memory.within m n) (hf : ∀ x ∈ l, f x < n) :
    Memory.within (l.foldl (fun m x => Memory.write m (f x) (g m x)) m) n := by
  induction l generalizing m with
  | nil => exact h
  | cons x l ih =>
    exact ih (Memory.within_write h (hf x (by simp)) _) (fun y hy => hf y (by simp [hy]))

theorem Memory.within_ofCells (size : Nat) (cells : List Host.Cell) : Memory.within (Memory.ofCells size cells) size :=
  Memory.within_foldl_write (α := Host.Cell) (fun c => c.1) (fun _ c => c.2) _ (fun c hc => by simp at hc)
    (fun c hc => by simpa using (List.mem_filter.mp hc).2)

/-- Folding single writes of pairwise different cells reads as those cells. -/
theorem Memory.read_foldl_cells (l : List Host.Cell) (h : l.Pairwise (fun c d => c.1 < d.1)) (m : Memory) (a : Nat) :
    Memory.read (l.foldl (fun m c => Memory.write m c.1 c.2) m) a =
      if ∃ c ∈ l, c.1 = a then Memory.read l a else Memory.read m a := by
  induction l generalizing m with
  | nil => simp
  | cons c l ih =>
    have hp := List.pairwise_cons.mp h
    rw [List.foldl_cons, ih hp.2]
    by_cases hca : c.1 = a
    · have hnone : ¬ ∃ d ∈ l, d.1 = a := by
        rintro ⟨d, hd, hda⟩
        have := hp.1 d hd
        omega
      simp [hnone, hca, Memory.read]
    · by_cases hex : ∃ d ∈ l, d.1 = a
      · have hex2 : ∃ d ∈ c :: l, d.1 = a := by
          obtain ⟨d, hd, hda⟩ := hex
          exact ⟨d, by simp [hd], hda⟩
        simp only [if_pos hex, if_pos hex2, Memory.read, if_neg hca]
      · have hex2 : ¬ ∃ d ∈ c :: l, d.1 = a := by
          rintro ⟨d, hd, hda⟩
          rcases List.mem_cons.mp hd with rfl | hd
          · exact hca hda
          · exact hex ⟨d, hd, hda⟩
        simp only [if_neg hex, if_neg hex2, Memory.read_write, if_neg (fun e => hca (Eq.symm e))]

/-- A canonical image that fits is what the reset input leaves in IMG. -/
theorem Memory.ofCells_eq {size : Nat} {m : Memory} (h : Memory.wf m) (hw : Memory.within m size) :
    Memory.ofCells size m = m := by
  apply Memory.ext (Memory.wf_ofCells size m) h
  intro a
  have hfil : m.filter (fun c => decide (c.1 < size)) = m := by
    rw [List.filter_eq_self]
    intro c hc
    simpa using hw c hc
  unfold Memory.ofCells
  rw [hfil, Memory.read_foldl_cells m h.1]
  split
  · rfl
  · next hno => exact (Memory.read_eq_zero (fun c hc he => hno ⟨c, hc, he⟩)).symm

end Sys2Proof.Machine
end

