-- ==== Sys2Proof/Laws/State.lean ====
section
/-! SUPPORT. One lemma per field per update of State, so that no proof unfolds a record update. -/

namespace Sys2Proof.Machine

variable (s : State)

/-! setBuf -/

@[simp] theorem State.buf_setBuf (b b' : Buf) (m : Memory) : (s.setBuf b m).buf b' = if b' = b then m else s.buf b' := by
  cases b <;> cases b' <;> rfl
@[simp] theorem State.lenReg_setBuf (b b' : Buf) (m : Memory) : (s.setBuf b m).lenReg b' = s.lenReg b' := by
  cases b <;> cases b' <;> rfl
@[simp] theorem State.params_setBuf (b : Buf) (m : Memory) : (s.setBuf b m).params = s.params := by cases b <;> rfl
@[simp] theorem State.script_setBuf (b : Buf) (m : Memory) : (s.setBuf b m).script = s.script := by cases b <;> rfl
@[simp] theorem State.reply_setBuf (b : Buf) (m : Memory) : (s.setBuf b m).reply = s.reply := by cases b <;> rfl
@[simp] theorem State.entropy_setBuf (b : Buf) (m : Memory) : (s.setBuf b m).entropy = s.entropy := by cases b <;> rfl
@[simp] theorem State.drawn_setBuf (b : Buf) (m : Memory) : (s.setBuf b m).drawn = s.drawn := by cases b <;> rfl
@[simp] theorem State.err_setBuf (b : Buf) (m : Memory) : (s.setBuf b m).err = s.err := by cases b <;> rfl
@[simp] theorem State.fsm_setBuf (b : Buf) (m : Memory) : (s.setBuf b m).fsm = s.fsm := by cases b <;> rfl
@[simp] theorem State.imgW_setBuf (b : Buf) (m : Memory) : (s.setBuf b m).imgW = s.imgW := by cases b <;> rfl
@[simp] theorem State.imgH_setBuf (b : Buf) (m : Memory) : (s.setBuf b m).imgH = s.imgH := by cases b <;> rfl
@[simp] theorem State.scanPos_setBuf (b : Buf) (m : Memory) : (s.setBuf b m).scanPos = s.scanPos := by cases b <;> rfl
@[simp] theorem State.img_setBuf (b : Buf) (m : Memory) : (s.setBuf b m).img = s.img := by cases b <;> rfl

/-! setLenReg -/

@[simp] theorem State.lenReg_setLenReg (b b' : Buf) (v : Word) :
    (s.setLenReg b v).lenReg b' = if b' = b then v else s.lenReg b' := by
  cases b <;> cases b' <;> rfl
@[simp] theorem State.buf_setLenReg (b b' : Buf) (v : Word) : (s.setLenReg b v).buf b' = s.buf b' := by
  cases b <;> cases b' <;> rfl
@[simp] theorem State.params_setLenReg (b : Buf) (v : Word) : (s.setLenReg b v).params = s.params := by cases b <;> rfl
@[simp] theorem State.script_setLenReg (b : Buf) (v : Word) : (s.setLenReg b v).script = s.script := by cases b <;> rfl
@[simp] theorem State.reply_setLenReg (b : Buf) (v : Word) : (s.setLenReg b v).reply = s.reply := by cases b <;> rfl
@[simp] theorem State.entropy_setLenReg (b : Buf) (v : Word) : (s.setLenReg b v).entropy = s.entropy := by cases b <;> rfl
@[simp] theorem State.drawn_setLenReg (b : Buf) (v : Word) : (s.setLenReg b v).drawn = s.drawn := by cases b <;> rfl
@[simp] theorem State.err_setLenReg (b : Buf) (v : Word) : (s.setLenReg b v).err = s.err := by cases b <;> rfl
@[simp] theorem State.fsm_setLenReg (b : Buf) (v : Word) : (s.setLenReg b v).fsm = s.fsm := by cases b <;> rfl
@[simp] theorem State.imgW_setLenReg (b : Buf) (v : Word) : (s.setLenReg b v).imgW = s.imgW := by cases b <;> rfl
@[simp] theorem State.imgH_setLenReg (b : Buf) (v : Word) : (s.setLenReg b v).imgH = s.imgH := by cases b <;> rfl
@[simp] theorem State.scanPos_setLenReg (b : Buf) (v : Word) : (s.setLenReg b v).scanPos = s.scanPos := by cases b <;> rfl
@[simp] theorem State.img_setLenReg (b : Buf) (v : Word) : (s.setLenReg b v).img = s.img := by cases b <;> rfl

/-! writing STATUS.ERR -/

@[simp] theorem State.buf_err (e : ErrorKind) (b : Buf) : State.buf { s with err := e } b = s.buf b := by cases b <;> rfl
@[simp] theorem State.lenReg_err (e : ErrorKind) (b : Buf) : State.lenReg { s with err := e } b = s.lenReg b := by cases b <;> rfl
@[simp] theorem State.len_err (e : ErrorKind) (b : Buf) : State.len { s with err := e } b = s.len b := by cases b <;> rfl
@[simp] theorem State.contents_err (e : ErrorKind) (b : Buf) : State.contents { s with err := e } b = s.contents b := by
  cases b <;> rfl
@[simp] theorem State.whole_err (e : ErrorKind) (b : Buf) : State.whole { s with err := e } b = s.whole b := by cases b <;> rfl
@[simp] theorem State.mem_err (e : ErrorKind) (x : Space) : State.mem { s with err := e } x = s.mem x := by
  rcases x with b | _
  · cases b <;> rfl
  · rfl
@[simp] theorem State.npix_err (e : ErrorKind) : State.npix { s with err := e } = s.npix := rfl
@[simp] theorem State.red_err (e : ErrorKind) (p : Nat) : State.red { s with err := e } p = s.red p := rfl
@[simp] theorem State.stream_err (e : ErrorKind) (n : Nat) : State.stream { s with err := e } n = s.stream n := rfl

/-! setScan -/

@[simp] theorem State.buf_setScan (n : Nat) (f : ScanState) (b : Buf) : (s.setScan n f).buf b = s.buf b := by cases b <;> rfl
@[simp] theorem State.lenReg_setScan (n : Nat) (f : ScanState) (b : Buf) : (s.setScan n f).lenReg b = s.lenReg b := by
  cases b <;> rfl
@[simp] theorem State.params_setScan (n : Nat) (f : ScanState) : (s.setScan n f).params = s.params := rfl
@[simp] theorem State.script_setScan (n : Nat) (f : ScanState) : (s.setScan n f).script = s.script := rfl
@[simp] theorem State.reply_setScan (n : Nat) (f : ScanState) : (s.setScan n f).reply = s.reply := rfl
@[simp] theorem State.entropy_setScan (n : Nat) (f : ScanState) : (s.setScan n f).entropy = s.entropy := rfl
@[simp] theorem State.drawn_setScan (n : Nat) (f : ScanState) : (s.setScan n f).drawn = s.drawn := rfl
@[simp] theorem State.fsm_setScan (n : Nat) (f : ScanState) : (s.setScan n f).fsm = f := rfl
@[simp] theorem State.scanPos_setScan (n : Nat) (f : ScanState) : (s.setScan n f).scanPos = BitVec.ofNat 32 n := rfl
@[simp] theorem State.imgW_setScan (n : Nat) (f : ScanState) : (s.setScan n f).imgW = s.imgW := rfl
@[simp] theorem State.imgH_setScan (n : Nat) (f : ScanState) : (s.setScan n f).imgH = s.imgH := rfl
@[simp] theorem State.img_setScan (n : Nat) (f : ScanState) : (s.setScan n f).img = s.img := rfl

/-! afterDraw -/

@[simp] theorem State.buf_afterDraw (n : Nat) (b : Buf) : (s.afterDraw n).buf b = s.buf b := by cases b <;> rfl
@[simp] theorem State.lenReg_afterDraw (n : Nat) (b : Buf) : (s.afterDraw n).lenReg b = s.lenReg b := by cases b <;> rfl
@[simp] theorem State.params_afterDraw (n : Nat) : (s.afterDraw n).params = s.params := rfl
@[simp] theorem State.script_afterDraw (n : Nat) : (s.afterDraw n).script = s.script := rfl
@[simp] theorem State.reply_afterDraw (n : Nat) : (s.afterDraw n).reply = s.reply := rfl
@[simp] theorem State.entropy_afterDraw (n : Nat) : (s.afterDraw n).entropy = s.entropy.drop n := rfl
@[simp] theorem State.drawn_afterDraw (n : Nat) : (s.afterDraw n).drawn = s.drawn + n := rfl
@[simp] theorem State.fsm_afterDraw (n : Nat) : (s.afterDraw n).fsm = s.fsm := rfl
@[simp] theorem State.scanPos_afterDraw (n : Nat) : (s.afterDraw n).scanPos = s.scanPos := rfl
@[simp] theorem State.imgW_afterDraw (n : Nat) : (s.afterDraw n).imgW = s.imgW := rfl
@[simp] theorem State.imgH_afterDraw (n : Nat) : (s.afterDraw n).imgH = s.imgH := rfl
@[simp] theorem State.img_afterDraw (n : Nat) : (s.afterDraw n).img = s.img := rfl

/-! setting IMG -/

@[simp] theorem State.mem_buf (b : Buf) : s.mem (.buf b) = s.buf b := rfl
@[simp] theorem State.mem_img : s.mem .img = s.img := rfl
@[simp] theorem State.setMem_buf (b : Buf) (m : Memory) : s.setMem (.buf b) m = s.setBuf b m := rfl
@[simp] theorem State.img_setImg (m : Memory) : (s.setMem .img m).img = m := rfl
@[simp] theorem State.buf_setImg (m : Memory) (b : Buf) : (s.setMem .img m).buf b = s.buf b := by cases b <;> rfl
@[simp] theorem State.lenReg_setImg (m : Memory) (b : Buf) : (s.setMem .img m).lenReg b = s.lenReg b := by cases b <;> rfl
@[simp] theorem State.params_setImg (m : Memory) : (s.setMem .img m).params = s.params := rfl
@[simp] theorem State.script_setImg (m : Memory) : (s.setMem .img m).script = s.script := rfl
@[simp] theorem State.reply_setImg (m : Memory) : (s.setMem .img m).reply = s.reply := rfl
@[simp] theorem State.entropy_setImg (m : Memory) : (s.setMem .img m).entropy = s.entropy := rfl
@[simp] theorem State.drawn_setImg (m : Memory) : (s.setMem .img m).drawn = s.drawn := rfl
@[simp] theorem State.fsm_setImg (m : Memory) : (s.setMem .img m).fsm = s.fsm := rfl
@[simp] theorem State.scanPos_setImg (m : Memory) : (s.setMem .img m).scanPos = s.scanPos := rfl
@[simp] theorem State.imgW_setImg (m : Memory) : (s.setMem .img m).imgW = s.imgW := rfl
@[simp] theorem State.imgH_setImg (m : Memory) : (s.setMem .img m).imgH = s.imgH := rfl

/-- Reading back a space after one was replaced. -/
theorem State.mem_setMem (x y : Space) (m : Memory) : (s.setMem x m).mem y = if y = x then m else s.mem y := by
  rcases x with b | _ <;> rcases y with c | _ <;> simp

/-- Replacing a space leaves every register alone. -/
theorem State.registersKept_setMem (x : Space) (m : Memory) : registersKept s (s.setMem x m) := by
  rcases x with b | _
  · exact ⟨by simp, by simp, by simp, by simp, by simp, by simp⟩
  · exact ⟨rfl, rfl, rfl, rfl, rfl, by simp⟩

@[simp] theorem State.params_setMem (x : Space) (m : Memory) : (s.setMem x m).params = s.params := by
  rcases x with b | _ <;> simp
@[simp] theorem State.script_setMem (x : Space) (m : Memory) : (s.setMem x m).script = s.script := by
  rcases x with b | _ <;> simp
@[simp] theorem State.reply_setMem (x : Space) (m : Memory) : (s.setMem x m).reply = s.reply := by
  rcases x with b | _ <;> simp
@[simp] theorem State.entropy_setMem (x : Space) (m : Memory) : (s.setMem x m).entropy = s.entropy := by
  rcases x with b | _ <;> simp
@[simp] theorem State.drawn_setMem (x : Space) (m : Memory) : (s.setMem x m).drawn = s.drawn := by
  rcases x with b | _ <;> simp

/-! accept -/

@[simp] theorem State.buf_accept (rest : List HostEvent) (b : Buf) : (s.accept rest).buf b = s.buf b := by cases b <;> rfl
@[simp] theorem State.lenReg_accept (rest : List HostEvent) (b : Buf) : (s.accept rest).lenReg b = s.lenReg b := by cases b <;> rfl
@[simp] theorem State.params_accept (rest : List HostEvent) : (s.accept rest).params = s.params := rfl
@[simp] theorem State.img_accept (rest : List HostEvent) : (s.accept rest).img = s.img := rfl

/-! A state is its fields. -/

theorem State.ext_fields {s t : State} (hparams : t.params = s.params) (hscript : t.script = s.script) (hreply : t.reply = s.reply)
    (hentropy : t.entropy = s.entropy) (hdrawn : t.drawn = s.drawn) (herr : t.err = s.err) (hfsm : t.fsm = s.fsm)
    (hw : t.imgW = s.imgW) (hh : t.imgH = s.imgH) (hlen : ∀ b, t.lenReg b = s.lenReg b) (hpos : t.scanPos = s.scanPos)
    (hbuf : ∀ b, t.buf b = s.buf b) (himg : t.img = s.img) : t = s := by
  have l1 := hlen .pw; have l2 := hlen .nonce; have l3 := hlen .ad; have l4 := hlen .key
  have l5 := hlen .pt; have l6 := hlen .ct; have l7 := hlen .blob; have l8 := hlen .frame
  have b1 := hbuf .pw; have b2 := hbuf .nonce; have b3 := hbuf .ad; have b4 := hbuf .key
  have b5 := hbuf .pt; have b6 := hbuf .ct; have b7 := hbuf .blob; have b8 := hbuf .frame
  cases s; cases t
  simp_all [State.lenReg, State.buf]

end Sys2Proof.Machine
end

