-- ==== Sys2Proof/Laws/Operations.lean ====
section
/-! SUPPORT. What the shared operations do, said once: `store`, `discard`, clearing every buffer, reading an operand, ending a command,
running one body after another. -/

namespace Sys2Proof.Machine

variable (s : State)

/-! store -/

@[simp] theorem State.buf_store (b b' : Buf) (v : List Byte) :
    (s.store b v).buf b' = if b' = b then Memory.writeBytes (s.buf b) 0 v else s.buf b' := by simp [State.store]
@[simp] theorem State.lenReg_store (b b' : Buf) (v : List Byte) :
    (s.store b v).lenReg b' = if b' = b then BitVec.ofNat 32 v.length else s.lenReg b' := by simp [State.store]
@[simp] theorem State.params_store (b : Buf) (v : List Byte) : (s.store b v).params = s.params := by simp [State.store]
@[simp] theorem State.script_store (b : Buf) (v : List Byte) : (s.store b v).script = s.script := by simp [State.store]
@[simp] theorem State.reply_store (b : Buf) (v : List Byte) : (s.store b v).reply = s.reply := by simp [State.store]
@[simp] theorem State.entropy_store (b : Buf) (v : List Byte) : (s.store b v).entropy = s.entropy := by simp [State.store]
@[simp] theorem State.drawn_store (b : Buf) (v : List Byte) : (s.store b v).drawn = s.drawn := by simp [State.store]
@[simp] theorem State.err_store (b : Buf) (v : List Byte) : (s.store b v).err = s.err := by simp [State.store]
@[simp] theorem State.fsm_store (b : Buf) (v : List Byte) : (s.store b v).fsm = s.fsm := by simp [State.store]
@[simp] theorem State.imgW_store (b : Buf) (v : List Byte) : (s.store b v).imgW = s.imgW := by simp [State.store]
@[simp] theorem State.imgH_store (b : Buf) (v : List Byte) : (s.store b v).imgH = s.imgH := by simp [State.store]
@[simp] theorem State.scanPos_store (b : Buf) (v : List Byte) : (s.store b v).scanPos = s.scanPos := by simp [State.store]
@[simp] theorem State.img_store (b : Buf) (v : List Byte) : (s.store b v).img = s.img := by simp [State.store]

/-! discard -/

@[simp] theorem State.buf_discard (b b' : Buf) :
    (s.discard b).buf b' = if b' = b then Memory.clearBelow (s.buf b) (bufSize s.params b) else s.buf b' := by
  simp [State.discard]
@[simp] theorem State.lenReg_discard (b b' : Buf) : (s.discard b).lenReg b' = if b' = b then 0 else s.lenReg b' := by
  simp [State.discard]
@[simp] theorem State.params_discard (b : Buf) : (s.discard b).params = s.params := by simp [State.discard]
@[simp] theorem State.script_discard (b : Buf) : (s.discard b).script = s.script := by simp [State.discard]
@[simp] theorem State.reply_discard (b : Buf) : (s.discard b).reply = s.reply := by simp [State.discard]
@[simp] theorem State.entropy_discard (b : Buf) : (s.discard b).entropy = s.entropy := by simp [State.discard]
@[simp] theorem State.drawn_discard (b : Buf) : (s.discard b).drawn = s.drawn := by simp [State.discard]
@[simp] theorem State.err_discard (b : Buf) : (s.discard b).err = s.err := by simp [State.discard]
@[simp] theorem State.fsm_discard (b : Buf) : (s.discard b).fsm = s.fsm := by simp [State.discard]
@[simp] theorem State.imgW_discard (b : Buf) : (s.discard b).imgW = s.imgW := by simp [State.discard]
@[simp] theorem State.imgH_discard (b : Buf) : (s.discard b).imgH = s.imgH := by simp [State.discard]
@[simp] theorem State.scanPos_discard (b : Buf) : (s.discard b).scanPos = s.scanPos := by simp [State.discard]
@[simp] theorem State.img_discard (b : Buf) : (s.discard b).img = s.img := by simp [State.discard]

/-! Clearing every buffer, as CLR does (45_system.md R173). -/

/-- What clearing a list of buffers leaves, one buffer at a time. -/
theorem State.buf_foldl_discard (l : List Buf) (t : State) (b : Buf) : (l.foldl State.discard t).buf b =
    if b ∈ l then Memory.clearBelow (t.buf b) (bufSize t.params b) else t.buf b := by
  induction l generalizing t with
  | nil => simp
  | cons c l ih =>
    rw [List.foldl_cons, ih]
    by_cases hbc : b = c
    · subst hbc
      by_cases hl : b ∈ l
      · simp only [hl, List.mem_cons, or_true, if_true, State.buf_discard, State.params_discard]
        exact Memory.clearBelow_idem _ _
      · simp [hl]
    · by_cases hl : b ∈ l <;> simp [hl, hbc]

theorem State.lenReg_foldl_discard (l : List Buf) (t : State) (b : Buf) : (l.foldl State.discard t).lenReg b =
    if b ∈ l then 0 else t.lenReg b := by
  induction l generalizing t with
  | nil => simp
  | cons c l ih =>
    rw [List.foldl_cons, ih]
    by_cases hbc : b = c <;> by_cases hl : b ∈ l <;> simp [hl, hbc]

theorem mem_allBufs (b : Buf) : b ∈ allBufs := by cases b <;> decide

theorem mem_allSpaces (x : Space) : x ∈ allSpaces := by
  rcases x with b | _
  · cases b <;> decide
  · decide

@[simp] theorem State.buf_clearAll (b : Buf) :
    (allBufs.foldl State.discard s).buf b = Memory.clearBelow (s.buf b) (bufSize s.params b) := by
  rw [State.buf_foldl_discard]; simp [mem_allBufs]
@[simp] theorem State.lenReg_clearAll (b : Buf) : (allBufs.foldl State.discard s).lenReg b = 0 := by
  rw [State.lenReg_foldl_discard]; simp [mem_allBufs]
@[simp] theorem State.params_clearAll : (allBufs.foldl State.discard s).params = s.params := by simp [allBufs]
@[simp] theorem State.script_clearAll : (allBufs.foldl State.discard s).script = s.script := by simp [allBufs]
@[simp] theorem State.reply_clearAll : (allBufs.foldl State.discard s).reply = s.reply := by simp [allBufs]
@[simp] theorem State.entropy_clearAll : (allBufs.foldl State.discard s).entropy = s.entropy := by simp [allBufs]
@[simp] theorem State.drawn_clearAll : (allBufs.foldl State.discard s).drawn = s.drawn := by simp [allBufs]
@[simp] theorem State.err_clearAll : (allBufs.foldl State.discard s).err = s.err := by simp [allBufs]
@[simp] theorem State.fsm_clearAll : (allBufs.foldl State.discard s).fsm = s.fsm := by simp [allBufs]
@[simp] theorem State.imgW_clearAll : (allBufs.foldl State.discard s).imgW = s.imgW := by simp [allBufs]
@[simp] theorem State.imgH_clearAll : (allBufs.foldl State.discard s).imgH = s.imgH := by simp [allBufs]
@[simp] theorem State.scanPos_clearAll : (allBufs.foldl State.discard s).scanPos = s.scanPos := by simp [allBufs]
@[simp] theorem State.img_clearAll : (allBufs.foldl State.discard s).img = s.img := by simp [allBufs]

/-! Operands. -/

@[simp] theorem State.length_contents (b : Buf) : (s.contents b).length = s.len b := by simp [State.contents]
@[simp] theorem State.length_whole (b : Buf) : (s.whole b).length = bufSize s.params b := by simp [State.whole]
@[simp] theorem State.length_drawBytes (n : Nat) : (s.drawBytes n).length = n := by simp [State.drawBytes]

@[simp] theorem State.present_iff (b : Buf) : s.present b = true ↔ s.len b = bufSize s.params b := by simp [State.present]

/-- A present fixed-size operand is the whole buffer. -/
theorem State.whole_eq_contents {s : State} {b : Buf} (h : s.len b = bufSize s.params b) : s.whole b = s.contents b := by
  simp [State.whole, State.contents, h]

/-- A supplied answer is the answer drawn (45_system.md R171). -/
theorem State.getElem_drawBytes (n i : Nat) (h : i < n) (b : Byte) (hb : s.entropy[i]? = some b) :
    (s.drawBytes n)[i]? = some b := by
  simp [State.drawBytes, h, hb]

/-- What a state reads from a buffer depends on its length register and its bytes alone. -/
theorem sameBuffer.contents_eq {b : Buf} {s t : State} (h : sameBuffer b s t) : t.contents b = s.contents b := by
  have hl : t.len b = s.len b := by rw [State.len, h.1, State.len]
  rw [State.contents, hl, State.contents]
  exact Memory.readBytes_congr (fun i _ => h.2 _)

theorem sameBuffer.len_eq {b : Buf} {s t : State} (h : sameBuffer b s t) : t.len b = s.len b := by
  rw [State.len, h.1, State.len]

theorem sameBuffer.whole_eq {b : Buf} {s t : State} (h : sameBuffer b s t) (hp : t.params = s.params) : t.whole b = s.whole b := by
  rw [State.whole, hp, State.whole]
  exact Memory.readBytes_congr (fun i _ => h.2 _)

/-- Equal storage is the same buffer. -/
theorem sameBuffer.of_eq {b : Buf} {s t : State} (hl : t.lenReg b = s.lenReg b) (hb : t.buf b = s.buf b) : sameBuffer b s t :=
  ⟨hl, fun a => by simp [hb]⟩

/-- What `store` leaves in a buffer is what was given to it (20_memory.md R59). -/
theorem delivered.of_write {b : Buf} {v : List Byte} {s t : State} (hv : v.length < 2 ^ 32)
    (hl : t.lenReg b = BitVec.ofNat 32 v.length) (hb : t.buf b = Memory.writeBytes (s.buf b) 0 v) : delivered b v s t := by
  have hlen : t.len b = v.length := by
    rw [State.len, hl, BitVec.toNat_ofNat, Nat.mod_eq_of_lt hv]
  refine ⟨hlen, ?_, fun a ha => ?_⟩
  · rw [State.contents, hlen, hb]
    exact Memory.readBytes_writeBytes _ 0 v
  · rw [hb, Memory.read_writeBytes, if_neg (by omega)]

/-! The end of a command, and one step of a composite after another. -/

@[simp] theorem finish_next (r : CmdResult) (t : State) : finish r = .next t ↔ t = { r.state with err := r.err } := by
  simp [finish, eq_comm]

/-- A composite's step runs only when the steps before it succeeded (44_composite.md R162). -/
theorem CmdResult.andThen_cases (r : CmdResult) (f : State → CmdResult) :
    (r.err = .success ∧ r.andThen f = f r.state) ∨ (r.err ≠ .success ∧ r.andThen f = r) := by
  unfold CmdResult.andThen
  by_cases h : r.err = .success <;> simp [h]

@[simp] theorem andThen_complete (t : State) (f : State → CmdResult) : (complete t).andThen f = f t := by
  simp [CmdResult.andThen, complete]

theorem CmdResult.andThen_failed {r : CmdResult} (h : r.err ≠ .success) (f : State → CmdResult) : r.andThen f = r := by
  simp [CmdResult.andThen, h]

end Sys2Proof.Machine
end

