-- ==== Sys2Proof/Laws/Bits.lean ====
section
/-! SUPPORT. The bit-plane functions: bits of a byte string, bytes of parities, the parity adjuster, and the loop over the pixels
(43_bitplane.md). -/

namespace Sys2Proof.Machine

/-! Bits of bytes (43_bitplane.md R141). -/

@[simp] theorem length_byteBits (b : Byte) : (byteBits b).length = 8 := by simp [byteBits]

@[simp] theorem length_expand (f : List Byte) : (expand f).length = 8 * f.length := by
  induction f with
  | nil => rfl
  | cons b f ih =>
    have : expand (b :: f) = byteBits b ++ expand f := rfl
    rw [this, List.length_append, ih, length_byteBits, List.length_cons]; omega

/-- Bit number `i` of the stream is bit `7 - i mod 8` of byte `i / 8` (20_memory.md R53). -/
theorem getElem?_expand (f : List Byte) (i : Nat) (h : i < 8 * f.length) : (expand f)[i]? = some (streamBit f i) := by
  induction f generalizing i with
  | nil => simp at h
  | cons b f ih =>
    have he : expand (b :: f) = byteBits b ++ expand f := rfl
    rw [he]
    by_cases hi : i < 8
    · rw [List.getElem?_append_left (by simpa using hi)]
      have h0 : i / 8 = 0 := by omega
      have h1 : i % 8 = i := by omega
      simp [byteBits, streamBit, h0, h1, hi]
    · rw [List.getElem?_append_right (by simpa using hi), length_byteBits, ih _ (by simp only [List.length_cons] at h; omega)]
      have h0 : i / 8 = (i - 8) / 8 + 1 := by omega
      have h1 : (i - 8) % 8 = i % 8 := by omega
      simp [streamBit, h0, h1]

theorem getD_expand (f : List Byte) (i : Nat) (h : i < 8 * f.length) : (expand f).getD i false = streamBit f i := by
  simp [getElem?_expand f i h]

/-! Parity (00_scope.md R10). -/

theorem parity_eq (v : Byte) : parity v = decide (v.toNat % 2 = 1) := by
  simp [parity, BitVec.getLsbD, Nat.testBit_zero]

theorem parity_toNat (v : Byte) : (parity v).toNat = v.toNat % 2 := by
  rw [parity_eq]
  rcases Nat.mod_two_eq_zero_or_one v.toNat with h | h <;> simp [h]

theorem parity_congr {v w : Byte} (h : v.toNat % 2 = w.toNat % 2) : parity v = parity w := by
  rw [parity_eq, parity_eq, h]

/-! The parity adjuster (43_bitplane.md R142). -/

/-- The adjuster by cases, on numbers: the minimal-change rule. -/
theorem toNat_adjust (v : Byte) (b : Bool) : (adjust v b).toNat =
    if b then (if v.toNat % 2 = 1 then v.toNat else if v.toNat = 0 then 1 else v.toNat - 1)
    else (if v.toNat % 2 = 0 then v.toNat else if v.toNat = 255 then 254 else v.toNat + 1) := by
  have hv := v.isLt
  have hz : v = 0 ↔ v.toNat = 0 := by rw [← BitVec.toNat_inj]; rfl
  have hm : v = 255 ↔ v.toNat = 255 := by rw [← BitVec.toNat_inj]; rfl
  unfold adjust
  rw [parity_eq]
  simp only [decide_eq_true_eq, hz, hm]
  have h1' : (1 : Byte).toNat = 1 := rfl
  cases b
  · simp only [Bool.false_eq_true, if_false]
    by_cases h1 : v.toNat % 2 = 1
    · rw [if_pos h1, if_neg (show ¬ v.toNat % 2 = 0 by omega)]
      split
      · rfl
      · rw [BitVec.toNat_add, h1']; omega
    · rw [if_neg h1, if_pos (show v.toNat % 2 = 0 by omega)]
  · simp only [if_true]
    by_cases h1 : v.toNat % 2 = 1
    · rw [if_pos h1, if_pos h1]
    · rw [if_neg h1, if_neg h1]
      split
      · rfl
      · rw [BitVec.toNat_sub, h1']; omega

/-- The adjusted value carries the bit. -/
theorem adjust_parity (v : Byte) (b : Bool) : (adjust v b).toNat % 2 = b.toNat := by
  have hv := v.isLt
  rw [toNat_adjust]
  cases b <;> simp only [Bool.toNat_true, Bool.toNat_false, if_true, Bool.false_eq_true, if_false] <;> split_ifs <;> omega

/-- The adjusted value is at most one away. -/
theorem adjust_near (v : Byte) (b : Bool) : (adjust v b).toNat ≤ v.toNat + 1 ∧ v.toNat ≤ (adjust v b).toNat + 1 := by
  have hv := v.isLt
  rw [toNat_adjust]
  cases b <;> simp only [if_true, Bool.false_eq_true, if_false] <;> split_ifs <;> omega

/-! Parities to bytes (43_bitplane.md R150). -/

/-- A packed byte as a number. -/
theorem toNat_packByte (bit : Nat → Bool) :
    (packByte bit).toNat = ((List.range 8).map (fun k => (bit k).toNat * 2 ^ (7 - k))).sum := by
  unfold packByte
  rw [BitVec.toNat_ofNat, Nat.mod_eq_of_lt]
  have h : ∀ k, (bit k).toNat ≤ 1 := fun k => Bool.toNat_le (bit k)
  have h0 := h 0; have h1 := h 1; have h2 := h 2; have h3 := h 3
  have h4 := h 4; have h5 := h 5; have h6 := h 6; have h7 := h 7
  simp only [List.range_succ, List.range_zero, List.nil_append, List.map_append, List.map_cons, List.map_nil,
    List.sum_append, List.sum_cons, List.sum_nil]
  omega

theorem packByte_congr {f g : Nat → Bool} (h : ∀ k < 8, f k = g k) : packByte f = packByte g := by
  unfold packByte
  congr 2
  apply List.map_congr_left
  intro k hk
  rw [h k (by simpa using hk)]

/-- The bits of a byte pack to that byte. -/
theorem packByte_bits (b : Byte) : packByte (fun k => b.getLsbD (7 - k)) = b := by
  have : ∀ b : Byte, packByte (fun k => b.getLsbD (7 - k)) = b := by decide +revert
  exact this b

@[simp] theorem length_streamAt (stride : Nat) (m : Memory) (n : Nat) : (streamAt stride m n).length = n / 8 := by
  simp [streamAt]

@[simp] theorem State.length_stream (s : State) (n : Nat) : (s.stream n).length = n / 8 := length_streamAt _ _ _

theorem getD_streamAt (stride : Nat) (m : Memory) (n j : Nat) (h : j < n / 8) :
    (streamAt stride m n).getD j 0 = packByte (fun k => parity (redAt stride m (8 * j + k))) := by
  simp [streamAt, h]

/-- The stream depends on the image through the red parities alone. -/
theorem streamAt_congr {stride stride' : Nat} {m m' : Memory} {n : Nat}
    (h : ∀ p < n, parity (redAt stride m p) = parity (redAt stride' m' p)) : streamAt stride m n = streamAt stride' m' n := by
  unfold streamAt
  apply List.map_congr_left
  intro j hj
  have hj : j < n / 8 := by simpa using hj
  exact packByte_congr (fun k hk => h _ (by omega))

/-! The loop of EMBED (43_bitplane.md R143). -/

theorem embedPixels_succ (stride : Nat) (bits : List Bool) (m : Memory) (n : Nat) :
    embedPixels stride bits m (n + 1) = embedPixel stride bits (embedPixels stride bits m n) n := by
  simp [embedPixels, List.range_succ]

/-- A byte that is no visited pixel's red byte is left alone. -/
theorem read_embedPixels_other (stride : Nat) (bits : List Bool) (m : Memory) (n a : Nat) (h : ∀ p < n, a ≠ p * stride) :
    Memory.read (embedPixels stride bits m n) a = Memory.read m a := by
  induction n with
  | zero => rfl
  | succ n ih =>
    rw [embedPixels_succ]
    unfold embedPixel setRedAt
    rw [Memory.read_write, redOffset, if_neg (h n (by omega))]
    exact ih (fun p hp => h p (by omega))

/-- A visited pixel carries its bit, adjusted from its own old value. -/
theorem redAt_embedPixels {stride : Nat} (hs : 1 ≤ stride) (bits : List Bool) (m : Memory) (n p : Nat) (h : p < n) :
    redAt stride (embedPixels stride bits m n) p = adjust (redAt stride m p) (bits.getD (p % bits.length) false) := by
  induction n with
  | zero => omega
  | succ n ih =>
    rw [embedPixels_succ]
    unfold embedPixel setRedAt redAt
    rw [Memory.read_write, redOffset, redOffset]
    by_cases hp : p = n
    · subst hp
      rw [if_pos rfl, read_embedPixels_other]
      intro q hq he
      have := Nat.eq_of_mul_eq_mul_right hs he
      omega
    · rw [if_neg (fun he => hp (Nat.eq_of_mul_eq_mul_right hs he))]
      exact ih (by omega)

theorem wf_embedPixels {stride : Nat} {bits : List Bool} {m : Memory} (h : Memory.wf m) (n : Nat) :
    Memory.wf (embedPixels stride bits m n) :=
  Memory.wf_foldl_write (fun p => redOffset stride p)
    (fun m p => adjust (redAt stride m p) (bits.getD (p % bits.length) false)) _ h

theorem within_embedPixels {stride : Nat} {bits : List Bool} {m : Memory} {size : Nat} (h : Memory.within m size) (n : Nat)
    (hn : ∀ p < n, p * stride < size) : Memory.within (embedPixels stride bits m n) size :=
  Memory.within_foldl_write (fun p => redOffset stride p)
    (fun m p => adjust (redAt stride m p) (bits.getD (p % bits.length) false)) _ h
    (fun p hp => hn p (by simpa using hp))

end Sys2Proof.Machine
end

