-- ==== Sys2Proof/Laws/Scanner.lean ====
section
/-! SUPPORT. The scanner: where a sentinel first stands, what a scan answers, and the bounds of what it answers (42_frame.md R130). -/

namespace Sys2Proof.Machine

theorem length_startSentinel : startSentinel.length = 6 := rfl
theorem length_endSentinel : endSentinel.length = 6 := rfl

/-- A six-byte pattern stands at an offset when the bytes from there on begin with it. -/
theorem standsAt_iff_prefix {pat : List Byte} (hp : pat.length = 6) (B : List Byte) (i : Nat) :
    standsAt pat B i ↔ pat <+: B.drop i := by
  unfold standsAt
  rw [List.prefix_iff_eq_take, hp]
  constructor
  · rintro ⟨_, h⟩; exact h.symm
  · intro h
    refine ⟨?_, h.symm⟩
    have := congrArg List.length h
    simp only [hp, List.length_take, List.length_drop] at this
    omega

theorem standsAt.bound {pat B : List Byte} {i : Nat} (h : standsAt pat B i) : i + 6 ≤ B.length := h.1

/-- The first index is a place where the pattern stands, and the least one. -/
theorem firstIndex_some {pat : List Byte} (hp : pat.length = 6) {B : List Byte} {i : Nat} (h : firstIndex pat B = some i) :
    standsAt pat B i ∧ ∀ j < i, ¬ standsAt pat B j := by
  simp only [standsAt_iff_prefix hp]
  induction B generalizing i with
  | nil =>
    unfold firstIndex at h
    split at h
    · next hpre =>
      cases h
      exact ⟨by simpa using List.isPrefixOf_iff_prefix.mp hpre, fun j hj => by omega⟩
    · cases h
  | cons b bs ih =>
    unfold firstIndex at h
    split at h
    · next hpre =>
      cases h
      exact ⟨by simpa using List.isPrefixOf_iff_prefix.mp hpre, fun j hj => by omega⟩
    · next hpre =>
      simp only [Option.map_eq_some_iff] at h
      obtain ⟨k, hk, rfl⟩ := h
      obtain ⟨h1, h2⟩ := ih hk
      refine ⟨by simpa using h1, fun j hj => ?_⟩
      cases j with
      | zero => simpa using fun h => hpre (List.isPrefixOf_iff_prefix.mpr h)
      | succ j => simpa using h2 j (by omega)

/-- No first index: the pattern stands nowhere. -/
theorem firstIndex_none {pat : List Byte} (hp : pat.length = 6) {B : List Byte} (h : firstIndex pat B = none) (i : Nat) :
    ¬ standsAt pat B i := by
  rw [standsAt_iff_prefix hp]
  induction B generalizing i with
  | nil =>
    unfold firstIndex at h
    split at h
    · cases h
    · next hpre => simpa using fun h => hpre (List.isPrefixOf_iff_prefix.mpr h)
  | cons b bs ih =>
    unfold firstIndex at h
    split at h
    · cases h
    · next hpre =>
      simp only [Option.map_eq_none_iff] at h
      cases i with
      | zero => simpa using fun h => hpre (List.isPrefixOf_iff_prefix.mpr h)
      | succ i => simpa using ih h i

/-- A place where the pattern stands, with none before it, is the first index. -/
theorem firstIndex_eq_some {pat : List Byte} (hp : pat.length = 6) {B : List Byte} {i : Nat} (h : standsAt pat B i)
    (hl : ∀ j < i, ¬ standsAt pat B j) : firstIndex pat B = some i := by
  cases hf : firstIndex pat B with
  | none => exact absurd h (firstIndex_none hp hf i)
  | some k =>
    obtain ⟨hk, hkl⟩ := firstIndex_some hp hf
    rcases Nat.lt_trichotomy i k with hlt | heq | hgt
    · exact absurd h (hkl i hlt)
    · rw [heq]
    · exact absurd hk (hl k hgt)

theorem firstIndex_eq_none {pat : List Byte} (hp : pat.length = 6) {B : List Byte} (h : ∀ i, ¬ standsAt pat B i) :
    firstIndex pat B = none := by
  cases hf : firstIndex pat B with
  | none => rfl
  | some k => exact absurd (firstIndex_some hp hf).1 (h k)

/-- Standing in what follows is standing further on. -/
theorem standsAt_drop {pat : List Byte} (hp : pat.length = 6) (B : List Byte) (n i : Nat) :
    standsAt pat (B.drop n) i ↔ standsAt pat B (n + i) := by
  rw [standsAt_iff_prefix hp, standsAt_iff_prefix hp, List.drop_drop]

/-- What a scan answers, in its three cases (42_frame.md R130). -/
theorem scanStream_cases (B : List Byte) :
    ((∀ i, ¬ standsAt startSentinel B i) ∧ scanStream B = ⟨.scanningStart, B.length, none⟩) ∨
    (∃ s, standsAt startSentinel B s ∧ (∀ i < s, ¬ standsAt startSentinel B i) ∧
      (((∀ i, s + 6 ≤ i → ¬ standsAt endSentinel B i) ∧ scanStream B = ⟨.collectingPayload, B.length, none⟩) ∨
       ∃ e, s + 6 ≤ e ∧ standsAt endSentinel B e ∧ (∀ i, s + 6 ≤ i → i < e → ¬ standsAt endSentinel B i) ∧
         scanStream B = ⟨.done, e + 6, some ((B.take e).drop (s + 6))⟩)) := by
  unfold scanStream
  cases hs : firstIndex startSentinel B with
  | none => exact Or.inl ⟨firstIndex_none length_startSentinel hs, rfl⟩
  | some s =>
    obtain ⟨h1, h2⟩ := firstIndex_some length_startSentinel hs
    refine Or.inr ⟨s, h1, h2, ?_⟩
    cases he : firstIndex endSentinel (B.drop (s + 6)) with
    | none =>
      left
      refine ⟨fun i hi hst => ?_, by simp [he]⟩
      refine firstIndex_none length_endSentinel he (i - (s + 6)) ?_
      rw [standsAt_drop length_endSentinel]
      rwa [show s + 6 + (i - (s + 6)) = i by omega]
    | some k =>
      right
      obtain ⟨h3, h4⟩ := firstIndex_some length_endSentinel he
      rw [standsAt_drop length_endSentinel] at h3
      refine ⟨s + 6 + k, by omega, h3, fun i hi hlt hst => ?_, ?_⟩
      · refine h4 (i - (s + 6)) (by omega) ?_
        rw [standsAt_drop length_endSentinel]
        rwa [show s + 6 + (i - (s + 6)) = i by omega]
      · simp only [he, ScanResult.mk.injEq, true_and, Option.some.injEq]
        rw [List.drop_take, Nat.add_sub_cancel_left]

/-- A scan consumes no more bytes than there are, and its payload leaves room for both sentinels. -/
theorem scanStream_bounds (B : List Byte) : (scanStream B).pos ≤ B.length ∧
    ∀ p, (scanStream B).payload = some p → p.length + 12 ≤ B.length ∧ (scanStream B).state = .done := by
  rcases scanStream_cases B with ⟨_, h⟩ | ⟨s, hs, _, ⟨_, h⟩ | ⟨e, h6, he, _, h⟩⟩ <;> rw [h]
  · exact ⟨le_rfl, fun p hp => nomatch hp⟩
  · exact ⟨le_rfl, fun p hp => nomatch hp⟩
  · have h1 := he.bound
    refine ⟨h1, fun p hp => ?_⟩
    cases hp
    refine ⟨?_, rfl⟩
    simp only [List.length_drop, List.length_take]
    omega

end Sys2Proof.Machine
end

