-- ==== Sys2Proof/Laws/Commands.lean ====
section
/-! SUPPORT. What each command's body can do: its cases, its frame, and that it keeps the invariant. Proofs cite these and do not unfold the
bodies. -/

namespace Sys2Proof.Machine

/-! Frames. -/

/-- What a body leaves alone: the buffers outside `ws`; the scanner's registers unless `sc`; IMG unless `im`, and even then every byte but the
red bytes below NPIX; the entropy source unless `en`; the image shape, the parameters and the port always. -/
structure Frame (ws : List Buf) (sc im en : Bool) (s t : State) : Prop where
  lenReg : ∀ b, b ∉ ws → t.lenReg b = s.lenReg b
  buf : ∀ b, b ∉ ws → t.buf b = s.buf b
  fsm : sc = false → t.fsm = s.fsm
  scanPos : sc = false → t.scanPos = s.scanPos
  img : im = false → t.img = s.img
  other : ∀ a, (∀ p < s.npix, a ≠ p * s.params.pixelStride) → Memory.read t.img a = Memory.read s.img a
  entropy : en = false → t.entropy = s.entropy
  drawn : en = false → t.drawn = s.drawn
  imgW : t.imgW = s.imgW
  imgH : t.imgH = s.imgH
  params : t.params = s.params
  script : t.script = s.script
  reply : t.reply = s.reply

theorem Frame.refl (ws : List Buf) (sc im en : Bool) (s : State) : Frame ws sc im en s s := by
  constructor <;> intros <;> rfl

theorem Frame.npix {ws : List Buf} {sc im en : Bool} {s t : State} (h : Frame ws sc im en s t) : t.npix = s.npix := by
  simp only [State.npix, h.imgW, h.imgH]

/-- One frame after another. -/
theorem Frame.trans {ws : List Buf} {sc im en : Bool} {s t u : State} (h : Frame ws sc im en s t) (k : Frame ws sc im en t u) :
    Frame ws sc im en s u where
  lenReg b hb := (k.lenReg b hb).trans (h.lenReg b hb)
  buf b hb := (k.buf b hb).trans (h.buf b hb)
  fsm e := (k.fsm e).trans (h.fsm e)
  scanPos e := (k.scanPos e).trans (h.scanPos e)
  img e := (k.img e).trans (h.img e)
  other a ha := (k.other a (by rwa [h.npix, h.params])).trans (h.other a ha)
  entropy e := (k.entropy e).trans (h.entropy e)
  drawn e := (k.drawn e).trans (h.drawn e)
  imgW := k.imgW.trans h.imgW
  imgH := k.imgH.trans h.imgH
  params := k.params.trans h.params
  script := k.script.trans h.script
  reply := k.reply.trans h.reply

/-- A smaller frame is a larger one. -/
theorem Frame.mono {ws ws' : List Buf} {sc im en sc' im' en' : Bool} {s t : State} (h : Frame ws sc im en s t)
    (hw : ∀ b ∈ ws, b ∈ ws') (hs : sc' = false → sc = false) (hi : im' = false → im = false) (he : en' = false → en = false) :
    Frame ws' sc' im' en' s t where
  lenReg b hb := h.lenReg b (fun hm => hb (hw b hm))
  buf b hb := h.buf b (fun hm => hb (hw b hm))
  fsm e := h.fsm (hs e)
  scanPos e := h.scanPos (hs e)
  img e := h.img (hi e)
  other := h.other
  entropy e := h.entropy (he e)
  drawn e := h.drawn (he e)
  imgW := h.imgW
  imgH := h.imgH
  params := h.params
  script := h.script
  reply := h.reply

/-- STATUS.ERR is in no frame: writing it last changes none. -/
theorem Frame.setErr {ws : List Buf} {sc im en : Bool} {s t : State} (h : Frame ws sc im en s t) (e : ErrorKind) :
    Frame ws sc im en s { t with err := e } where
  lenReg b hb := (State.lenReg_err t e b).trans (h.lenReg b hb)
  buf b hb := (State.buf_err t e b).trans (h.buf b hb)
  fsm := h.fsm
  scanPos := h.scanPos
  img := h.img
  other := h.other
  entropy := h.entropy
  drawn := h.drawn
  imgW := h.imgW
  imgH := h.imgH
  params := h.params
  script := h.script
  reply := h.reply

/-- Delivering an output touches its buffer alone. -/
theorem Frame.store (s : State) (b : Buf) (v : List Byte) : Frame [b] false false false s (s.store b v) := by
  constructor <;> intros <;> simp_all

/-- Discarding a buffer touches that buffer alone. -/
theorem Frame.discard (s : State) (b : Buf) : Frame [b] false false false s (s.discard b) := by
  constructor <;> intros <;> simp_all

/-- A buffer outside the frame is the same buffer. -/
theorem Frame.sameBuffer {ws : List Buf} {sc im en : Bool} {s t : State} (h : Frame ws sc im en s t) {b : Buf} (hb : b ∉ ws) :
    sameBuffer b s t :=
  sameBuffer.of_eq (h.lenReg b hb) (h.buf b hb)

theorem Frame.buffersKept {ws : List Buf} {sc im en : Bool} {s t : State} (h : Frame ws sc im en s t) : buffersKept ws s t :=
  fun _ hb => h.sameBuffer hb

theorem Frame.portKept {ws : List Buf} {sc im en : Bool} {s t : State} (h : Frame ws sc im en s t) : portKept s t :=
  ⟨h.params, h.script, h.reply⟩

theorem Frame.imageKept {ws : List Buf} {sc en : Bool} {s t : State} (h : Frame ws sc false en s t) : imageKept s t :=
  ⟨h.imgW, h.imgH, fun a => by simp only [State.mem_img, h.img rfl]⟩

theorem Frame.scannerKept {ws : List Buf} {im en : Bool} {s t : State} (h : Frame ws false im en s t) : scannerKept s t :=
  ⟨h.fsm rfl, h.scanPos rfl⟩

theorem Frame.entropyKept {ws : List Buf} {sc im : Bool} {s t : State} (h : Frame ws sc im false s t) : entropyKept s t :=
  ⟨h.entropy rfl, h.drawn rfl⟩

/-- A buffer untouched since an output was delivered to it still holds that output. -/
theorem delivered.after {ws : List Buf} {sc im en : Bool} {b : Buf} {v : List Byte} {s t u : State} (h : delivered b v s t)
    (k : Frame ws sc im en t u) (hb : b ∉ ws) : delivered b v s u := by
  have hs := k.sameBuffer hb
  refine ⟨hs.len_eq.trans h.1, hs.contents_eq.trans h.2.1, fun a ha => ?_⟩
  rw [k.buf b hb]; exact h.2.2 a ha

/-- An output delivered over a buffer that was untouched until then. -/
theorem delivered.before {ws : List Buf} {sc im en : Bool} {b : Buf} {v : List Byte} {s t u : State} (k : Frame ws sc im en s t)
    (hb : b ∉ ws) (h : delivered b v t u) : delivered b v s u :=
  ⟨h.1, h.2.1, fun a ha => by rw [h.2.2 a ha, k.buf b hb]⟩

theorem delivered.store (s : State) (b : Buf) {v : List Byte} (hv : v.length < 2 ^ 32) : delivered b v s (s.store b v) :=
  delivered.of_write hv (by simp) (by simp)

theorem delivered.setErr {b : Buf} {v : List Byte} {s t : State} (h : delivered b v s t) (e : ErrorKind) :
    delivered b v s { t with err := e } := by
  refine ⟨by simpa using h.1, by simpa using h.2.1, fun a ha => ?_⟩
  rw [State.buf_err]; exact h.2.2 a ha

/-! The cases of each body. -/

/-- GEN always completes (45_system.md R170). -/
theorem genBody_eq (s : State) : genBody s =
    complete (((s.afterDraw 56).store .nonce ((s.drawBytes 56).take 24)).store .ad ((s.drawBytes 56).drop 24)) := rfl

theorem deriveBody_cases (C : Crypto) (s : State) :
    ((s.len .pw = 0 ∨ s.len .nonce ≠ 24) ∧ deriveBody C s = raise s .keyDerivation) ∨
    (s.len .pw ≠ 0 ∧ s.len .nonce = 24 ∧ C.kdf s.params.keyBytes (s.contents .pw) (s.contents .nonce) = none ∧
      deriveBody C s = raise s .keyDerivation) ∨
    (s.len .pw ≠ 0 ∧ s.len .nonce = 24 ∧ ∃ k, C.kdf s.params.keyBytes (s.contents .pw) (s.contents .nonce) = some k ∧
      deriveBody C s = complete (s.store .key k.toList)) := by
  unfold deriveBody nonceBytes
  by_cases h1 : s.len .pw = 0
  · exact Or.inl ⟨Or.inl h1, by rw [if_pos h1]⟩
  · rw [if_neg h1]
    by_cases h2 : s.len .nonce = 24
    · rw [if_neg (not_not.mpr h2), State.whole_eq_contents (s := s) (b := .nonce) h2]
      cases hk : C.kdf s.params.keyBytes (s.contents .pw) (s.contents .nonce) with
      | none => exact Or.inr (Or.inl ⟨h1, h2, rfl, rfl⟩)
      | some k => exact Or.inr (Or.inr ⟨h1, h2, k, rfl, rfl⟩)
    · rw [if_pos h2]; exact Or.inl ⟨Or.inr h2, rfl⟩

/-- DERIVE where KDF gives a key, the key as a list. -/
theorem deriveBody_some (C : Crypto) {s : State} {k : List Byte} (hp : s.len .pw ≠ 0) (hn : s.len .nonce = 24)
    (h : (C.kdf s.params.keyBytes (s.contents .pw) (s.contents .nonce)).map Vector.toList = some k) :
    deriveBody C s = complete (s.store .key k) := by
  rcases deriveBody_cases C s with ⟨q, _⟩ | ⟨_, _, q, _⟩ | ⟨_, _, k', q, e⟩
  · exact absurd hn (q.resolve_left hp)
  · rw [q] at h; cases h
  · rw [q] at h
    simp only [Option.map_some, Option.some.injEq] at h
    rw [e, h]

/-- DERIVE where KDF gives none. -/
theorem deriveBody_none (C : Crypto) {s : State}
    (h : (C.kdf s.params.keyBytes (s.contents .pw) (s.contents .nonce)).map Vector.toList = none) :
    deriveBody C s = raise s .keyDerivation := by
  rcases deriveBody_cases C s with ⟨_, e⟩ | ⟨_, _, _, e⟩ | ⟨_, _, k', q, _⟩
  · exact e
  · exact e
  · rw [q] at h; cases h

theorem sealBody_cases (C : Crypto) (s : State) :
    ((s.len .pt = 0 ∨ s.len .key ≠ s.params.keyBytes ∨ s.len .nonce ≠ 24 ∨ s.len .ad ≠ 32) ∧ sealBody C s = raise s .input) ∨
    (s.len .pt ≠ 0 ∧ s.len .key = s.params.keyBytes ∧ s.len .nonce = 24 ∧ s.len .ad = 32 ∧
      sealBody C s = complete (s.store .ct
        (C.aeadSeal (s.contents .key) (s.contents .nonce) (s.contents .pt) (s.contents .ad)).toList)) := by
  unfold sealBody
  by_cases h1 : s.len .pt = 0
  · exact Or.inl ⟨Or.inl h1, by rw [if_pos h1]⟩
  · rw [if_neg h1]
    by_cases h2 : s.len .key = s.params.keyBytes ∧ s.len .nonce = 24 ∧ s.len .ad = 32
    · obtain ⟨a, b, c⟩ := h2
      refine Or.inr ⟨h1, a, b, c, ?_⟩
      rw [State.whole_eq_contents (s := s) (b := .key) a, State.whole_eq_contents (s := s) (b := .nonce) b,
        State.whole_eq_contents (s := s) (b := .ad) c]
      simp [State.present, a, b, c, bufSize, nonceBytes, adBytes]
    · left
      refine ⟨Or.inr (by omega), ?_⟩
      rw [if_pos]
      by_contra hc
      exact h2 (by simpa [bufSize, nonceBytes, adBytes, and_assoc] using hc)

theorem openBody_cases (C : Crypto) (s : State) :
    (s.len .key ≠ s.params.keyBytes ∧ openBody C s = raise s .input) ∨
    (s.len .key = s.params.keyBytes ∧ (s.len .nonce ≠ 24 ∨ s.len .ad ≠ 32 ∨ s.len .ct < 16) ∧
      openBody C s = raise s .authentication) ∨
    (s.len .key = s.params.keyBytes ∧ s.len .nonce = 24 ∧ s.len .ad = 32 ∧ 16 ≤ s.len .ct ∧
      ((C.aeadOpen (s.contents .key) (s.contents .nonce) (s.contents .ct) (s.contents .ad) = none ∧
          openBody C s = raise s .authentication) ∨
       ∃ p, C.aeadOpen (s.contents .key) (s.contents .nonce) (s.contents .ct) (s.contents .ad) = some p ∧
          openBody C s = complete (s.store .pt p.toList))) := by
  unfold openBody
  by_cases h1 : s.len .key = s.params.keyBytes
  · have hk : s.present .key = true := by simp [State.present, h1, bufSize]
    rw [if_neg (by simp [hk])]
    by_cases h2 : s.len .nonce = 24 ∧ s.len .ad = 32 ∧ 16 ≤ s.len .ct
    · obtain ⟨b, c, d⟩ := h2
      have hn : ¬ s.len .ct < tagBytes := by simp only [tagBytes]; omega
      rw [if_neg (by simp [State.present, b, c, bufSize, nonceBytes, adBytes, hn])]
      rw [State.whole_eq_contents (s := s) (b := .key) h1, State.whole_eq_contents (s := s) (b := .nonce) b,
        State.whole_eq_contents (s := s) (b := .ad) c]
      refine Or.inr (Or.inr ⟨h1, b, c, d, ?_⟩)
      cases C.aeadOpen (s.contents .key) (s.contents .nonce) (s.contents .ct) (s.contents .ad) with
      | none => exact Or.inl ⟨rfl, rfl⟩
      | some p => exact Or.inr ⟨p, rfl, rfl⟩
    · refine Or.inr (Or.inl ⟨h1, by omega, ?_⟩)
      rw [if_pos]
      by_contra hc
      have hs : s.len .nonce = 24 ∧ s.len .ad = 32 ∧ tagBytes ≤ s.len .ct := by
        simpa [bufSize, nonceBytes, adBytes, and_assoc] using hc
      exact h2 hs
  · left
    refine ⟨h1, ?_⟩
    rw [if_pos]
    simp [State.present, h1, bufSize]

theorem packBody_cases (s : State) :
    ((s.len .nonce ≠ 24 ∨ s.len .ad ≠ 32 ∨ s.len .ct < 16) ∧ packBody s = raise s .input) ∨
    (s.len .nonce = 24 ∧ s.len .ad = 32 ∧ 16 ≤ s.len .ct ∧
      packBody s = complete (s.store .blob (s.contents .nonce ++ s.contents .ad ++ s.contents .ct))) := by
  unfold packBody
  by_cases h2 : s.len .nonce = 24 ∧ s.len .ad = 32 ∧ 16 ≤ s.len .ct
  · obtain ⟨b, c, d⟩ := h2
    have hn : ¬ s.len .ct < tagBytes := by simp only [tagBytes]; omega
    rw [if_neg (by simp [State.present, b, c, bufSize, nonceBytes, adBytes, hn]),
      State.whole_eq_contents (s := s) (b := .nonce) b, State.whole_eq_contents (s := s) (b := .ad) c]
    exact Or.inr ⟨b, c, d, rfl⟩
  · refine Or.inl ⟨by omega, ?_⟩
    rw [if_pos]
    by_contra hc
    have hs : s.len .nonce = 24 ∧ s.len .ad = 32 ∧ tagBytes ≤ s.len .ct := by
      simpa [bufSize, nonceBytes, adBytes, and_assoc] using hc
    exact h2 hs

theorem unpackBody_eq (s : State) : unpackBody s =
    complete (((s.store .nonce ((s.contents .blob).take 24)).store .ad (((s.contents .blob).drop 24).take 32)).store .ct
      ((s.contents .blob).drop 56)) := rfl

theorem buildBody_cases (s : State) :
    (s.len .blob = 0 ∧ buildBody s = raise s .input) ∨
    (s.len .blob ≠ 0 ∧ buildBody s = complete (s.store .frame (frameOf (s.contents .blob)))) := by
  unfold buildBody
  by_cases h : s.len .blob = 0 <;> simp [h]

theorem deliverScan_cases (s : State) (r : ScanResult) :
    (r.payload = none ∧ deliverScan s r = raise (s.setScan r.pos r.state) .sentinelNotFound) ∨
    (∃ p, r.payload = some p ∧ deliverScan s r = complete ((s.setScan r.pos r.state).store .blob p)) := by
  unfold deliverScan
  cases r.payload with
  | none => exact Or.inl ⟨rfl, rfl⟩
  | some p => exact Or.inr ⟨p, rfl, rfl⟩

/-- What a successful EMBED leaves. -/
def embedded (s : State) : State :=
  (s.setMem .img (embedPixels s.params.pixelStride (expand (s.contents .frame)) s.img s.npix)).discard .frame

theorem embedBody_cases (s : State) :
    (s.len .frame = 0 ∧ embedBody s = raise s .input) ∨
    (s.len .frame ≠ 0 ∧ s.params.imgMaxPix < s.npix ∧ embedBody s = raise s .input) ∨
    (s.len .frame ≠ 0 ∧ s.npix ≤ s.params.imgMaxPix ∧ s.npix < 8 * s.len .frame ∧ embedBody s = raise s .capacity) ∨
    (s.len .frame ≠ 0 ∧ s.npix ≤ s.params.imgMaxPix ∧ 8 * s.len .frame ≤ s.npix ∧ embedBody s = complete (embedded s)) := by
  unfold embedBody
  by_cases h1 : s.len .frame = 0
  · rw [if_pos h1]; exact Or.inl ⟨h1, rfl⟩
  · rw [if_neg h1]
    by_cases h2 : s.npix > s.params.imgMaxPix
    · rw [if_pos h2]; exact Or.inr (Or.inl ⟨h1, h2, rfl⟩)
    · rw [if_neg h2]
      by_cases h3 : 8 * s.len .frame > s.npix
      · rw [if_pos h3]; exact Or.inr (Or.inr (Or.inl ⟨h1, by omega, h3, rfl⟩))
      · rw [if_neg h3]; exact Or.inr (Or.inr (Or.inr ⟨h1, by omega, by omega, rfl⟩))

theorem extractBody_cases (s : State) :
    (s.params.imgMaxPix < s.npix ∧ extractBody s = raise s .input) ∨
    (s.npix ≤ s.params.imgMaxPix ∧ extractBody s = deliverScan s (scanStream (s.stream s.npix))) := by
  unfold extractBody
  by_cases h : s.npix > s.params.imgMaxPix
  · rw [if_pos h]; exact Or.inl ⟨h, rfl⟩
  · rw [if_neg h]; exact Or.inr ⟨by omega, rfl⟩

/-- A failed OPEN has written nothing (41_aead.md R114). -/
theorem openBody_failed (C : Crypto) {s : State} (h : (openBody C s).err ≠ .success) : (openBody C s).state = s := by
  rcases openBody_cases C s with ⟨_, e⟩ | ⟨_, _, e⟩ | ⟨_, _, _, _, ⟨_, e⟩ | ⟨p, _, e⟩⟩ <;> rw [e] at h ⊢ <;>
    first | rfl | exact absurd rfl h

/-- A failed EMBED has written nothing (43_bitplane.md R145). -/
theorem embedBody_failed {s : State} (h : (embedBody s).err ≠ .success) : (embedBody s).state = s := by
  rcases embedBody_cases s with ⟨_, e⟩ | ⟨_, _, e⟩ | ⟨_, _, _, e⟩ | ⟨_, _, _, e⟩ <;> rw [e] at h ⊢ <;>
    first | rfl | exact absurd rfl h

/-! The frame of each body. -/

theorem Frame.gen (s : State) : Frame [.nonce, .ad] false false true s (genBody s).state := by
  rw [genBody_eq]
  constructor <;> intros <;> simp_all [complete]

theorem Frame.derive (C : Crypto) (s : State) : Frame [.key] false false false s (deriveBody C s).state := by
  rcases deriveBody_cases C s with ⟨_, h⟩ | ⟨_, _, _, h⟩ | ⟨_, _, k, _, h⟩ <;> rw [h]
  · exact Frame.refl _ _ _ _ _
  · exact Frame.refl _ _ _ _ _
  · exact Frame.store _ _ _

theorem Frame.seals (C : Crypto) (s : State) : Frame [.ct] false false false s (sealBody C s).state := by
  rcases sealBody_cases C s with ⟨_, h⟩ | ⟨_, _, _, _, h⟩ <;> rw [h]
  · exact Frame.refl _ _ _ _ _
  · exact Frame.store _ _ _

theorem Frame.opens (C : Crypto) (s : State) : Frame [.pt] false false false s (openBody C s).state := by
  rcases openBody_cases C s with ⟨_, h⟩ | ⟨_, _, h⟩ | ⟨_, _, _, _, ⟨_, h⟩ | ⟨p, _, h⟩⟩ <;> rw [h]
  · exact Frame.refl _ _ _ _ _
  · exact Frame.refl _ _ _ _ _
  · exact Frame.refl _ _ _ _ _
  · exact Frame.store _ _ _

theorem Frame.pack (s : State) : Frame [.blob] false false false s (packBody s).state := by
  rcases packBody_cases s with ⟨_, h⟩ | ⟨_, _, _, h⟩ <;> rw [h]
  · exact Frame.refl _ _ _ _ _
  · exact Frame.store _ _ _

theorem Frame.unpack (s : State) : Frame [.nonce, .ad, .ct] false false false s (unpackBody s).state := by
  rw [unpackBody_eq]
  constructor <;> intros <;> simp_all [complete]

theorem Frame.build (s : State) : Frame [.frame] false false false s (buildBody s).state := by
  rcases buildBody_cases s with ⟨_, h⟩ | ⟨_, h⟩ <;> rw [h]
  · exact Frame.refl _ _ _ _ _
  · exact Frame.store _ _ _

theorem Frame.deliverScan (s : State) (r : ScanResult) : Frame [.blob] true false false s (deliverScan s r).state := by
  rcases deliverScan_cases s r with ⟨_, h⟩ | ⟨p, _, h⟩ <;> rw [h] <;> constructor <;> intros <;> simp_all [complete, raise]

theorem Frame.scan (s : State) : Frame [.blob] true false false s (scanBody s).state := Frame.deliverScan s _

theorem Frame.embed (s : State) : Frame [.frame] false true false s (embedBody s).state := by
  rcases embedBody_cases s with ⟨_, h⟩ | ⟨_, _, h⟩ | ⟨_, _, _, h⟩ | ⟨_, _, _, h⟩ <;> rw [h]
  · exact Frame.refl _ _ _ _ _
  · exact Frame.refl _ _ _ _ _
  · exact Frame.refl _ _ _ _ _
  · refine ⟨?_, ?_, ?_, ?_, ?_, ?_, ?_, ?_, ?_, ?_, ?_, ?_, ?_⟩ <;> intros <;> simp_all [complete, embedded]
    exact read_embedPixels_other _ _ _ _ _ ‹_›

theorem Frame.extract (s : State) : Frame [.blob] true false false s (extractBody s).state := by
  rcases extractBody_cases s with ⟨_, h⟩ | ⟨_, h⟩ <;> rw [h]
  · exact Frame.refl _ _ _ _ _
  · exact Frame.deliverScan s _

theorem Frame.clear (s : State) : Frame allBufs true false false s (clrBody s).state := by
  unfold clrBody
  constructor <;> intros <;> simp_all [complete, mem_allBufs]

/-- The frame of one body and then another. -/
theorem Frame.andThen {ws : List Buf} {sc im en : Bool} {s : State} {r : CmdResult} {f : State → CmdResult}
    (hr : Frame ws sc im en s r.state) (hf : ∀ t, Frame ws sc im en t (f t).state) : Frame ws sc im en s (r.andThen f).state := by
  rcases r.andThen_cases f with ⟨_, h⟩ | ⟨_, h⟩ <;> rw [h]
  · exact hr.trans (hf _)
  · exact hr

theorem Frame.encode (C : Crypto) (s : State) :
    Frame [.nonce, .ad, .key, .ct, .blob, .frame] false true true s (encodeBody C s).state := by
  unfold encodeBody
  refine Frame.andThen (Frame.andThen (Frame.andThen (Frame.andThen (Frame.andThen ?_ ?_) ?_) ?_) ?_) ?_
  · exact (Frame.gen s).mono (by decide) (by simp) (by simp) (by simp)
  · exact fun t => (Frame.derive C t).mono (by decide) (by simp) (by simp) (by simp)
  · exact fun t => (Frame.seals C t).mono (by decide) (by simp) (by simp) (by simp)
  · exact fun t => (Frame.pack t).mono (by decide) (by simp) (by simp) (by simp)
  · exact fun t => (Frame.build t).mono (by decide) (by simp) (by simp) (by simp)
  · exact fun t => (Frame.embed t).mono (by decide) (by simp) (by simp) (by simp)

theorem Frame.decode (C : Crypto) (s : State) :
    Frame [.blob, .nonce, .ad, .ct, .key, .pt] true false false s (decodeBody C s).state := by
  unfold decodeBody
  refine Frame.andThen (Frame.andThen (Frame.andThen ?_ ?_) ?_) ?_
  · exact (Frame.extract s).mono (by decide) (by simp) (by simp) (by simp)
  · exact fun t => (Frame.unpack t).mono (by decide) (by simp) (by simp) (by simp)
  · exact fun t => (Frame.derive C t).mono (by decide) (by simp) (by simp) (by simp)
  · exact fun t => (Frame.opens C t).mono (by decide) (by simp) (by simp) (by simp)

end Sys2Proof.Machine
end

