-- ==== Sys2Proof/Laws/Decode.lean ====
section
/-! SUPPORT. The two fields of a command word and the opcode map (30_encoding.md R81, R85). -/

namespace Sys2Proof

/-- A word is its two fields. -/
theorem word_eq_fields (w : Word) : w = zeroField w ++ opcodeField w := by
  apply BitVec.eq_of_getLsbD_eq
  intro i hi
  simp only [zeroField, opcodeField, BitVec.getLsbD_append, BitVec.getLsbD_extractLsb']
  by_cases h : i < 8
  · simp [h]
  · have h1 : i - 8 < 24 := by omega
    have h2 : 8 + (i - 8) = i := by omega
    simp [h, h1, h2]

@[simp] theorem zeroField_encode (i : Instr) : zeroField (encode i) = 0 := by cases i <;> decide

@[simp] theorem opcodeField_encode (i : Instr) : opcodeField (encode i) = opcodeOf i := by cases i <;> decide

/-- The opcode map and its inverse agree. -/
@[simp] theorem instrOfOpcode_opcodeOf (i : Instr) : instrOfOpcode (opcodeOf i) = some i := by cases i <;> rfl

/-- An opcode that selects a command is that command's opcode. -/
theorem opcodeOf_of_instrOfOpcode {op : BitVec 8} {i : Instr} (h : instrOfOpcode op = some i) : op = opcodeOf i := by
  apply BitVec.eq_of_toNat_eq
  unfold instrOfOpcode at h
  split at h
  case h_14 => cases h
  all_goals
    next heq =>
    cases h
    exact heq

/-- What decoding answers: a command exactly when the high field is 0 and the opcode is in the map. -/
theorem decode_ok_iff (w : Word) (i : Instr) :
    decode w = .ok i ↔ zeroField w = 0 ∧ instrOfOpcode (opcodeField w) = some i := by
  unfold decode
  by_cases hz : zeroField w = 0
  · rw [if_pos hz]
    cases instrOfOpcode (opcodeField w) <;> simp only [hz, true_and, Option.some.injEq, Except.ok.injEq, reduceCtorEq]
  · rw [if_neg hz]
    exact ⟨fun h => (nomatch h), fun h => absurd h.1 hz⟩

end Sys2Proof
end

