-- ==== Sys2Proof/Laws/Port.lean ====
section
/-! SUPPORT. Where an address leads, and what one host event does (20_memory.md sections 1 and 5). -/

namespace Sys2Proof.Machine

/-! Legal parameters (00_scope.md R8, 20_memory.md R63). -/

theorem Params.legal_sizes {P : Params} (h : P.legal = true) : P.sizesLegal = true := by
  simp only [Params.legal, Bool.and_eq_true] at h; exact h.1

theorem Params.legal_windows {P : Params} (h : P.legal = true) : P.windowsLegal = true := by
  simp only [Params.legal, Bool.and_eq_true] at h; exact h.2

/-- The numeric constraints, as facts. -/
theorem Params.bounds {P : Params} (h : P.legal = true) :
    1 ≤ P.keyBytes ∧ P.keyBytes ≤ 64 ∧ 85 ≤ P.frameMax ∧ P.frameMax ≤ 2 ^ 24 ∧ 1 ≤ P.pwMax ∧ P.pwMax ≤ 4096 ∧
    P.imgMaxPix ≤ 8 * P.frameMax ∧ 1 ≤ P.pixelStride ∧ P.pixelStride ≤ 16 := by
  have := Params.legal_sizes h
  simp only [Params.sizesLegal, Bool.and_eq_true, decide_eq_true_eq] at this
  omega

/-- Every buffer is small against a 32-bit register (00_scope.md R10). -/
theorem bufSize_le {P : Params} (h : P.legal = true) (b : Buf) : bufSize P b ≤ 2 ^ 24 := by
  have := Params.bounds h
  cases b <;> simp only [bufSize, nonceBytes, adBytes] <;> omega

theorem windows_pairwise {P : Params} (h : P.legal = true) :
    ((0, csrBytes) :: allSpaces.map P.interval).Pairwise apart := by
  have := Params.legal_windows h
  simp only [Params.windowsLegal, Bool.and_eq_true, decide_eq_true_eq] at this
  exact this.1

/-- Every window lies in the 32-bit address space. -/
theorem window_fits {P : Params} (h : P.legal = true) (x : Space) : spaceBase P x + spaceSize P x ≤ 2 ^ 32 := by
  have := Params.legal_windows h
  simp only [Params.windowsLegal, Bool.and_eq_true, List.all_map, List.all_eq_true, Function.comp_apply,
    decide_eq_true_eq] at this
  exact this.2 x (mem_allSpaces x)

/-- No window reaches into the register range, but an empty one. -/
theorem window_above_registers {P : Params} (h : P.legal = true) {x : Space} {off : Nat} (ho : off < spaceSize P x) :
    csrBytes ≤ spaceBase P x + off := by
  have := (List.pairwise_cons.mp (windows_pairwise h)).1 (P.interval x) (List.mem_map_of_mem (mem_allSpaces x))
  simp only [apart, Params.interval, csrBytes] at this ⊢
  omega

theorem inWindow_iff (P : Params) (a : Nat) (x : Space) :
    inWindow P a x = true ↔ spaceBase P x ≤ a ∧ a < spaceBase P x + spaceSize P x := by
  simp [inWindow]

theorem allSpaces_nodup : allSpaces.Nodup := by decide

theorem apart_symm {i j : Nat × Nat} (h : apart i j) : apart j i := by simp only [apart] at h ⊢; omega

/-- An address lies in at most one window (20_memory.md R63). -/
theorem inWindow_unique {P : Params} (h : P.legal = true) {a : Nat} {x y : Space} (hx : inWindow P a x = true)
    (hy : inWindow P a y = true) : x = y := by
  rw [inWindow_iff] at hx hy
  by_contra hne
  have hp := (List.pairwise_cons.mp (windows_pairwise h)).2
  rw [List.pairwise_map] at hp
  have : Std.Symm (fun x y => apart (P.interval x) (P.interval y)) := ⟨fun _ _ h => apart_symm h⟩
  have := hp.forall (mem_allSpaces x) (mem_allSpaces y) hne
  simp only [apart, Params.interval] at this
  omega

/-- An address below 0x100 leads to the registers (20_memory.md R62). -/
theorem locate_register {P : Params} {a : Nat} (h : a < csrBytes) : locate P a = .register := by simp [locate, h]

/-- An address in a window leads to that window (20_memory.md R63). -/
theorem locate_window {P : Params} (h : P.legal = true) {x : Space} {off : Nat} (ho : off < spaceSize P x) :
    locate P (spaceBase P x + off) = .window x off := by
  have hin : inWindow P (spaceBase P x + off) x = true := by rw [inWindow_iff]; omega
  have hn : ¬ spaceBase P x + off < csrBytes := by have := window_above_registers h ho; omega
  unfold locate
  rw [if_neg hn]
  cases hf : allSpaces.find? (inWindow P (spaceBase P x + off)) with
  | none => exact absurd hin (by simpa using List.find?_eq_none.mp hf x (mem_allSpaces x))
  | some y =>
    have hy := inWindow_unique h hin (List.find?_some hf)
    subst hy
    simp

/-- An address in some window leads into a window, whatever the parameters. -/
theorem locate_some_window {P : Params} {a : Nat} (hc : csrBytes ≤ a) {x : Space} (hx : inWindow P a x = true) :
    ∃ y off, locate P a = .window y off := by
  unfold locate
  rw [if_neg (by omega)]
  cases hf : allSpaces.find? (inWindow P a) with
  | none => exact absurd hx (by simpa using List.find?_eq_none.mp hf x (mem_allSpaces x))
  | some y => exact ⟨y, _, rfl⟩

/-- An address in neither the register range nor a window leads nowhere (20_memory.md R64). -/
theorem locate_unmapped {P : Params} {a : Nat} (hc : csrBytes ≤ a) (hw : ∀ x ∈ allSpaces, inWindow P a x = false) :
    locate P a = .unmapped := by
  unfold locate
  rw [if_neg (by omega)]
  rw [List.find?_eq_none.mpr (fun x hx => by simp [hw x hx])]

/-- A window target is inside its window. -/
theorem locate_window_inside {P : Params} {a : Nat} {x : Space} {off : Nat} (h : locate P a = .window x off) :
    a = spaceBase P x + off ∧ off < spaceSize P x := by
  unfold locate at h
  split at h
  · cases h
  · cases hf : allSpaces.find? (inWindow P a) with
    | none => rw [hf] at h; cases h
    | some y =>
      rw [hf] at h
      have hy := List.find?_some hf
      rw [inWindow_iff] at hy
      simp only [Target.window.injEq] at h
      obtain ⟨rfl, rfl⟩ := h
      omega

/-! Registers by number (10_state.md section 2). -/

theorem regNumber_le (r : Reg) : regNumber r ≤ 12 := by
  rcases r with _ | _ | _ | _ | b | _ <;> try decide
  cases b <;> decide

@[simp] theorem regOfNumber_regNumber (r : Reg) : regOfNumber (regNumber r) = some r := by
  rcases r with _ | _ | _ | _ | b | _ <;> try rfl
  cases b <;> rfl

theorem regOfNumber_reserved {n : Nat} (h : 13 ≤ n) : regOfNumber n = none := by
  unfold regOfNumber
  rw [List.find?_eq_none]
  intro r _
  have := regNumber_le r
  simp; omega

/-- The register address leads to the register. -/
theorem access32_reg (P : Params) (n : Nat) (h : n ≤ 63) :
    access32 P (BitVec.ofNat 32 (4 * n)) = .ok (regOfNumber n) := by
  have ht : (BitVec.ofNat 32 (4 * n)).toNat = 4 * n := by rw [BitVec.toNat_ofNat]; omega
  unfold access32
  rw [ht, if_neg (by omega), locate_register (by simp only [csrBytes]; omega)]
  simp

theorem access32_zero (P : Params) : access32 P 0 = .ok (some .cmd) := access32_reg P 0 (by omega)

theorem toNat_windowAddr {P : Params} (h : P.legal = true) {x : Space} {off : Nat} (ho : off < spaceSize P x) :
    (BitVec.ofNat 32 (spaceBase P x + off)).toNat = spaceBase P x + off := by
  have := window_fits h x
  rw [BitVec.toNat_ofNat, Nat.mod_eq_of_lt (by omega)]

/-- A window address leads to its byte. -/
theorem access8_window {P : Params} (h : P.legal = true) {x : Space} {off : Nat} (ho : off < spaceSize P x) :
    access8 P (BitVec.ofNat 32 (spaceBase P x + off)) = .ok (some (x, off)) := by
  unfold access8
  rw [toNat_windowAddr h ho, locate_window h ho]

/-! One step. -/

/-- A step with an event pending takes the event and performs it (20_memory.md R50). -/
theorem step_cons {s : State} {e : HostEvent} {rest : List HostEvent} (h : s.script = e :: rest) :
    step s = perform (s.accept rest) e := by
  unfold step hostStep
  rw [h]

theorem step_nil {s : State} (h : s.script = []) : step s = .next s := by
  unfold step hostStep
  rw [h]

end Sys2Proof.Machine
end

