-- ==== Sys2Proof/Laws/Invariant.lean ====
section
/-! SUPPORT. The invariant: its parts, the operations that keep it, and that the bodies of the commands keep it. -/

namespace Sys2Proof.Machine

/-- The invariant from its parts, buffer by buffer. -/
theorem State.Inv.of_parts {s : State} (h1 : s.params.legal = true) (h2 : s.imgW.toNat ≤ dimMax) (h3 : s.imgH.toNat ≤ dimMax)
    (h4 : s.scanPos.toNat ≤ s.params.frameMax) (h5 : ∀ b, s.len b ≤ bufSize s.params b)
    (h6 : ∀ b, Memory.wf (s.buf b) ∧ Memory.within (s.buf b) (bufSize s.params b))
    (h7 : Memory.wf s.img ∧ Memory.within s.img (spaceSize s.params .img)) : s.Inv :=
  ⟨h1, h2, h3, h4, fun b _ => h5 b, fun x _ => by rcases x with b | _; exacts [h6 b, h7]⟩

/-- The parameters are legal. -/
theorem State.Inv.legal {s : State} (h : s.Inv) : s.params.legal = true := h.1

/-- A length register is at most its maximum (10_state.md R27). -/
theorem State.Inv.len_le {s : State} (h : s.Inv) (b : Buf) : s.len b ≤ bufSize s.params b := h.2.2.2.2.1 b (mem_allBufs b)

/-- A buffer's memory is canonical and inside its size. -/
theorem State.Inv.buf_ok {s : State} (h : s.Inv) (b : Buf) : Memory.wf (s.buf b) ∧ Memory.within (s.buf b) (bufSize s.params b) :=
  h.2.2.2.2.2 (.buf b) (mem_allSpaces _)

/-- IMG is canonical and inside its size. -/
theorem State.Inv.img_ok {s : State} (h : s.Inv) : Memory.wf s.img ∧ Memory.within s.img (spaceSize s.params .img) :=
  h.2.2.2.2.2 .img (mem_allSpaces _)

/-- Writing STATUS.ERR keeps the invariant. -/
theorem State.Inv.setErr {s : State} (h : s.Inv) (e : ErrorKind) : State.Inv { s with err := e } :=
  .of_parts h.1 h.2.1 h.2.2.1 h.2.2.2.1 (fun b => by simpa using h.len_le b) (fun b => by simpa using h.buf_ok b) h.img_ok

/-- Delivering an output that fits keeps the invariant. -/
theorem State.Inv.store {s : State} (h : s.Inv) {b : Buf} {v : List Byte} (hv : v.length ≤ bufSize s.params b) : (s.store b v).Inv := by
  have hb := bufSize_le h.1 b
  refine .of_parts (by simpa using h.1) (by simpa using h.2.1) (by simpa using h.2.2.1) (by simpa using h.2.2.2.1) ?_ ?_
    (by simpa using h.img_ok)
  · intro c
    simp only [State.len, State.lenReg_store, State.params_store]
    split
    · subst c; rw [BitVec.toNat_ofNat, Nat.mod_eq_of_lt (by omega)]; exact hv
    · exact h.len_le c
  · intro c
    simp only [State.buf_store, State.params_store]
    split
    · subst c; exact ⟨Memory.wf_writeBytes (h.buf_ok b).1 _ _, Memory.within_writeBytes (h.buf_ok b).2 (by omega)⟩
    · exact h.buf_ok c

/-- Discarding a buffer keeps the invariant. -/
theorem State.Inv.discard {s : State} (h : s.Inv) (b : Buf) : (s.discard b).Inv := by
  refine .of_parts (by simpa using h.1) (by simpa using h.2.1) (by simpa using h.2.2.1) (by simpa using h.2.2.2.1) ?_ ?_
    (by simpa using h.img_ok)
  · intro c
    simp only [State.len, State.lenReg_discard, State.params_discard]
    split
    · simp
    · exact h.len_le c
  · intro c
    simp only [State.buf_discard, State.params_discard]
    split
    · subst c; exact ⟨Memory.wf_clearBelow (h.buf_ok b).1 _, Memory.within_clearBelow (h.buf_ok b).2 _⟩
    · exact h.buf_ok c

/-- Writing the scanner's registers keeps the invariant when the position is at most FRAME_MAX. -/
theorem State.Inv.setScan {s : State} (h : s.Inv) {n : Nat} (hn : n ≤ s.params.frameMax) (f : ScanState) : (s.setScan n f).Inv := by
  have hb := Params.bounds h.1
  refine .of_parts h.1 h.2.1 h.2.2.1 ?_ (fun b => by simpa [State.len] using h.len_le b)
    (fun b => by simpa using h.buf_ok b) h.img_ok
  simp only [State.scanPos_setScan, State.params_setScan]
  rw [BitVec.toNat_ofNat, Nat.mod_eq_of_lt (by omega)]; exact hn

/-- A draw keeps the invariant. -/
theorem State.Inv.afterDraw {s : State} (h : s.Inv) (n : Nat) : (s.afterDraw n).Inv :=
  .of_parts h.1 h.2.1 h.2.2.1 h.2.2.2.1 (fun b => by simpa [State.len] using h.len_le b)
    (fun b => by simpa using h.buf_ok b) h.img_ok

/-- Replacing IMG by a canonical memory of its size keeps the invariant. -/
theorem State.Inv.setImg {s : State} (h : s.Inv) {m : Memory} (hw : Memory.wf m) (hi : Memory.within m (spaceSize s.params .img)) :
    (s.setMem .img m).Inv :=
  .of_parts h.1 h.2.1 h.2.2.1 h.2.2.2.1 (fun b => by simpa [State.len] using h.len_le b)
    (fun b => by simpa using h.buf_ok b) ⟨hw, hi⟩

theorem genBody_keeps_inv {s : State} (h : s.Inv) : (genBody s).state.Inv := by
  rw [genBody_eq]
  refine State.Inv.store (State.Inv.store (h.afterDraw 56) ?_) ?_
  · simp [bufSize, nonceBytes]
  · simp [bufSize, adBytes]

theorem deriveBody_keeps_inv (C) {s : State} (h : s.Inv) : (deriveBody C s).state.Inv := by
  rcases deriveBody_cases C s with ⟨_, e⟩ | ⟨_, _, _, e⟩ | ⟨_, _, k, _, e⟩ <;> rw [e]
  · exact h
  · exact h
  · exact h.store (by simp [bufSize])

theorem sealBody_keeps_inv (C) {s : State} (h : s.Inv) : (sealBody C s).state.Inv := by
  rcases sealBody_cases C s with ⟨_, e⟩ | ⟨_, _, _, _, e⟩ <;> rw [e]
  · exact h
  · refine h.store ?_
    have := h.len_le .pt
    have hb := Params.bounds h.1
    simp [bufSize] at this ⊢; omega

theorem openBody_keeps_inv (C) {s : State} (h : s.Inv) : (openBody C s).state.Inv := by
  rcases openBody_cases C s with ⟨_, e⟩ | ⟨_, _, e⟩ | ⟨_, _, _, _, ⟨_, e⟩ | ⟨p, _, e⟩⟩ <;> rw [e]
  · exact h
  · exact h
  · exact h
  · refine h.store ?_
    have := h.len_le .ct
    have hb := Params.bounds h.1
    simp [bufSize] at this ⊢; omega

theorem packBody_keeps_inv {s : State} (h : s.Inv) : (packBody s).state.Inv := by
  rcases packBody_cases s with ⟨_, e⟩ | ⟨a, b, _, e⟩ <;> rw [e]
  · exact h
  · refine h.store ?_
    have := h.len_le .ct
    have hb := Params.bounds h.1
    simp [bufSize, a, b] at this ⊢; omega

theorem unpackBody_keeps_inv {s : State} (h : s.Inv) : (unpackBody s).state.Inv := by
  rw [unpackBody_eq]
  have := h.len_le .blob
  have hb := Params.bounds h.1
  refine State.Inv.store (State.Inv.store (h.store ?_) ?_) ?_ <;> simp [bufSize, nonceBytes, adBytes] at this ⊢
  omega

theorem buildBody_keeps_inv {s : State} (h : s.Inv) : (buildBody s).state.Inv := by
  rcases buildBody_cases s with ⟨_, e⟩ | ⟨_, e⟩ <;> rw [e]
  · exact h
  · refine h.store ?_
    have := h.len_le .blob
    have hb := Params.bounds h.1
    simp [bufSize, frameOf, startSentinel, endSentinel] at this ⊢; omega

/-- A scan of a stream of at most FRAME_MAX bytes keeps the invariant: its payload fits in BLOB. -/
theorem deliverScan_keeps_inv {s : State} (h : s.Inv) {B : List Byte} (hB : B.length ≤ s.params.frameMax) :
    (deliverScan s (scanStream B)).state.Inv := by
  have hp := scanStream_bounds B
  rcases deliverScan_cases s (scanStream B) with ⟨_, e⟩ | ⟨p, q, e⟩ <;> rw [e]
  · exact h.setScan (by omega) _
  · refine State.Inv.store (h.setScan (by omega) _) ?_
    have := (hp.2 p q).1
    simp [bufSize]; omega

theorem scanBody_keeps_inv {s : State} (h : s.Inv) : (scanBody s).state.Inv :=
  deliverScan_keeps_inv h (by simpa [bufSize] using h.len_le .frame)

/-- The stream of an image that fits has at most FRAME_MAX bytes (00_scope.md R8). -/
theorem stream_length_le_frameMax {s : State} (h : s.Inv) (hn : s.npix ≤ s.params.imgMaxPix) : s.npix / 8 ≤ s.params.frameMax := by
  have hb := Params.bounds h.1; omega

theorem extractBody_keeps_inv {s : State} (h : s.Inv) : (extractBody s).state.Inv := by
  rcases extractBody_cases s with ⟨_, e⟩ | ⟨hn, e⟩ <;> rw [e]
  · exact h
  · exact deliverScan_keeps_inv h (by simpa using stream_length_le_frameMax h hn)

theorem embedBody_keeps_inv {s : State} (h : s.Inv) : (embedBody s).state.Inv := by
  rcases embedBody_cases s with ⟨_, e⟩ | ⟨_, _, e⟩ | ⟨_, _, _, e⟩ | ⟨_, hn, _, e⟩ <;> rw [e]
  · exact h
  · exact h
  · exact h
  · refine State.Inv.discard (h.setImg (wf_embedPixels h.img_ok.1 _) (within_embedPixels h.img_ok.2 _ ?_)) _
    intro p hp
    have hb := Params.bounds h.1
    exact Nat.mul_lt_mul_of_pos_right (by omega) (by omega)

/-- One body and then another. -/
theorem andThen_keeps_inv {r : CmdResult} (h : r.state.Inv) {f : State → CmdResult} (hf : ∀ t, t.Inv → (f t).state.Inv) :
    (r.andThen f).state.Inv := by
  rcases r.andThen_cases f with ⟨_, e⟩ | ⟨_, e⟩ <;> rw [e]
  · exact hf _ h
  · exact h

theorem encodeBody_keeps_inv (C) {s : State} (h : s.Inv) : (encodeBody C s).state.Inv := by
  unfold encodeBody
  exact andThen_keeps_inv (andThen_keeps_inv (andThen_keeps_inv (andThen_keeps_inv (andThen_keeps_inv (genBody_keeps_inv h)
    fun _ => deriveBody_keeps_inv C) fun _ => sealBody_keeps_inv C) fun _ => packBody_keeps_inv)
    fun _ => buildBody_keeps_inv) fun _ => embedBody_keeps_inv

theorem decodeBody_keeps_inv (C) {s : State} (h : s.Inv) : (decodeBody C s).state.Inv := by
  unfold decodeBody
  exact andThen_keeps_inv (andThen_keeps_inv (andThen_keeps_inv (extractBody_keeps_inv h) fun _ => unpackBody_keeps_inv)
    fun _ => deriveBody_keeps_inv C) fun _ => openBody_keeps_inv C

end Sys2Proof.Machine
end

