-- ==== Sys2Proof/Laws/PerInstr.lean ====
section
/-! SUPPORT. Statements made of every command as syntax, one lemma per constructor: the word of the command decodes to it, and it is well
formed (30_encoding.md R82, R85). -/

namespace Sys2Proof.Laws.DecodeEncode

/-- The command is well formed and the word of the command decodes to it. -/
def Statement (i : Sys2Proof.Instr) : Prop := i.wf = true ∧ Sys2Proof.decode (Sys2Proof.encode i) = .ok i

theorem gen : Statement .gen := ⟨rfl, rfl⟩
theorem derive : Statement .derive := ⟨rfl, rfl⟩
theorem sealPt : Statement .sealPt := ⟨rfl, rfl⟩
theorem openCt : Statement .openCt := ⟨rfl, rfl⟩
theorem pack : Statement .pack := ⟨rfl, rfl⟩
theorem unpack : Statement .unpack := ⟨rfl, rfl⟩
theorem build : Statement .build := ⟨rfl, rfl⟩
theorem scan : Statement .scan := ⟨rfl, rfl⟩
theorem embed : Statement .embed := ⟨rfl, rfl⟩
theorem extract : Statement .extract := ⟨rfl, rfl⟩
theorem encode : Statement .encode := ⟨rfl, rfl⟩
theorem decode : Statement .decode := ⟨rfl, rfl⟩
theorem clr : Statement .clr := ⟨rfl, rfl⟩

end Sys2Proof.Laws.DecodeEncode
end

