-- ==== Sys2Proof/Machine/Script.lean ====
section
/-! DEFINITION. The script notation of 30_encoding.md R88 and its pseudo-lines (R89): each stands for host accesses and adds no
behaviour. -/

namespace Sys2Proof.Machine

/-- `w32 REG, v` (30_encoding.md R88). -/
def w32 (r : Reg) (v : Nat) : HostEvent := .write32 (regAddr r) (BitVec.ofNat 32 v)

/-- `r32 REG` (30_encoding.md R88). -/
def r32 (r : Reg) : HostEvent := .read32 (regAddr r)

/-- The host address of a byte of a window. -/
def windowAddr (P : Params) (x : Space) (off : Nat) : Addr := BitVec.ofNat 32 (spaceBase P x + off)

/-- `w8 WIN+off, b` (30_encoding.md R88). -/
def w8 (P : Params) (x : Space) (off : Nat) (b : Byte) : HostEvent := .write8 (windowAddr P x off) b

/-- `r8 WIN+off` (30_encoding.md R88). -/
def r8 (P : Params) (x : Space) (off : Nat) : HostEvent := .read8 (windowAddr P x off)

/-- `cmd MNEMONIC` (30_encoding.md R88). -/
def cmd (i : Instr) : HostEvent := .write32 (regAddr .cmd) (encode i)

/-- `load BUF, b0 b1 ... b(n-1)` (30_encoding.md R89). -/
def load (P : Params) (b : Buf) (bytes : List Byte) : List HostEvent :=
  bytes.zipIdx.map (fun vi => w8 P (.buf b) vi.2 vi.1) ++ [w32 (.len b) bytes.length]

/-- `dims w, h` (30_encoding.md R89). -/
def dims (w h : Nat) : List HostEvent := [w32 .imgW w, w32 .imgH h]

/-- `red p, v` (30_encoding.md R89). -/
def red (P : Params) (p : Nat) (v : Byte) : HostEvent := w8 P .img (redOffset P.pixelStride p) v

/-- `fillred p0, n, v` (30_encoding.md R89). -/
def fillred (P : Params) (p0 n : Nat) (v : Byte) : List HostEvent :=
  (List.range n).map (fun i => red P (p0 + i) v)

end Sys2Proof.Machine
end

