-- ==== Sys2Proof/Tests/Slice0.lean ====
section
/-! SUPPORT. Tests. Expected values come from spec/95_test_vectors.md (V and P numbers), from the rules named, or are worked by hand from
them. Then one witness for every statement that has hypotheses: concrete data that meet all of them together. -/

/-! The theorems below are elaborated one after another: each waits for the kernel, and a thread per waiting theorem would only hold
memory. -/

set_option Elab.async false

open Sys2Proof Sys2Proof.Machine

namespace Sys2Proof.Tests

/-! Parameters and words (00_scope.md R8, 20_memory.md R63, 30_encoding.md R82). -/

theorem test_default_params_are_legal : defaultParams.legal = true := by decide

/-- One ill-formed set of sizes for each constraint of 00_scope.md R8. -/
theorem test_illegal_sizes_are_refused :
    { defaultParams with keyBytes := 0 }.sizesLegal = false ∧ { defaultParams with keyBytes := 65 }.sizesLegal = false ∧
    { defaultParams with frameMax := 84, imgMaxPix := 0 }.sizesLegal = false ∧
    { defaultParams with frameMax := 2 ^ 24 + 1 }.sizesLegal = false ∧
    { defaultParams with pwMax := 0 }.sizesLegal = false ∧ { defaultParams with pwMax := 4097 }.sizesLegal = false ∧
    { defaultParams with imgMaxPix := 524289 }.sizesLegal = false ∧
    { defaultParams with pixelStride := 0 }.sizesLegal = false ∧ { defaultParams with pixelStride := 17 }.sizesLegal = false := by
  decide

/-- Windows that overlap each other or the control registers, or run past the last address (20_memory.md R63). -/
theorem test_illegal_windows_are_refused :
    { defaultParams with nonceBase := 0xFF }.windowsLegal = false ∧
    { defaultParams with adBase := 0x117 }.windowsLegal = false ∧
    { defaultParams with imgBase := 0xFFF00000 }.windowsLegal = false := by decide

/-- An empty IMG window shares no address with any other range, wherever its base lies (00_scope.md R8, log 11). -/
theorem test_empty_window_overlaps_nothing :
    { defaultParams with imgMaxPix := 0, imgBase := 0x1001 }.legal = true ∧
    { defaultParams with imgMaxPix := 1, imgBase := 0x1001 }.legal = false := by decide

/-- V43: words that select no command. -/
theorem test_illegal_words_are_refused :
    wordLegal 0x00000000 = false ∧ wordLegal 0x0000000E = false ∧ wordLegal 0x00000103 = false ∧ wordLegal 0x80000001 = false ∧
    wordLegal 0x0000000D = true ∧ Instr.wf .clr = true := by decide

/-! Decoding: the words of 30_encoding.md R85, and of V43. -/

theorem test_decode_every_command :
    decode 0x00000001 = .ok .gen ∧ decode 0x00000002 = .ok .derive ∧ decode 0x00000003 = .ok .sealPt ∧
    decode 0x00000004 = .ok .openCt ∧ decode 0x00000005 = .ok .pack ∧ decode 0x00000006 = .ok .unpack ∧
    decode 0x00000007 = .ok .build ∧ decode 0x00000008 = .ok .scan ∧ decode 0x00000009 = .ok .embed ∧
    decode 0x0000000A = .ok .extract ∧ decode 0x0000000B = .ok .encode ∧ decode 0x0000000C = .ok .decode ∧
    decode 0x0000000D = .ok .clr := by decide

theorem test_decode_illegal_words :
    decode 0x00000000 = .error (.noSuchOpcode 0x00) ∧ decode 0x0000000E = .error (.noSuchOpcode 0x0E) ∧
    decode 0x000000FF = .error (.noSuchOpcode 0xFF) ∧ decode 0x00000103 = .error (.highBitsSet 0x00000103) ∧
    decode 0x80000001 = .error (.highBitsSet 0x80000001) ∧ decode 0xFFFFFFFF = .error (.highBitsSet 0xFFFFFFFF) := by decide

theorem test_decode_table_bits :
    decodeTableWord 32 0x00000003 = some .sealPt ∧ decodeTableWord 32 0x0000000E = none ∧ decodeTableWord 32 0x00000103 = none := by
  decide

/-- The register addresses of 10_state.md section 2 and 20_memory.md R62. -/
theorem test_register_addresses :
    regAddr .cmd = 0x00 ∧ regAddr .status = 0x04 ∧ regAddr .imgW = 0x08 ∧ regAddr .imgH = 0x0C ∧ regAddr (.len .pw) = 0x10 ∧
    regAddr (.len .nonce) = 0x14 ∧ regAddr (.len .ad) = 0x18 ∧ regAddr (.len .key) = 0x1C ∧ regAddr (.len .pt) = 0x20 ∧
    regAddr (.len .ct) = 0x24 ∧ regAddr (.len .blob) = 0x28 ∧ regAddr (.len .frame) = 0x2C ∧ regAddr .scanPos = 0x30 := by decide

/-- Script lines of P1 stand for the accesses the spec lists. -/
theorem test_script_lines :
    cmd .build = .write32 0x00000000 0x00000007 ∧
    load defaultParams .blob [0x41] = [.write8 0x03000000 0x41, .write32 0x00000028 1] ∧
    red defaultParams 3 255 = .write8 0x8000000C 0xFF ∧ r8 defaultParams (.buf .frame) 6 = .read8 0x04000006 := by decide

/-! The pure functions. -/

/-- V1, V2. -/
theorem test_expand : expand [0x23, 0x80] =
    [false, false, true, false, false, false, true, true, true, false, false, false, false, false, false, false] := by decide

/-- V4, its edge cases and the source's own four (E10). -/
theorem test_adjust :
    adjust 0 true = 1 ∧ adjust 255 false = 254 ∧ adjust 128 true = 127 ∧ adjust 127 false = 128 ∧ adjust 0 false = 0 ∧
    adjust 255 true = 255 ∧ adjust 254 true = 253 ∧ adjust 1 false = 2 := by decide

/-- V5: red 255 254 3 2 1 0 9 8 give 0xAA. -/
theorem test_stream :
    streamAt 1 (Memory.writeBytes [] 0 [255, 254, 3, 2, 1, 0, 9, 8]) 8 = [0xAA] ∧
    streamAt 1 (Memory.writeBytes [] 0 [1]) 15 = [0x80] := by decide

/-- V26 (shortest instance), V28 d, f, h. -/
theorem test_scanner :
    scanStream [0x23, 0x23, 0x23, 0x23, 0x23, 0x23, 0x41, 0x3D, 0x3D, 0x3D, 0x3D, 0x3D, 0x3D, 0x3D] = ⟨.done, 13, some [0x41]⟩ ∧
    scanStream ([0x23] ++ frameOf [0x41]) = ⟨.done, 14, some [0x23, 0x41]⟩ ∧
    scanStream (frameOf [0x41, 0x3D, 0x3D, 0x3D, 0x3D, 0x3D, 0x23]) = ⟨.done, 19, some [0x41, 0x3D, 0x3D, 0x3D, 0x3D, 0x3D, 0x23]⟩ ∧
    scanStream (endSentinel ++ startSentinel ++ [0x41]) = ⟨.collectingPayload, 13, none⟩ := by decide

/-- The same streams, one byte at a time (42_frame.md R131). -/
theorem test_bytewise_scanner :
    scanBytewise ([0x23] ++ frameOf [0x41]) = ⟨.done, 14, some [0x23, 0x41]⟩ ∧
    scanBytewise (endSentinel ++ startSentinel ++ [0x41]) = ⟨.collectingPayload, 13, none⟩ := by decide

/-! The TOY fixture (95_test_vectors.md section 3). -/

/-- TOY_KDF (95_test_vectors.md section 3). -/
def toyKdf (n : Nat) (pw salt : List Byte) : List Byte :=
  (List.range n).map (fun i => pw.getD (i % pw.length) 0 ^^^ salt.getD (i % 24) 0 ^^^ BitVec.ofNat 8 i)

/-- The keystream of TOY_SEAL and TOY_OPEN: `v[i] xor k[i mod 32] xor n[i mod 24]`. -/
def toyMask (k n v : List Byte) : List Byte :=
  (List.range v.length).map (fun i => v.getD i 0 ^^^ (k.getD (i % 32) 0 ^^^ n.getD (i % 24) 0))

/-- `XOR{ v[i] : i mod 16 = j }`. -/
def toyFold (v : List Byte) (j : Nat) : Byte :=
  ((List.range v.length).filter (fun i => decide (i % 16 = j))).foldl (fun x i => x ^^^ v.getD i 0) 0

/-- The tag of TOY_SEAL. -/
def toyTag (k a c : List Byte) : List Byte :=
  (List.range 16).map (fun j => k.getD j 0 ^^^ toyFold a j ^^^ toyFold c j ^^^ (if j = 0 then BitVec.ofNat 8 c.length else 0))

/-- TOY_SEAL. -/
def toySeal (k n p a : List Byte) : List Byte := toyMask k n p ++ toyTag k a (toyMask k n p)

theorem length_toyMask (k n v : List Byte) : (toyMask k n v).length = v.length := by simp [toyMask]

theorem length_toySeal (k n p a : List Byte) : (toySeal k n p a).length = p.length + 16 := by
  simp [toySeal, toyTag, length_toyMask]

/-- The bytes TOY_OPEN recovers before it looks at the tag. -/
def toyPlain (k n ct : List Byte) : List Byte := toyMask k n (ct.take (ct.length - 16))

theorem length_toyPlain (k n ct : List Byte) : (toyPlain k n ct).length = ct.length - 16 := by
  simp [toyPlain, length_toyMask]

/-- The TOY fixture (95_test_vectors.md section 3): a test fixture of the spec, not the hardware's functions. -/
def toy : Crypto where
  kdf n pw salt := some ⟨(toyKdf n pw salt).toArray, by simp [toyKdf]⟩
  aeadSeal k n p a := ⟨(toySeal k n p a).toArray, by simp [length_toySeal]⟩
  aeadOpen k n ct a :=
    if 16 ≤ ct.length ∧ toySeal k n (toyPlain k n ct) a = ct then some ⟨(toyPlain k n ct).toArray, by simp [length_toyPlain]⟩ else none

theorem toyMask_twice (k n v : List Byte) : toyMask k n (toyMask k n v) = v := by
  apply List.ext_getElem
  · simp [length_toyMask]
  · intro i h1 h2
    simp [toyMask, h2]

/-- The TOY fixture has P-RT, as the spec says. -/
theorem toy_roundTrips (m : Nat) : toy.RoundTrips m := by
  intro k n p a _
  have hp : toyPlain k n (toySeal k n p a) = p := by
    unfold toyPlain
    rw [length_toySeal, Nat.add_sub_cancel]
    unfold toySeal
    rw [List.take_left' (length_toyMask k n p), toyMask_twice]
  have hl := length_toySeal k n p a
  simp only [toy, Vector.toList]
  rw [if_pos ⟨by omega, by rw [hp]⟩]
  simp [hp]

/-! A second stand-in, with the three properties of 00_scope.md R9 at once: the tag makes all bytes of ciphertext and associated data XOR to the
first key byte, and only passwords of one byte give a key. A fixture of these tests alone. -/

/-- The XOR of all bytes. -/
def xorAll (v : List Byte) : Byte := v.foldr (· ^^^ ·) 0

theorem xorAll_append (v w : List Byte) : xorAll (v ++ w) = xorAll v ^^^ xorAll w := by
  induction v with
  | nil => simp [xorAll]
  | cons b v ih =>
    have : xorAll (b :: v ++ w) = b ^^^ xorAll (v ++ w) := rfl
    rw [this, ih, ← BitVec.xor_assoc]; rfl

theorem xorAll_set (v : List Byte) (i : Nat) (h : i < v.length) (m : Byte) :
    xorAll (v.set i (v.getD i 0 ^^^ m)) = xorAll v ^^^ m := by
  induction v generalizing i with
  | nil => simp at h
  | cons b v ih =>
    cases i with
    | zero => simp only [List.set_cons_zero, List.getD_cons_zero, xorAll, List.foldr_cons]; ac_rfl
    | succ i =>
      have := ih i (by simpa using h)
      simp only [List.set_cons_succ, List.getD_cons_succ, xorAll, List.foldr_cons] at this ⊢
      rw [this, BitVec.xor_assoc]

theorem xorAll_oneBitApart {v w : List Byte} (h : oneBitApart v w) : xorAll w ≠ xorAll v := by
  obtain ⟨i, hi, k, hk, rfl⟩ := h
  rw [xorAll_set v i hi]
  intro e
  have hz : ∀ x m : Byte, x ^^^ m = x → m = 0 := by
    intro x m hm
    have := congrArg (x ^^^ ·) hm
    simpa [← BitVec.xor_assoc] using this
  have := hz _ _ e
  revert this
  clear e hz
  revert k
  decide

/-- The ciphertext with tag. -/
def probeSeal (k p a : List Byte) : List Byte := p ++ ((xorAll (p ++ a) ^^^ k.getD 0 0) :: List.replicate 15 0)

/-- The second stand-in. -/
def probe : Crypto where
  kdf n pw _ :=
    match pw with
    | [b] => if n = 0 then none else some ⟨(List.replicate n b).toArray, by simp⟩
    | _ => none
  aeadSeal k _ p a := ⟨(probeSeal k p a).toArray, by simp [probeSeal]⟩
  aeadOpen k _ ct a :=
    if xorAll (ct ++ a) = k.getD 0 0 then some ⟨(ct.take (ct.length - 16)).toArray, by simp⟩ else none

theorem xorAll_probeSeal (k p a : List Byte) : xorAll (probeSeal k p a ++ a) = k.getD 0 0 := by
  have h : xorAll (probeSeal k p a ++ a) = xorAll p ^^^ (xorAll p ^^^ xorAll a ^^^ k.getD 0 0) ^^^ xorAll a := by
    unfold probeSeal
    rw [xorAll_append, xorAll_append, xorAll_append]
    congr 2
    simp [xorAll, List.replicate]
  rw [h]
  calc xorAll p ^^^ (xorAll p ^^^ xorAll a ^^^ k.getD 0 0) ^^^ xorAll a
      = (xorAll p ^^^ xorAll p) ^^^ (xorAll a ^^^ xorAll a) ^^^ k.getD 0 0 := by ac_rfl
    _ = k.getD 0 0 := by simp

theorem probe_roundTrips (m : Nat) : probe.RoundTrips m := by
  intro k n p a _
  simp only [probe, Vector.toList]
  rw [if_pos (xorAll_probeSeal k p a)]
  simp [probeSeal, Vector.toList]

theorem probe_detectsTampering (m : Nat) : probe.DetectsTampering m := by
  intro k n p a _
  refine ⟨fun ct h => ?_, fun b h => ?_⟩
  · have h' : oneBitApart (probeSeal k p a) ct := h
    show (if xorAll (ct ++ a) = k.getD 0 0 then _ else none) = none
    rw [if_neg]
    intro e
    have hne := xorAll_oneBitApart h'
    rw [← xorAll_probeSeal k p a, xorAll_append, xorAll_append] at e
    exact hne (by have := congrArg (· ^^^ xorAll a) e; simpa [BitVec.xor_assoc] using this)
  · show (if xorAll (probeSeal k p a ++ b) = k.getD 0 0 then _ else none) = none
    rw [if_neg]
    intro e
    have hne := xorAll_oneBitApart h
    rw [← xorAll_probeSeal k p a, xorAll_append, xorAll_append] at e
    exact hne (by have := congrArg (xorAll (probeSeal k p a) ^^^ ·) e; simpa [← BitVec.xor_assoc] using this)

theorem probe_rejectsWrongKeys (m : Nat) : probe.RejectsWrongKeys m := by
  intro pw pw' n p a k k' _ hne hk hk'
  have key : ∀ (q : List Byte) (v : Vector Byte m), probe.kdf m q n = some v → ∃ b, q = [b] ∧ v.toList.getD 0 0 = b := by
    intro q v h
    match q, h with
    | [b], h =>
      simp only [probe] at h
      split at h
      · cases h
      · rename_i hm
        injection h with h
        refine ⟨b, rfl, ?_⟩
        rw [← h]
        obtain ⟨j, rfl⟩ := Nat.exists_eq_succ_of_ne_zero hm
        simp [Vector.toList, List.replicate]
  obtain ⟨b, rfl, hb⟩ := key pw k hk
  obtain ⟨b', rfl, hb'⟩ := key pw' k' hk'
  show (if xorAll (probeSeal k.toList p a ++ a) = k'.toList.getD 0 0 then _ else none) = none
  rw [if_neg]
  rw [xorAll_probeSeal, hb, hb']
  exact fun e => hne (by rw [e])

/-! The bytes the vectors use. -/

/-- "pw1". -/
def pw1 : List Byte := [0x70, 0x77, 0x31]
/-- "hello". -/
def hello : List Byte := [0x68, 0x65, 0x6C, 0x6C, 0x6F]
/-- 00 01 ... 17. -/
def nonceBytesV : List Byte := (List.range 24).map (BitVec.ofNat 8)
/-- 40 41 ... 5F. -/
def adBytesV : List Byte := (List.range 32).map (fun i => BitVec.ofNat 8 (0x40 + i))
/-- The key of V7. -/
def keyV : List Byte := (List.replicate 8 pw1).flatten ++ [0x68, 0x6F, 0x29, 0x68, 0x6F, 0x29, 0x68, 0x6F]
/-- The ciphertext with tag of V12. -/
def ctV : List Byte := [0x18, 0x13, 0x5F, 0x1F, 0x1C, 0x7D, 0x74, 0x7E, 0x7F, 0x7B, 0x21, 0x60, 0x67, 0x21, 0x60, 0x67, 0x21, 0x60,
  0x67, 0x21, 0x60]

/-- A memory that holds the bytes `v` from offset 0 on. -/
def cellsOf (v : List Byte) : Memory := (v.zipIdx.filter (fun c => decide (c.1 ≠ 0))).map (fun c => (c.2, c.1))
/-- A buffer as the host loads it (30_encoding.md R89). -/
def put (s : State) (b : Buf) (v : List Byte) : State := (s.setBuf b (cellsOf v)).setLenReg b (BitVec.ofNat 32 v.length)

/-- Before DERIVE: V7. -/
def sDerive : State := put (put State.reset .pw pw1) .nonce nonceBytesV
/-- Before SEAL: V12. -/
def sSeal : State := put (put (put (put State.reset .key keyV) .nonce nonceBytesV) .ad adBytesV) .pt hello
/-- Before OPEN and PACK: V16, V22. -/
def sOpen : State := put (put (put (put State.reset .key keyV) .nonce nonceBytesV) .ad adBytesV) .ct ctV
/-- Before BUILD: V25. -/
def sBuild : State := put State.reset .blob [0x41]
/-- Before EMBED: V30, 13 by 8 pixels, red 128. -/
def sEmbed : State := { put State.reset .frame (frameOf [0x41]) with
  imgW := 13
  imgH := 8
  img := (List.range 104).map (fun p => (4 * p, 128)) }
/-- An image whose red parities carry the bits of `f`, one pixel a bit, all other bytes 0. -/
def imageOf (f : List Byte) : Memory := ((expand f).zipIdx.filter (fun c => c.1)).map (fun c => (4 * c.2, 1))
/-- Before EXTRACT: the image of V36, as parities 0 and 1. -/
def sExtract : State := { State.reset with imgW := 13, imgH := 8, img := imageOf (frameOf [0x41]) }
/-- A blob of 72 bytes, the least a ciphertext fits in. -/
def blob72 : List Byte := List.replicate 72 0
/-- Before DECODE: an image that holds the frame of `blob72`. -/
def sDecode : State := { put State.reset .pw pw1 with imgW := 672, imgH := 1, img := imageOf (frameOf blob72) }
/-- Before ENCODE: a payload of one byte and the least image it fits in; the entropy of P2. -/
def sEncode : State := { put (put State.reset .pw pw1) .pt [0x68] with imgW := 680, imgH := 1, entropy := nonceBytesV ++ adBytesV }

/-! Steps. -/

/-- The state of a next step, and `none` for a stop. -/
def next? (o : Host.Outcome State Fault Refusal) : Option State :=
  match o with
  | .next t => some t
  | .fault _ => none
  | .refused _ => none

/-- One step from reset with a command written to CMD. -/
def first (i : Instr) : Option State := next? (step (State.reset.withFetchWord 32 (encode i).toNat))

/-- V47: each command tried on its own from the reset state, by its STATUS afterwards. -/
theorem test_first_command_gen_clr_unpack :
    (first .gen).map State.status = some 0x00 ∧ (first .clr).map State.status = some 0x00 ∧
    (first .unpack).map State.status = some 0x00 := by decide

theorem test_first_command_errors :
    (first .derive).map State.status = some 0x02 ∧ (first .sealPt).map State.status = some 0x01 ∧
    (first .openCt).map State.status = some 0x01 ∧ (first .pack).map State.status = some 0x01 ∧
    (first .build).map State.status = some 0x01 ∧ (first .scan).map State.status = some 0x05 ∧
    (first .embed).map State.status = some 0x01 ∧ (first .extract).map State.status = some 0x05 ∧
    (first .encode).map State.status = some 0x02 ∧ (first .decode).map State.status = some 0x05 := by decide

/-- V47: ENCODE from reset leaves NONCE_LEN = 24, AD_LEN = 32. -/
theorem test_first_command_encode : (first .encode).map (fun t => (t.nonceLen, t.adLen, t.keyLen)) = some (24, 32, 0) := by decide

/-- V43: an illegal word sets ERR alone and keeps FSM (0x20 before, 0x26 after). -/
theorem test_illegal_word :
    (next? (command { State.reset with fsm := .done } 0x00000103)).map State.status = some 0x26 := by decide

/-- V46: NONCE_LEN takes 24 and not 25; the password cannot be read back. -/
theorem test_host_accesses :
    (next? (hostWrite32 State.reset 0x14 25)).map State.nonceLen = some 0 ∧
    (next? (hostWrite32 State.reset 0x14 24)).map State.nonceLen = some 24 ∧
    (next? (hostRead8 sDerive 0x1000)).map State.reply = some (.byte 0) ∧
    (next? (hostRead32 sDerive 0x10)).map State.reply = some (.word 3) ∧
    (next? (hostRead32 sDerive 0x34)).map State.reply = some (.word 0) := by decide

/-- GEN, V41: the 56 bytes the source answers are split 24 and 32. -/
theorem test_gen :
    (next? (exec .gen { State.reset with entropy := nonceBytesV ++ adBytesV })).map (fun t => (t.contents .nonce, t.contents .ad, t.err)) =
      some (nonceBytesV, adBytesV, .success) := by decide +kernel

/-- DERIVE, V7, with the TOY fixture. -/
theorem test_derive : (deriveBody toy sDerive).state.contents .key = keyV ∧ (deriveBody toy sDerive).err = .success := by decide +kernel

/-- DERIVE, V9: a nonce of 23 bytes. -/
theorem test_derive_short_nonce : (next? (exec .derive { sDerive with nonceLen := 23 })).map State.err = some .keyDerivation := by
  decide +kernel

/-- SEAL, V12, with the TOY fixture. -/
theorem test_seal : (sealBody toy sSeal).state.contents .ct = ctV ∧ (sealBody toy sSeal).err = .success := by decide +kernel

/-- SEAL, V14: KEY_LEN = 31. -/
theorem test_seal_short_key : (next? (exec .sealPt { sSeal with keyLen := 31 })).map State.err = some .input := by decide +kernel

/-- OPEN, V16, with the TOY fixture; and V17, one ciphertext bit flipped. -/
theorem test_open : (openBody toy sOpen).state.contents .pt = hello ∧
    (openBody toy { sOpen with ct := Memory.write sOpen.ct 0 0x19 }).err = .authentication := by decide +kernel

/-- OPEN, V20 and V21: a short ciphertext is AuthenticationError, a missing key InputError even then. -/
theorem test_open_malformed :
    (next? (exec .openCt { sOpen with ctLen := 15 })).map State.err = some .authentication ∧
    (next? (exec .openCt { sOpen with ctLen := 0, keyLen := 0 })).map State.err = some .input := by decide +kernel

/-- PACK, V22. -/
theorem test_pack : (next? (exec .pack sOpen)).map (fun t => (t.contents .blob, t.blobLen)) =
    some (nonceBytesV ++ adBytesV ++ ctV, 77) := by decide +kernel

/-- PACK, V23: CT_LEN = 15. -/
theorem test_pack_short : (next? (exec .pack { sOpen with ctLen := 15 })).map State.err = some .input := by decide +kernel

/-- UNPACK, V24, BLOB_LEN = 40: AD[0:16) = 18..27, AD[16:32) keep their old bytes. -/
theorem test_unpack : (next? (exec .unpack { sOpen with
      blob := Memory.writeBytes [] 0 ((List.range 40).map (BitVec.ofNat 8)), blobLen := 40 })).map
    (fun t => (t.nonceLen, t.adLen, t.ctLen, t.whole .ad)) =
      some (24, 16, 0, (List.range 16).map (fun i => BitVec.ofNat 8 (0x18 + i)) ++ adBytesV.drop 16) := by decide +kernel

/-- BUILD, V25. -/
theorem test_build : (next? (exec .build sBuild)).map (fun t => (t.contents .frame, t.frameLen)) =
    some ([0x23, 0x23, 0x23, 0x23, 0x23, 0x23, 0x41, 0x3D, 0x3D, 0x3D, 0x3D, 0x3D, 0x3D], 13) := by decide +kernel

/-- SCAN, V28 c. -/
theorem test_scan : (next? (exec .scan (put State.reset .frame ([0x78, 0x78] ++ frameOf [0x41] ++ [0x7A, 0x7A])))).map
    (fun t => (t.status, t.scanPos, t.contents .blob)) = some (0x20, 15, [0x41]) := by decide +kernel

/-- SCAN, V28 i: five `#` are not START. -/
theorem test_scan_none : (next? (exec .scan (put State.reset .frame ((frameOf [0x41]).drop 1)))).map
    (fun t => (t.status, t.scanPos, t.blobLen)) = some (0x05, 12, 0) := by decide +kernel

/-- EMBED, V30: pixels 0 to 7 and 48 to 55, and the frame is gone. -/
theorem test_embed : (next? (exec .embed sEmbed)).map (fun t =>
      ((List.range 8).map t.red, (List.range 8).map (fun p => t.red (48 + p)), t.frameLen, t.frame)) =
    some ([128, 128, 127, 128, 128, 128, 127, 127], [128, 127, 128, 128, 128, 128, 128, 127], 0, []) := by decide +kernel

/-- EMBED, V32: the edge values; frame byte 0x23 alone on eight pixels, red 0, 255, 0, 255, 128 ... -/
theorem test_embed_edges : (next? (exec .embed { put State.reset .frame [0x23] with
      imgW := 8, imgH := 1, img := [(4, 255), (12, 255), (16, 128), (20, 128), (24, 128), (28, 128)] })).map
    (fun t => (List.range 8).map t.red) = some [0, 254, 1, 254, 128, 128, 127, 127] := by decide +kernel

/-- EXTRACT, V36. -/
theorem test_extract : (next? (exec .extract sExtract)).map (fun t => (t.status, t.scanPos, t.contents .blob)) =
    some (0x20, 13, [0x41]) := by decide +kernel

/-- EXTRACT, V40: the image cut short, 91 pixels. -/
theorem test_extract_cut : (next? (exec .extract { sExtract with imgH := 7 })).map (fun t => (t.status, t.scanPos)) =
    some (0x15, 11) := by decide +kernel

/-- ENCODE, V44 third row, with the TOY fixture: 711 pixels are one too few for "hello"; the steps before EMBED stay. -/
theorem test_encode_one_pixel_short :
    let r := encodeBody toy { put (put State.reset .pw pw1) .pt hello with imgW := 711, imgH := 1, entropy := nonceBytesV ++ adBytesV }
    r.err = .capacity ∧ r.state.keyLen = 32 ∧ r.state.ctLen = 21 ∧ r.state.blobLen = 77 ∧ r.state.frameLen = 89 := by decide +kernel

/-- ENCODE, V44 second row, with the TOY fixture: no payload. -/
theorem test_encode_empty_payload :
    let r := encodeBody toy { put State.reset .pw pw1 with imgW := 711, imgH := 1, entropy := nonceBytesV ++ adBytesV }
    r.err = .input ∧ r.state.keyLen = 32 ∧ r.state.ctLen = 0 := by decide +kernel

/-- DECODE, V45 second row: a blob of 10 bytes is too short for a nonce. -/
theorem test_decode_short_blob :
    (next? (exec .decode { put State.reset .pw pw1 with imgW := 176, imgH := 1, img := imageOf (frameOf (List.replicate 10 1)) })).map
      (fun t => (t.status, t.scanPos, t.nonceLen, t.adLen, t.ctLen)) = some (0x22, 22, 10, 0, 0) := by decide +kernel

/-- CLR, V42: everything goes but the image and its shape. -/
theorem test_clr : (next? (exec .clr { sOpen with imgW := 64, imgH := 64, img := [(4, 9)], fsm := .done, scanPos := 13 })).map
    (fun t => (Memory.read t.key 0, Memory.read t.ct 20, t.ctLen, t.status, t.scanPos, t.imgW, Memory.read t.img 4)) =
      some (0, 0, 0, 0, 0, 64, 9) := by decide +kernel

/-! Witnesses: for each statement that has hypotheses, concrete data that meet all of them together, and each of its clauses at a boundary. -/

/-- The machine right after reset with the given accesses to come. -/
def pending (l : List HostEvent) : State := { State.reset with script := l }

theorem witness_DecodeSelectsTheTableRow :
    ∃ r ∈ opcodeTable, ∃ q ∈ opcodeTable, (0x0000000D : Word) &&& r.mask = r.pattern ∧ (0x0000000D : Word) &&& q.mask = q.pattern := by
  decide

theorem witness_StepRunsTheDecodedCommand :
    decode 0x0000000D = .ok .clr ∧ (pending [.write32 0 0x0000000D]).script = .write32 0 0x0000000D :: [] := by decide

theorem witness_IllegalWordSetsOnlyErr :
    ((0x00000000 : Word).toNat = 0 ∧ (pending [.write32 0 0x00000000]).script = .write32 0 0x00000000 :: []) ∧
    (0x0D < (0x0000000E : Word).toNat ∧ (pending [.write32 0 0x0000000E]).script = .write32 0 0x0000000E :: []) ∧
    (0x0D < (0xFFFFFFFF : Word).toNat ∧ (pending [.write32 0 0xFFFFFFFF]).script = .write32 0 0xFFFFFFFF :: []) := by decide

theorem witness_NothingPendingChangesNothing : State.reset.script = [] := rfl

theorem witness_RegisterReadAnswersAndChangesNothing :
    (pending [.read32 0x00]).script = .read32 (BitVec.ofNat 32 (4 * regNumber .cmd)) :: [] ∧
    (pending [.read32 0x04]).script = .read32 (BitVec.ofNat 32 (4 * regNumber .status)) :: [] ∧
    (pending [.read32 0x30]).script = .read32 (BitVec.ofNat 32 (4 * regNumber .scanPos)) :: [] := by decide

theorem witness_RegisterWriteStoresLegalValues :
    (Reg.imgW ≠ .cmd ∧ (pending [.write32 0x08 65535]).script = .write32 (BitVec.ofNat 32 (4 * regNumber .imgW)) 65535 :: []) ∧
    (Reg.imgW ≠ .cmd ∧ (pending [.write32 0x08 65536]).script = .write32 (BitVec.ofNat 32 (4 * regNumber .imgW)) 65536 :: []) ∧
    (Reg.len .nonce ≠ .cmd ∧
      (pending [.write32 0x14 25]).script = .write32 (BitVec.ofNat 32 (4 * regNumber (.len .nonce))) 25 :: []) ∧
    (Reg.status ≠ .cmd ∧ (pending [.write32 0x04 7]).script = .write32 (BitVec.ofNat 32 (4 * regNumber .status)) 7 :: []) := by decide

theorem witness_ReservedRegistersReadZeroIgnoreWrites :
    (13 ≤ 13 ∧ 13 ≤ 63 ∧ (pending [.read32 0x34]).script = .read32 (BitVec.ofNat 32 (4 * 13)) :: []) ∧
    (13 ≤ 63 ∧ 63 ≤ 63 ∧ (pending [.write32 0xFC 1]).script = .write32 (BitVec.ofNat 32 (4 * 63)) 1 :: []) := by decide

/-- Address 0x160 is the first past the KEY window. -/
theorem witness_UnmappedReadsZeroIgnoresWrites : 0x100 ≤ (0x160 : Addr).toNat ∧ (0x160 : Addr).toNat % 4 = 0 ∧
    (∀ x ∈ allSpaces, (0x160 : Addr).toNat < spaceBase defaultParams x ∨
      spaceBase defaultParams x + spaceSize defaultParams x ≤ (0x160 : Addr).toNat) ∧
    (∀ e, (pending [e]).params = defaultParams ∧ (pending [e]).script = e :: []) :=
  ⟨by decide, by decide, by decide, fun _ => ⟨rfl, rfl⟩⟩

/-- The first byte of PW and the last of NONCE and of IMG. -/
theorem witness_WindowReadAnswersAndChangesNothing :
    ∀ xo ∈ [(Space.buf .pw, 0), (Space.buf .nonce, 23), (Space.img, 2097151)], State.reset.params.legal = true ∧
      xo.2 < spaceSize State.reset.params xo.1 ∧
      (pending [.read8 (BitVec.ofNat 32 (spaceBase State.reset.params xo.1 + xo.2))]).script =
        .read8 (BitVec.ofNat 32 (spaceBase State.reset.params xo.1 + xo.2)) :: [] := by decide

theorem witness_WindowWriteStoresOneByte :
    ∀ xo ∈ [(Space.buf .pw, 0), (Space.buf .nonce, 23), (Space.img, 2097151)], State.reset.params.legal = true ∧
      xo.2 < spaceSize State.reset.params xo.1 ∧
      (pending [.write8 (BitVec.ofNat 32 (spaceBase State.reset.params xo.1 + xo.2)) 7]).script =
        .write8 (BitVec.ofNat 32 (spaceBase State.reset.params xo.1 + xo.2)) 7 :: [] := by decide

theorem witness_InadmissibleAccessesAreRefused :
    ((0x102 : Addr).toNat % 4 ≠ 0 ∧ (pending [.read32 0x102]).script = .read32 0x102 :: []) ∧
    ((0x100 : Addr).toNat % 4 = 0 ∧ 0x100 ≤ (0x100 : Addr).toNat ∧
      (∃ x ∈ allSpaces, spaceBase State.reset.params x ≤ (0x100 : Addr).toNat ∧
        (0x100 : Addr).toNat < spaceBase State.reset.params x + spaceSize State.reset.params x) ∧
      (pending [.write32 0x100 1]).script = .write32 0x100 1 :: []) ∧
    ((0xFF : Addr).toNat < 0x100 ∧ (pending [.write8 0xFF 1]).script = .write8 0xFF 1 :: []) ∧
    (pending [.read16 0]).script = .read16 0 :: [] := by decide

theorem witness_PasswordBytesAreNeverAnswered :
    (∀ a v, HostEvent.read8 0x1000 = .write32 a v → a.toNat ≠ 0) ∧ (pending [.read8 0x1000]).script = .read8 0x1000 :: [] :=
  ⟨fun _ _ h => HostEvent.noConfusion h, rfl⟩

theorem witness_ResetLeavesEverythingAbsent :
    (pending [.reset [(0, 1), (2097151, 5)]]).script = .reset [(0, 1), (2097151, 5)] :: [] ∧ Memory.wf [(0, 1), (2097151, 5)] ∧
    Memory.within [(0, 1), (2097151, 5)] (spaceSize State.reset.params .img) := by decide

/-- The states the vectors start from meet the invariant. -/
theorem witness_invariant : sDerive.Inv ∧ sSeal.Inv ∧ sOpen.Inv ∧ sBuild.Inv ∧ sEmbed.Inv ∧ sExtract.Inv ∧ sDecode.Inv ∧ sEncode.Inv := by
  refine ⟨?_, ?_, ?_, ?_, ?_, ?_, ?_, ?_⟩ <;> decide +kernel

theorem witness_DeriveWritesTheDerivedKey : (sDerive.Inv ∧ sDerive.len .pw ≠ 0 ∧ sDerive.len .nonce = 24) ∧
    State.reset.len .pw = 0 ∧ State.len { sDerive with nonceLen := 23 } .nonce ≠ 24 :=
  ⟨⟨witness_invariant.1, by decide, by decide⟩, by decide, by decide⟩

/-- Both states may be one; and a success is reached, with the TOY fixture. -/
theorem witness_DeriveIsDeterministic : sDerive.params = sDerive.params ∧ sDerive.contents .pw = sDerive.contents .pw ∧
    sDerive.contents .nonce = sDerive.contents .nonce ∧ (deriveBody toy sDerive).err = .success :=
  ⟨rfl, rfl, rfl, by decide +kernel⟩

theorem witness_SealWritesCiphertextWithTag : (sSeal.Inv ∧ sSeal.len .pt ≠ 0 ∧ sSeal.len .key = sSeal.params.keyBytes ∧
    sSeal.len .nonce = 24 ∧ sSeal.len .ad = 32) ∧ State.len { sSeal with keyLen := 31 } .key ≠ sSeal.params.keyBytes :=
  ⟨⟨witness_invariant.2.1, by decide, by decide, by decide, by decide⟩, by decide⟩

/-- The bare tag of V21a is the least ciphertext. -/
theorem witness_OpenWritesThePlaintextOrNothing :
    (∀ s ∈ [sOpen, { sOpen with ctLen := 16 }], s.Inv ∧ s.len .key = s.params.keyBytes ∧ s.len .nonce = 24 ∧ s.len .ad = 32 ∧
      16 ≤ s.len .ct) ∧ State.reset.len .key ≠ State.reset.params.keyBytes ∧
    (let s := { sOpen with ctLen := 15 }; s.len .key = s.params.keyBytes ∧ s.len .ct < 16) := by decide +kernel

/-- SEAL under the key of the one-byte password "A", in the second stand-in. -/
def sProbe : State := put (put (put (put State.reset .key (List.replicate 32 0x41)) .nonce nonceBytesV) .ad adBytesV) .pt hello
/-- The state that SEAL leaves. -/
def tProbe : State := (sealBody probe sProbe).state

/-- All three cases: nothing changed; bit 0 of the first ciphertext byte flipped; the key of the password "B". -/
theorem witness_SealAndOpenPromises :
    (let m := sProbe.params.keyBytes
     probe.RoundTrips m ∧ probe.DetectsTampering m ∧ probe.RejectsWrongKeys m) ∧
    (sProbe.Inv ∧ sealBody probe sProbe = ⟨tProbe, .success⟩ ∧ ∀ b, sameBuffer b tProbe tProbe) ∧
    (let u := { tProbe with ct := Memory.write tProbe.ct 0 0x69 }
     u.params = tProbe.params ∧ u.len .ad = tProbe.len .ad ∧ u.len .ct = tProbe.len .ct ∧ u.contents .ad = tProbe.contents .ad ∧
      oneBitApart (tProbe.contents .ct) (u.contents .ct)) ∧
    (let u := put tProbe .key (List.replicate 32 0x42)
     ([0x41] : List Byte) ≠ [0x42] ∧ u.params = tProbe.params ∧ u.lenReg .ct = tProbe.lenReg .ct ∧ u.buf .ct = tProbe.buf .ct ∧
      u.lenReg .ad = tProbe.lenReg .ad ∧ u.buf .ad = tProbe.buf .ad ∧
      (probe.kdf 32 [0x41] (sProbe.contents .nonce)).map Vector.toList = some (sProbe.contents .key) ∧
      (probe.kdf 32 [0x42] (sProbe.contents .nonce)).map Vector.toList = some (u.contents .key)) := by
  have h : (sealBody probe sProbe).err = .success := by decide +kernel
  refine ⟨⟨probe_roundTrips _, probe_detectsTampering _, probe_rejectsWrongKeys _⟩,
    ⟨?_, congrArg (CmdResult.mk _) h, fun _ => ⟨rfl, fun _ => rfl⟩⟩, ?_, ?_⟩
  · decide +kernel
  · unfold oneBitApart
    decide +kernel
  · decide +kernel

theorem witness_PackJoinsTheBlob :
    (∀ s ∈ [sOpen, { sOpen with ctLen := 16 }], s.Inv ∧ s.len .nonce = 24 ∧ s.len .ad = 32 ∧ 16 ≤ s.len .ct) ∧
    State.len { sOpen with ctLen := 15 } .ct < 16 := by decide +kernel

theorem witness_PackAndUnpackAreInverse :
    (sOpen.Inv ∧ ∃ t u, exec .pack sOpen = .next t ∧ t.err = .success ∧ exec .unpack t = .next u) ∧
    ((put State.reset .blob blob72).Inv ∧ 72 ≤ (put State.reset .blob blob72).len .blob ∧
      ∃ t u, exec .unpack (put State.reset .blob blob72) = .next t ∧ exec .pack t = .next u) := by
  refine ⟨⟨witness_invariant.2.2.1, _, _, rfl, ?_, rfl⟩, ?_, ?_, _, _, rfl, rfl⟩ <;> decide +kernel

theorem witness_BuildWrapsTheBlob : (sBuild.Inv ∧ sBuild.len .blob ≠ 0) ∧ State.reset.len .blob = 0 :=
  ⟨⟨witness_invariant.2.2.2.1, by decide⟩, by decide⟩

/-- No START; START and no END; both, seven `#` and seven `=` around an `A`. -/
theorem witness_ScannerTakesTheFirstSentinels :
    (∀ i, ¬ standsAt startSentinel [0x23, 0x23, 0x23, 0x23, 0x23] i) ∧
    (standsAt startSentinel startSentinel 0 ∧ (∀ i < 0, ¬ standsAt startSentinel startSentinel i) ∧
      ∀ i, 0 + 6 ≤ i → ¬ standsAt endSentinel startSentinel i) ∧
    (standsAt startSentinel (frameOf [0x41, 0x3D]) 0 ∧ 0 + 6 ≤ 7 ∧ standsAt endSentinel (frameOf [0x41, 0x3D]) 7 ∧
      ∀ i, 0 + 6 ≤ i → i < 7 → ¬ standsAt endSentinel (frameOf [0x41, 0x3D]) i) := by
  refine ⟨fun i h => ?_, ⟨by unfold standsAt; decide, fun i hi => absurd hi (Nat.not_lt_zero i), fun i hi h => ?_⟩,
    by unfold standsAt; decide, by decide, by unfold standsAt; decide, fun i hi hl => ?_⟩
  · exact absurd h.1 (by simp)
  · exact absurd h.1 (by simp [startSentinel]; omega)
  · obtain rfl : i = 6 := by omega
    unfold standsAt
    decide

theorem witness_ScanDeliversThePayload : (put State.reset .frame (frameOf [0x41])).Inv ∧ State.reset.Inv := by
  constructor <;> decide +kernel

/-- A clean blob, and V26's blob `A=`, which is cut at offset 1. -/
theorem witness_ScanUndoesBuildExactlyOnCleanBlobs : cleanBlob [0x41] ∧ ¬ cleanBlob [0x41, 0x3D] ∧
    1 < [0x41, 0x3D].length ∧ standsAt endSentinel ([0x41, 0x3D] ++ endSentinel) 1 ∧
    ∀ i < 1, ¬ standsAt endSentinel ([0x41, 0x3D] ++ endSentinel) i := by
  unfold standsAt; decide

theorem witness_ExpandIsMostSignificantBitFirst : 7 < 8 * [(0x01 : Byte)].length ∧ (expand [0x01])[7]? = some true := by decide

theorem witness_StreamGroupsParities : 12 < 104 / 8 ∧ ((sExtract.stream 104).getD 12 0).toNat = 0x3D := by decide +kernel

/-- V30: the frame fits exactly. V33: no frame. V34: 65535 by 65535. V31: 103 pixels. -/
theorem witness_EmbedAdjustsEveryPixel :
    (sEmbed.Inv ∧ sEmbed.len .frame ≠ 0 ∧ sEmbed.npix ≤ sEmbed.params.imgMaxPix ∧ 8 * sEmbed.len .frame ≤ sEmbed.npix) ∧
    State.reset.len .frame = 0 ∧
    (let s := { sEmbed with imgW := 65535, imgH := 65535 }; s.params.imgMaxPix < s.npix) ∧
    (let s := { sEmbed with imgW := 103, imgH := 1 }; s.len .frame ≠ 0 ∧ s.npix ≤ s.params.imgMaxPix ∧ s.npix < 8 * s.len .frame) :=
  ⟨⟨witness_invariant.2.2.2.2.1, by decide, by decide, by decide⟩, by decide, by decide, by decide⟩

theorem witness_EmbedGuarantees : sEmbed.Inv ∧ ∃ t, exec .embed sEmbed = .next t ∧ t.err = .success :=
  ⟨witness_invariant.2.2.2.2.1, _, rfl, by decide +kernel⟩

/-- A success (V30) and a refusal (V31, 103 pixels). -/
theorem witness_EmbedDiscardsTheFrameOnSuccess :
    (sEmbed.Inv ∧ ∃ t, exec .embed sEmbed = .next t ∧ t.err = .success) ∧
    ∃ t, exec .embed { sEmbed with imgW := 103, imgH := 1 } = .next t ∧ t.err ≠ .success :=
  ⟨⟨witness_invariant.2.2.2.2.1, _, rfl, by decide +kernel⟩, _, rfl, by decide +kernel⟩

/-- An image with a payload, the empty image, and V38's image of 1024 by 513 pixels. -/
theorem witness_ExtractDeliversThePayload :
    (sExtract.Inv ∧ sExtract.npix ≤ sExtract.params.imgMaxPix) ∧ (State.reset.Inv ∧ State.reset.npix ≤ State.reset.params.imgMaxPix) ∧
    (let s := { State.reset with imgW := 1024, imgH := 513 }; s.params.imgMaxPix < s.npix) :=
  ⟨⟨witness_invariant.2.2.2.2.2.1, by decide⟩, ⟨by decide, by decide⟩, by decide⟩

theorem witness_ExtractUndoesEmbed : ∃ t, sEmbed.Inv ∧ [(0x41 : Byte)] ≠ [] ∧ sEmbed.contents .frame = frameOf [0x41] ∧
    exec .embed sEmbed = .next t ∧ t.err = .success ∧ ∀ p < t.npix, (t.red p).toNat % 2 = (t.red p).toNat % 2 :=
  ⟨_, witness_invariant.2.2.2.2.1, by decide, by decide +kernel, rfl, by decide +kernel, fun _ _ => rfl⟩

/-- Red values 3 where they were 1, and 2 where they were 0. -/
theorem witness_ExtractReadsOnlyParities : ∃ t, exec .extract { sExtract with imgW := 2, imgH := 2 } = .next t ∧
    ∀ p < 4, (Memory.read [(0, 2), (4, 4), (8, 3)] (p * 4)).toNat % 2 = (sExtract.red p).toNat % 2 := ⟨_, rfl, by decide +kernel⟩

theorem witness_EncodeHidesThePayload : sEncode.Inv ∧ sEncode.len .pw ≠ 0 ∧ sEncode.len .pt ≠ 0 ∧
    8 * (sEncode.len .pt + 84) ≤ sEncode.npix ∧ sEncode.npix ≤ sEncode.params.imgMaxPix :=
  ⟨witness_invariant.2.2.2.2.2.2.2, by decide, by decide, by decide, by decide⟩

/-- An image that holds the least blob OPEN can take. -/
theorem witness_DecodeRecoversThePayload : sDecode.Inv ∧ sDecode.len .pw ≠ 0 ∧ sDecode.npix ≤ sDecode.params.imgMaxPix ∧
    scanStream (sDecode.stream sDecode.npix) = ⟨.done, 84, some blob72⟩ ∧ 72 ≤ blob72.length :=
  ⟨witness_invariant.2.2.2.2.2.2.1, by decide, by decide, by decide +kernel, by decide⟩

/-- An image that is too large; one without sentinels; blobs of 23 and of 24 bytes. -/
theorem witness_DecodeReportsTheFirstFailure :
    (let s := { State.reset with imgW := 1024, imgH := 513 }; s.params.imgMaxPix < s.npix) ∧
    (State.reset.npix ≤ State.reset.params.imgMaxPix ∧ scanStream (State.reset.stream State.reset.npix) = ⟨.scanningStart, 0, none⟩) ∧
    (∀ n ∈ [23, 24], let s := { sDecode with imgW := BitVec.ofNat 32 (8 * (n + 12)), img := imageOf (frameOf (List.replicate n 0)) }
      s.Inv ∧ s.npix ≤ s.params.imgMaxPix ∧ s.len .pw ≠ 0 ∧
        scanStream (s.stream s.npix) = ⟨.done, n + 12, some (List.replicate n 0)⟩) :=
  ⟨by decide, by decide, by decide +kernel⟩

theorem witness_DecodeUndoesEncode : ∃ k : Vector Byte sEncode.params.keyBytes, toy.RoundTrips sEncode.params.keyBytes ∧ sEncode.Inv ∧
    1 ≤ sEncode.len .pw ∧ 1 ≤ sEncode.len .pt ∧ 8 * (sEncode.len .pt + 84) ≤ sEncode.npix ∧ sEncode.npix ≤ sEncode.params.imgMaxPix ∧
    toy.kdf sEncode.params.keyBytes (sEncode.contents .pw) ((sEncode.drawBytes 56).take 24) = some k ∧
    cleanBlob (sEncode.drawBytes 56 ++
      (toy.aeadSeal k.toList ((sEncode.drawBytes 56).take 24) (sEncode.contents .pt) ((sEncode.drawBytes 56).drop 24)).toList) ∧
    (let u := (encodeBody toy sEncode).state
     u.params = sEncode.params ∧ sameBuffer .pw sEncode u ∧ u.imgW = sEncode.imgW ∧ u.imgH = sEncode.imgH ∧
      ∀ p < sEncode.npix, (u.red p).toNat % 2 = ((encodeBody toy sEncode).state.red p).toNat % 2) :=
  ⟨_, toy_roundTrips _, witness_invariant.2.2.2.2.2.2.2, by decide, by decide, by decide, by decide, rfl, by decide +kernel,
    (Frame.encode toy sEncode).params, (Frame.encode toy sEncode).sameBuffer (by decide), (Frame.encode toy sEncode).imgW,
    (Frame.encode toy sEncode).imgH, fun _ _ => rfl⟩

theorem witness_FailedOpeningKeepsThePlaintext :
    (∃ t, exec .decode State.reset = .next t ∧ t.err ≠ .success) ∧ (∃ t, exec .openCt { sOpen with ctLen := 15 } = .next t ∧ t.err ≠ .success) :=
  ⟨⟨_, rfl, by decide⟩, ⟨_, rfl, by decide +kernel⟩⟩

theorem witness_CompositesAreTheirSequences : (∃ t, exec .encode State.reset = .next t ∧ t.err ≠ .success) ∧
    ∃ t, exec .decode State.reset = .next t := ⟨⟨_, rfl, by decide⟩, _, rfl⟩

theorem witness_FailureLeavesTheImageWhole : ∃ t, exec .embed { sEmbed with imgW := 103, imgH := 1 } = .next t ∧ t.err ≠ .success :=
  ⟨_, rfl, by decide +kernel⟩

theorem witness_NoPasswordNoKey : State.reset.len .pw = 0 ∧ (∃ t, exec .derive State.reset = .next t) ∧
    (∃ t, exec .encode State.reset = .next t) ∧ ∃ t, exec .decode State.reset = .next t :=
  ⟨by decide, ⟨_, rfl⟩, ⟨_, rfl⟩, _, rfl⟩

theorem witness_EmptyPayloadIsRefused : sOpen.len .pt = 0 ∧ (∃ t, exec .sealPt sOpen = .next t) ∧ ∃ t, exec .encode sOpen = .next t :=
  ⟨by decide, ⟨_, rfl⟩, _, rfl⟩

theorem witness_ClearIsResetButForTheImage : sOpen.Inv := witness_invariant.2.2.1

/-- A host access, a command and the reset input. -/
theorem witness_EveryStepKeepsTheInvariant :
    ∀ e ∈ [HostEvent.write32 0x08 65535, .write32 0 0x0000000D, .write8 0x117 1, .reset [(7, 7), (7, 0)]],
      (pending [e]).Inv ∧ ∃ t, step (pending [e]) = .next t := by
  intro e he
  simp only [List.mem_cons, List.mem_nil_iff, or_false] at he
  rcases he with rfl | rfl | rfl | rfl <;> exact ⟨by decide, _, rfl⟩

theorem witness_ResetHasTheInvariant : State.reset.params.legal = true := by decide

theorem witness_AnErrorChangesNothingElse :
    (∃ t, exec .sealPt State.reset = .next t ∧ t.err ≠ .success) ∧ ∃ t, exec .extract State.reset = .next t ∧ t.err ≠ .success :=
  ⟨⟨_, rfl, by decide⟩, ⟨_, rfl, by decide⟩⟩

/-- Each clause: an absent operand, one byte too few, and the key present with the others short. -/
theorem witness_AbsentOperandErrors :
    State.reset.len .pw = 0 ∧ { sDerive with nonceLen := 23 }.len .nonce ≠ 24 ∧ State.reset.len .pt = 0 ∧
    State.reset.len .key ≠ State.reset.params.keyBytes ∧
    (let s := { sOpen with ctLen := 15 }; s.len .key = s.params.keyBytes ∧ s.len .ct < 16) ∧ State.reset.len .blob = 0 ∧
    State.reset.len .frame = 0 ∧ (let s := { sEmbed with imgW := 0 }; s.len .frame ≠ 0 ∧ s.npix = 0) ∧ State.reset.npix = 0 := by
  decide +kernel

/-- 13 by 8 and 104 by 1 pixels. -/
theorem witness_OnlyThePixelCountMatters : (104 : Word).toNat * (1 : Word).toNat = sEmbed.npix ∧ ∃ t, exec .embed sEmbed = .next t :=
  ⟨by decide, _, rfl⟩

end Sys2Proof.Tests
end

section
/-! PROOF. Every step keeps the invariant (O49): first the operations of the port, then one command, then one host event by what each
access can answer. -/

namespace Sys2Proof.Machine

/-! The operations of the port keep the invariant. -/

/-- A state with the memories and length registers of an invariant one needs only a legal shape and scan position. -/
theorem State.Inv.of_sameStorage {s t : State} (h : s.Inv) (hparams : t.params = s.params) (hlen : ∀ b, t.lenReg b = s.lenReg b)
    (hbuf : ∀ b, t.buf b = s.buf b) (himg : t.img = s.img) (hw : t.imgW.toNat ≤ dimMax) (hh : t.imgH.toNat ≤ dimMax)
    (hpos : t.scanPos.toNat ≤ s.params.frameMax) : t.Inv := by
  refine .of_parts (by rw [hparams]; exact h.legal) hw hh (by rw [hparams]; exact hpos) (fun b => ?_) (fun b => ?_) ?_
  · rw [State.len, hlen, hparams]; exact h.len_le b
  · rw [hbuf, hparams]; exact h.buf_ok b
  · rw [himg, hparams]; exact h.img_ok

/-- The host's list and the last answer are in no part of the invariant. -/
theorem State.Inv.setPort {s : State} (h : s.Inv) (l : List HostEvent) (r : Reply) : State.Inv { s with script := l, reply := r } := by
  have ⟨_, hw, hh, hpos, _⟩ := h
  exact h.of_sameStorage rfl (fun b => by cases b <;> rfl) (fun b => by cases b <;> rfl) rfl hw hh hpos

theorem State.Inv.accept {s : State} (h : s.Inv) (rest : List HostEvent) : (s.accept rest).Inv := h.setPort rest .none

theorem State.Inv.answer {s : State} (h : s.Inv) (r : Reply) : (s.answer r).Inv := h.setPort s.script r

/-- IMG_W and IMG_H may take any values up to 65535 (10_state.md R26). -/
theorem State.Inv.setShape {s : State} (h : s.Inv) {v w : Word} (hv : v.toNat ≤ dimMax) (hw : w.toNat ≤ dimMax) :
    State.Inv { s with imgW := v, imgH := w } := by
  have ⟨_, _, _, hpos, _⟩ := h
  exact h.of_sameStorage rfl (fun b => by cases b <;> rfl) (fun b => by cases b <;> rfl) rfl hv hw hpos

/-- A length register may take any value up to its maximum (10_state.md R27). -/
theorem State.Inv.setLenReg {s : State} (h : s.Inv) {b : Buf} {v : Word} (hv : v.toNat ≤ bufSize s.params b) :
    (s.setLenReg b v).Inv := by
  have ⟨_, hw, hh, hpos, _⟩ := h
  refine .of_parts (by simpa using h.legal) (by simpa using hw) (by simpa using hh) (by simpa using hpos) (fun c => ?_)
    (fun c => by simpa using h.buf_ok c) (by simpa using h.img_ok)
  simp only [State.len, State.lenReg_setLenReg, State.params_setLenReg]
  split
  · subst c; exact hv
  · exact h.len_le c

/-- A buffer may be replaced by a canonical memory of its size. -/
theorem State.Inv.setBuf {s : State} (h : s.Inv) {b : Buf} {m : Memory} (hwf : Memory.wf m)
    (hin : Memory.within m (bufSize s.params b)) : (s.setBuf b m).Inv := by
  have ⟨_, hw, hh, hpos, _⟩ := h
  refine .of_parts (by simpa using h.legal) (by simpa using hw) (by simpa using hh) (by simpa using hpos)
    (fun c => by simpa [State.len] using h.len_le c) (fun c => ?_) (by simpa using h.img_ok)
  simp only [State.buf_setBuf, State.params_setBuf]
  split
  · subst c; exact ⟨hwf, hin⟩
  · exact h.buf_ok c

/-- A register write stores nothing above the register's maximum (10_state.md R26, R27). -/
theorem State.Inv.writeReg {s : State} (h : s.Inv) (r : Reg) (v : Word) : (writeReg s r v).Inv := by
  have ⟨_, hw, hh, _⟩ := h
  cases r with
  | cmd | status | scanPos => exact h
  | imgW =>
    simp only [Machine.writeReg]
    split
    · next hv => exact h.setShape hv hh
    · exact h
  | imgH =>
    simp only [Machine.writeReg]
    split
    · next hv => exact h.setShape hw hv
    · exact h
  | len b =>
    simp only [Machine.writeReg]
    split
    · next hv => exact h.setLenReg hv
    · exact h

/-- A byte stored inside its window keeps the invariant (20_memory.md R52). -/
theorem State.Inv.writeWindow {s : State} (h : s.Inv) {x : Space} {off : Nat} (hoff : off < spaceSize s.params x) (v : Byte) :
    (writeWindow s x off v).Inv := by
  cases x with
  | buf b => exact h.setBuf (Memory.wf_write (h.buf_ok b).1 off v) (Memory.within_write (h.buf_ok b).2 hoff v)
  | img => exact h.setImg (Memory.wf_write h.img_ok.1 off v) (Memory.within_write h.img_ok.2 hoff v)

/-- The reset input leaves the invariant, with any image and from any state of legal parameters (10_state.md R38). -/
theorem State.Inv.resetInput {s : State} (hlegal : s.params.legal = true) (image : List Host.Cell) : (s.resetInput image).Inv := by
  have hbuf (b : Buf) : (s.resetInput image).buf b = [] := by cases b <;> rfl
  have hlen (b : Buf) : (s.resetInput image).len b = 0 := by cases b <;> rfl
  refine .of_parts hlegal (Nat.zero_le _) (Nat.zero_le _) (Nat.zero_le _) (fun b => ?_) (fun b => ?_)
    ⟨Memory.wf_ofCells _ _, Memory.within_ofCells _ _⟩
  · rw [hlen]; exact Nat.zero_le _
  · rw [hbuf]; exact ⟨Memory.wf_nil, by simp⟩

/-! A command keeps the invariant (00_scope.md R8: "no command can overflow a buffer"). -/

theorem foldl_discard_keeps_inv (l : List Buf) {s : State} (h : s.Inv) : (l.foldl State.discard s).Inv := by
  induction l generalizing s with
  | nil => exact h
  | cons b l ih => exact ih (h.discard b)

theorem clrBody_keeps_inv {s : State} (h : s.Inv) : (clrBody s).state.Inv :=
  State.Inv.setScan (foldl_discard_keeps_inv allBufs h) (Nat.zero_le _) .scanningStart

/-- Ending a command writes STATUS.ERR alone. -/
theorem finish_keeps_inv {r : CmdResult} {t : State} (h : r.state.Inv) (ht : finish r = .next t) : t.Inv := by
  rw [finish_next] at ht
  subst ht
  exact h.setErr r.err

theorem exec_keeps_inv {i : Instr} {s t : State} (h : s.Inv) (ht : exec i s = .next t) : t.Inv := by
  cases i with
  | gen => exact finish_keeps_inv (genBody_keeps_inv h) ht
  | derive => exact finish_keeps_inv (deriveBody_keeps_inv Config.crypto h) ht
  | sealPt => exact finish_keeps_inv (sealBody_keeps_inv Config.crypto h) ht
  | openCt => exact finish_keeps_inv (openBody_keeps_inv Config.crypto h) ht
  | pack => exact finish_keeps_inv (packBody_keeps_inv h) ht
  | unpack => exact finish_keeps_inv (unpackBody_keeps_inv h) ht
  | build => exact finish_keeps_inv (buildBody_keeps_inv h) ht
  | scan => exact finish_keeps_inv (scanBody_keeps_inv h) ht
  | embed => exact finish_keeps_inv (embedBody_keeps_inv h) ht
  | extract => exact finish_keeps_inv (extractBody_keeps_inv h) ht
  | encode => exact finish_keeps_inv (encodeBody_keeps_inv Config.crypto h) ht
  | decode => exact finish_keeps_inv (decodeBody_keeps_inv Config.crypto h) ht
  | clr => exact finish_keeps_inv (clrBody_keeps_inv h) ht

/-- A write to CMD keeps the invariant, whether its word is a command or illegal. -/
theorem command_keeps_inv {s t : State} {w : Word} (h : s.Inv) (ht : command s w = .next t) : t.Inv := by
  unfold command at ht
  split at ht
  · exact exec_keeps_inv h ht
  · exact finish_keeps_inv (r := raise s .illegalCommand) h ht

/-! What each host access can answer (20_memory.md R52). -/

/-- A byte access leads inside its window. -/
theorem access8_inside {P : Params} {a : Addr} {x : Space} {off : Nat} (h : access8 P a = .ok (some (x, off))) :
    off < spaceSize P x := by
  unfold access8 at h
  split at h <;> cases h
  next hl => exact (locate_window_inside hl).2

theorem hostRead32_next {s t : State} {a : Addr} (h : hostRead32 s a = .next t) : ∃ r, t = s.answer r := by
  unfold hostRead32 at h
  split at h <;> cases h <;> exact ⟨_, rfl⟩

theorem hostRead8_next {s t : State} {a : Addr} (h : hostRead8 s a = .next t) : ∃ r, t = s.answer r := by
  unfold hostRead8 at h
  split at h <;> cases h <;> exact ⟨_, rfl⟩

theorem hostWrite32_next {s t : State} {a : Addr} {v : Word} (h : hostWrite32 s a v = .next t) :
    command s v = .next t ∨ (∃ r, t = writeReg s r v) ∨ t = s := by
  unfold hostWrite32 at h
  split at h
  · cases h
  · exact .inl h
  · cases h; exact .inr (.inl ⟨_, rfl⟩)
  · cases h; exact .inr (.inr rfl)

theorem hostWrite8_next {s t : State} {a : Addr} {v : Byte} (h : hostWrite8 s a v = .next t) :
    (∃ x off, off < spaceSize s.params x ∧ t = writeWindow s x off v) ∨ t = s := by
  unfold hostWrite8 at h
  split at h
  · cases h
  · next hx => cases h; exact .inl ⟨_, _, access8_inside hx, rfl⟩
  · cases h; exact .inr rfl

/-! One event, one step. -/

theorem perform_keeps_inv {s t : State} {e : HostEvent} (h : s.Inv) (ht : perform s e = .next t) : t.Inv := by
  cases e with
  | read32 a => obtain ⟨r, rfl⟩ := hostRead32_next ht; exact h.answer r
  | read8 a => obtain ⟨r, rfl⟩ := hostRead8_next ht; exact h.answer r
  | write32 a v =>
    rcases hostWrite32_next ht with hc | ⟨r, rfl⟩ | rfl
    · exact command_keeps_inv h hc
    · exact h.writeReg r v
    · exact h
  | write8 a v =>
    rcases hostWrite8_next ht with ⟨x, off, hoff, rfl⟩ | rfl
    · exact h.writeWindow hoff v
    · exact h
  | read16 | write16 => cases ht
  | reset image => cases ht; exact .resetInput h.legal image

theorem step_keeps_inv {s t : State} (h : s.Inv) (ht : step s = .next t) : t.Inv := by
  cases hs : s.script with
  | nil => rw [step_nil hs] at ht; cases ht; exact h
  | cons e rest => rw [step_cons hs] at ht; exact perform_keeps_inv (h.accept rest) ht

/-- Settles O49, by the host's event: an access writes inside a window or a register's maximum, a command keeps the invariant body by body,
and the reset input starts over. -/
theorem everyStepKeepsTheInvariant : Obligations.EveryStepKeepsTheInvariant := fun _ _ => step_keeps_inv

end Sys2Proof.Machine
end

section
/-! PROOF. What SEAL and OPEN promise together (O22, 41_aead.md R115). -/

namespace Sys2Proof.Machine

/-- What a SEAL that succeeded says: operands of full length, nothing written but CT, and in CT the ciphertext with its tag
(41_aead.md R110). -/
structure Sealed (C : Crypto) (s t : State) : Prop where
  lengths : cipherLengths s.params.keyBytes (s.contents .key) (s.contents .nonce) (s.contents .ad)
  frame : Frame [.ct] false false false s t
  ciphertext : t.contents .ct = (C.aeadSeal (s.contents .key) (s.contents .nonce) (s.contents .pt) (s.contents .ad)).toList

theorem Sealed.of_success {C : Crypto} {s t : State} (hs : s.Inv) (h : sealBody C s = ⟨t, .success⟩) : Sealed C s t := by
  rcases sealBody_cases C s with ⟨_, e⟩ | ⟨_, hk, hn, ha, e⟩
  · rw [e] at h; cases h
  · rw [e] at h; cases h
    refine ⟨by simp [cipherLengths, hk, hn, ha], Frame.store _ _ _, (delivered.store s .ct ?_).2.1⟩
    have hp := hs.len_le .pt
    have hb := bufSize_le hs.legal .pt
    simp only [Vector.length_toList, State.length_contents]
    omega

/-- The ciphertext has room for its tag. -/
theorem Sealed.len_ct {C : Crypto} {s t : State} (h : Sealed C s t) : t.len .ct = s.len .pt + 16 := by
  rw [← State.length_contents, h.ciphertext, Vector.length_toList, State.length_contents]

/-- A buffer SEAL does not write reads after it as before. -/
theorem Sealed.contents_eq {C : Crypto} {s t : State} (h : Sealed C s t) {b : Buf} (hb : b ≠ .ct) : t.contents b = s.contents b :=
  (h.frame.sameBuffer (by simpa using hb)).contents_eq

/-- OPEN with key, nonce and associated data of full length and a ciphertext that does not verify, however short (41_aead.md R114). -/
theorem openBody_none (C : Crypto) {u : State}
    (hl : cipherLengths u.params.keyBytes (u.contents .key) (u.contents .nonce) (u.contents .ad))
    (h : C.aeadOpen (u.contents .key) (u.contents .nonce) (u.contents .ct) (u.contents .ad) = none) :
    openBody C u = ⟨u, .authentication⟩ := by
  rcases openBody_cases C u with ⟨hk, _⟩ | ⟨_, _, e⟩ | ⟨_, _, _, _, ⟨_, e⟩ | ⟨p, hp, _⟩⟩
  · exact absurd (by simpa using hl.1) hk
  · exact e
  · exact e
  · rw [h] at hp; cases hp

/-- OPEN where the tag verifies, the plaintext as a list. -/
theorem openBody_some (C : Crypto) {u : State} {p : List Byte}
    (hl : cipherLengths u.params.keyBytes (u.contents .key) (u.contents .nonce) (u.contents .ad)) (hct : 16 ≤ u.len .ct)
    (h : (C.aeadOpen (u.contents .key) (u.contents .nonce) (u.contents .ct) (u.contents .ad)).map Vector.toList = some p) :
    openBody C u = complete (u.store .pt p) := by
  simp only [cipherLengths, State.length_contents] at hl
  rcases openBody_cases C u with ⟨hk, _⟩ | ⟨_, hn, _⟩ | ⟨_, _, _, _, ⟨hq, _⟩ | ⟨q, hq, e⟩⟩
  · exact absurd hl.1 hk
  · omega
  · rw [hq] at h; cases h
  · rw [hq, Option.map_some, Option.some.injEq] at h
    rw [e, h]

section
variable {C : Crypto} {s t u : State} (h : Sealed C s t) (hparams : u.params = t.params) (hnonce : sameBuffer .nonce t u)
include h hparams hnonce

/-- R115 under P-RT: nothing changed, so OPEN gives the payload back. -/
theorem Sealed.open_same (hs : s.Inv) (hrt : C.RoundTrips s.params.keyBytes) (hkey : sameBuffer .key t u) (had : sameBuffer .ad t u)
    (hct : sameBuffer .ct t u) : ∃ v, openBody C u = ⟨v, .success⟩ ∧ v.contents .pt = s.contents .pt := by
  have hk : u.contents .key = s.contents .key := hkey.contents_eq.trans (h.contents_eq (by decide))
  have hn : u.contents .nonce = s.contents .nonce := hnonce.contents_eq.trans (h.contents_eq (by decide))
  have ha : u.contents .ad = s.contents .ad := had.contents_eq.trans (h.contents_eq (by decide))
  have hl : u.len .ct = s.len .pt + 16 := hct.len_eq.trans h.len_ct
  have hopen : openBody C u = complete (u.store .pt (s.contents .pt)) := by
    refine openBody_some C ?_ (by omega) ?_
    · rw [hparams, h.frame.params, hk, hn, ha]; exact h.lengths
    · rw [hk, hn, ha, hct.contents_eq, h.ciphertext]; exact hrt _ _ _ _ h.lengths
  refine ⟨_, hopen, (delivered.store u .pt ?_).2.1⟩
  have hp := hs.len_le .pt
  have hb := bufSize_le hs.legal .pt
  rw [State.length_contents]
  omega

/-- R115 under P-TAMPER: one bit of the ciphertext or of the associated data flipped. -/
theorem Sealed.open_tampered (htamper : C.DetectsTampering s.params.keyBytes) (hkey : sameBuffer .key t u) (hlen : u.len .ad = t.len .ad)
    (hflip : (oneBitApart (t.contents .ct) (u.contents .ct) ∧ u.contents .ad = t.contents .ad) ∨
      (u.contents .ct = t.contents .ct ∧ oneBitApart (t.contents .ad) (u.contents .ad))) :
    openBody C u = ⟨u, .authentication⟩ := by
  have hk : u.contents .key = s.contents .key := hkey.contents_eq.trans (h.contents_eq (by decide))
  have hn : u.contents .nonce = s.contents .nonce := hnonce.contents_eq.trans (h.contents_eq (by decide))
  have ha : t.contents .ad = s.contents .ad := h.contents_eq (by decide)
  have hla : (u.contents .ad).length = (s.contents .ad).length := by
    rw [State.length_contents, hlen, ← State.length_contents, ha]
  obtain ⟨hct, had⟩ := htamper _ _ (s.contents .pt) _ h.lengths
  refine openBody_none C ?_ ?_
  · rw [hparams, h.frame.params, hk, hn, cipherLengths, hla]; exact h.lengths
  · rw [hk, hn]
    rw [h.ciphertext, ha] at hflip
    rcases hflip with ⟨hbit, hsame⟩ | ⟨hsame, hbit⟩
    · rw [hsame]; exact hct _ hbit
    · rw [hsame]; exact had _ hbit

/-- R115 under P-WRONGKEY: the key of another password. -/
theorem Sealed.open_wrongKey {pw pw' : List Byte} {k k' : Vector Byte s.params.keyBytes} (hwrong : C.RejectsWrongKeys s.params.keyBytes)
    (hpw : pw ≠ pw') (hk : C.kdf s.params.keyBytes pw (s.contents .nonce) = some k)
    (hk' : C.kdf s.params.keyBytes pw' (s.contents .nonce) = some k') (hkey : s.contents .key = k.toList)
    (hkey' : u.contents .key = k'.toList) (had : sameBuffer .ad t u) (hct : sameBuffer .ct t u) :
    openBody C u = ⟨u, .authentication⟩ := by
  have hn : u.contents .nonce = s.contents .nonce := hnonce.contents_eq.trans (h.contents_eq (by decide))
  have ha : u.contents .ad = s.contents .ad := had.contents_eq.trans (h.contents_eq (by decide))
  obtain ⟨_, hln, hla⟩ := h.lengths
  refine openBody_none C ?_ ?_
  · rw [hparams, h.frame.params, hkey', hn, ha]; exact ⟨Vector.length_toList, hln, hla⟩
  · rw [hkey', hn, ha, hct.contents_eq, h.ciphertext, hkey]
    exact hwrong pw pw' _ _ _ k k' ⟨Vector.length_toList, hln, hla⟩ hpw hk hk'

end

/-- Settles O22: the successful SEAL left its operands and the ciphertext in place, so OPEN asks the cipher what the three properties
answer. -/
theorem sealAndOpenPromises : Obligations.SealAndOpenPromises := by
  refine ⟨fun _ => ⟨rfl, rfl⟩, fun C s t u hs hseal hparams hnonce => ?_⟩
  have h := Sealed.of_success hs hseal
  exact ⟨h.open_same hparams hnonce hs, fun htamper hkey hlen _ => h.open_tampered hparams hnonce htamper hkey hlen,
    fun _ _ _ _ => h.open_wrongKey hparams hnonce⟩

end Sys2Proof.Machine
end

section
/-! PROOF. What reset leaves (O16, O50; 10_state.md R38, 70_reset_and_hazards.md R200). -/

namespace Sys2Proof.Machine

@[simp] theorem State.lenReg_resetInput (s : State) (image : List Host.Cell) (b : Buf) : (s.resetInput image).lenReg b = 0 := by
  cases b <;> rfl

@[simp] theorem State.buf_resetInput (s : State) (image : List Host.Cell) (b : Buf) : (s.resetInput image).buf b = [] := by
  cases b <;> rfl

/-- `State.reset` is what the reset input leaves there when IMG gets no contents, so what holds of the one holds of the other. -/
theorem State.resetInput_reset : State.reset.resetInput [] = State.reset := rfl

/-- Every internal buffer is absent, its bytes 0x00. -/
theorem State.resetInput_absent (s : State) (image : List Host.Cell) (b : Buf) :
    (s.resetInput image).lenReg b = 0 ∧ ∀ a, Memory.read ((s.resetInput image).buf b) a = 0 := by
  simp [Memory.read]

/-- Settles O16: the step with a reset event pending is the reset input, and `State.reset` is a case of it. -/
theorem resetLeavesEverythingAbsent : Obligations.ResetLeavesEverythingAbsent := by
  refine ⟨fun s image rest hs => ?_, ?_⟩
  · exact ⟨(s.accept rest).resetInput image, step_cons hs, rfl, rfl, rfl, rfl, rfl, State.resetInput_absent _ image,
      rfl, rfl, rfl, ⟨rfl, rfl⟩, fun hwf hin => Memory.ofCells_eq hwf hin⟩
  · rw [← State.resetInput_reset]
    exact ⟨rfl, rfl, rfl, rfl, rfl, State.resetInput_absent _ []⟩

/-- Settles O50: the reset input keeps the parameters and leaves everything the invariant bounds at 0 or empty, IMG cut to its size. -/
theorem resetHasTheInvariant : Obligations.ResetHasTheInvariant := by
  refine ⟨?_, fun s image hlegal => .resetInput hlegal image⟩
  rw [← State.resetInput_reset]
  exact .resetInput (by decide) []

end Sys2Proof.Machine
end

section
/-! PROOF. Host accesses that reach no register (O10, 10_state.md R30), and that no access but a command depends on the password bytes
(O15, 10_state.md R31). -/

namespace Sys2Proof.Machine

/-! A 32-bit access that leads to no register: a reserved number or an unmapped address (20_memory.md R52, R64). -/

theorem hostRead32_of_access_none {s : State} {a : Addr} (h : access32 s.params a = .ok none) :
    hostRead32 s a = .next (s.answer (.word 0)) := by
  simp [hostRead32, h]

theorem hostWrite32_of_access_none {s : State} {a : Addr} (h : access32 s.params a = .ok none) (v : Word) :
    hostWrite32 s a v = .next s := by
  simp [hostWrite32, h]

theorem access32_reserved (P : Params) {n : Nat} (hlo : 13 ≤ n) (hhi : n ≤ 63) : access32 P (BitVec.ofNat 32 (4 * n)) = .ok none := by
  rw [access32_reg P n hhi, regOfNumber_reserved hlo]

/-- Settles O10: the address of a reserved number leads to no register. -/
theorem reservedRegistersReadZeroIgnoreWrites : Obligations.ReservedRegistersReadZeroIgnoreWrites := by
  intro s n v rest hlo hhi
  have hnone : access32 (s.accept rest).params (BitVec.ofNat 32 (4 * n)) = .ok none := access32_reserved _ hlo hhi
  exact ⟨fun hs => (step_cons hs).trans (hostRead32_of_access_none hnone),
    fun hs => (step_cons hs).trans (hostWrite32_of_access_none hnone v)⟩

/-! Only address 0 leads to CMD. -/

theorem regNumber_of_regOfNumber {n : Nat} {r : Reg} (h : regOfNumber n = some r) : regNumber r = n := by
  simpa using List.find?_some h

theorem access32_cmd {P : Params} {a : Addr} (h : access32 P a = .ok (some .cmd)) : a.toNat = 0 := by
  unfold access32 at h
  split at h
  · cases h
  · next haligned =>
    split at h
    · have hzero : 0 = a.toNat / 4 := regNumber_of_regOfNumber (Except.ok.inj h)
      omega
    · cases h
    · cases h

/-! What the port's operations do when PW holds other bytes: they read the same and store the same. -/

theorem readReg_setPw (s : State) (m : Memory) (r : Reg) : readReg (s.setBuf .pw m) r = readReg s r := by
  cases r with
  | len b => exact s.lenReg_setBuf .pw b m
  | cmd | status | imgW | imgH | scanPos => rfl

theorem setLenReg_setPw (s : State) (m : Memory) (b : Buf) (v : Word) :
    (s.setBuf .pw m).setLenReg b v = (s.setLenReg b v).setBuf .pw m := by
  cases b <;> rfl

theorem writeReg_setPw (s : State) (m : Memory) (r : Reg) (v : Word) :
    writeReg (s.setBuf .pw m) r v = (writeReg s r v).setBuf .pw m := by
  cases r with
  | cmd | status | scanPos => rfl
  | imgW | imgH => simp only [writeReg]; split <;> rfl
  | len b =>
    simp only [writeReg, State.params_setBuf]
    split
    · exact setLenReg_setPw s m b v
    · rfl

/-- The PW window reads 0x00, and no other window shows PW (10_state.md R31). -/
theorem readWindow_setPw (s : State) (m : Memory) (x : Space) (off : Nat) :
    readWindow (s.setBuf .pw m) x off = readWindow s x off := by
  cases x with
  | img => rfl
  | buf b => cases b <;> rfl

/-- A byte stored in PW makes the two passwords other ones; stored elsewhere, it leaves both. -/
theorem writeWindow_setPw (s : State) (m : Memory) (x : Space) (off : Nat) (v : Byte) :
    ∃ n, writeWindow (s.setBuf .pw m) x off v = (writeWindow s x off v).setBuf .pw n := by
  cases x with
  | img => exact ⟨m, rfl⟩
  | buf b =>
    cases b with
    | pw => exact ⟨Memory.write m off v, rfl⟩
    | nonce | ad | key | pt | ct | blob | frame => exact ⟨m, rfl⟩

/-! Two outcomes that differ at most in PW, access by access. -/

/-- The second outcome is the first but for the bytes of PW: the same refusal, or a next state that is the first one's with PW
replaced. -/
inductive SameButPw : Host.Outcome State Fault Refusal → Host.Outcome State Fault Refusal → Prop where
  /-- both answer, and the states differ at most in PW -/
  | next (t : State) (n : Memory) : SameButPw (.next t) (.next (t.setBuf .pw n))
  /-- both refuse, for the same reason -/
  | refused (r : Refusal) : SameButPw (.refused r) (.refused r)

theorem SameButPw.next_of_eq {t u : State} {n : Memory} (h : u = t.setBuf .pw n) : SameButPw (.next t) (.next u) := h ▸ .next t n

section

variable (s : State) (m : Memory)

theorem hostRead32_sameButPw (a : Addr) : SameButPw (hostRead32 s a) (hostRead32 (s.setBuf .pw m) a) := by
  unfold hostRead32
  rw [State.params_setBuf]
  rcases access32 s.params a with e | _ | r
  · exact .refused e
  · exact .next (s.answer _) m
  · simp only [readReg_setPw]
    exact .next (s.answer _) m

theorem hostWrite32_sameButPw {a : Addr} (ha : a.toNat ≠ 0) (v : Word) :
    SameButPw (hostWrite32 s a v) (hostWrite32 (s.setBuf .pw m) a v) := by
  unfold hostWrite32
  rw [State.params_setBuf]
  rcases hr : access32 s.params a with e | _ | r
  · exact .refused e
  · exact .next s m
  · cases r with
    | cmd => exact absurd (access32_cmd hr) ha
    | status | imgW | imgH | len | scanPos => exact .next_of_eq (writeReg_setPw s m _ v)

theorem hostRead8_sameButPw (a : Addr) : SameButPw (hostRead8 s a) (hostRead8 (s.setBuf .pw m) a) := by
  unfold hostRead8
  rw [State.params_setBuf]
  rcases access8 s.params a with e | _ | ⟨x, off⟩
  · exact .refused e
  · exact .next (s.answer _) m
  · simp only [readWindow_setPw]
    exact .next (s.answer _) m

theorem hostWrite8_sameButPw (a : Addr) (v : Byte) : SameButPw (hostWrite8 s a v) (hostWrite8 (s.setBuf .pw m) a v) := by
  unfold hostWrite8
  rw [State.params_setBuf]
  rcases access8 s.params a with e | _ | ⟨x, off⟩
  · exact .refused e
  · exact .next s m
  · obtain ⟨n, hn⟩ := writeWindow_setPw s m x off v
    exact .next_of_eq hn

/-- No event but a write to CMD depends on the password bytes. -/
theorem perform_sameButPw {e : HostEvent} (he : ∀ a v, e = .write32 a v → a.toNat ≠ 0) :
    SameButPw (perform s e) (perform (s.setBuf .pw m) e) := by
  cases e with
  | read32 a => exact hostRead32_sameButPw s m a
  | write32 a v => exact hostWrite32_sameButPw s m (he a v rfl) v
  | read8 a => exact hostRead8_sameButPw s m a
  | write8 a v => exact hostWrite8_sameButPw s m a v
  | read16 a | write16 a => exact .refused _
  | reset image => exact .next (s.resetInput image) []

end

theorem step_sameButPw {s : State} (m : Memory) {e : HostEvent} {rest : List HostEvent} (he : ∀ a v, e = .write32 a v → a.toNat ≠ 0)
    (hs : s.script = e :: rest) : SameButPw (step s) (step (s.setBuf .pw m)) := by
  rw [step_cons hs, step_cons ((s.script_setBuf .pw m).trans hs)]
  exact perform_sameButPw (s.accept rest) m he

/-- Settles O15, event by event: an access reads and stores the same whatever PW holds, a byte written to PW aside, and reset empties
PW. -/
theorem passwordBytesAreNeverAnswered : Obligations.PasswordBytesAreNeverAnswered := by
  intro s m e rest he hs
  have hstep := step_sameButPw m he hs
  generalize step s = o, step (s.setBuf .pw m) = p at hstep ⊢
  cases hstep with
  | next t n => exact ⟨t.reply_setBuf .pw n, rfl⟩
  | refused r => rfl

end Sys2Proof.Machine
end

section
/-! PROOF. Who writes what (O51, 10_state.md R39): every command completes, and its body's frame is that of its row. -/

namespace Sys2Proof.Machine

/-- The commands that may write red bytes of IMG (10_state.md R39). -/
def writesImage : Instr → Bool
  | .embed | .encode => true
  | .gen | .derive | .sealPt | .openCt | .pack | .unpack | .build | .scan | .extract | .decode | .clr => false

/-- The commands that draw from the entropy source (45_system.md R170, 44_composite.md R160). -/
def drawsEntropy : Instr → Bool
  | .gen | .encode => true
  | .derive | .sealPt | .openCt | .pack | .unpack | .build | .scan | .embed | .extract | .decode | .clr => false

theorem writesImage_eq_false {i : Instr} (hembed : i ≠ .embed) (hencode : i ≠ .encode) : writesImage i = false := by
  cases i with
  | embed => exact absurd rfl hembed
  | encode => exact absurd rfl hencode
  | _ => rfl

theorem drawsEntropy_eq_false {i : Instr} (hgen : i ≠ .gen) (hencode : i ≠ .encode) : drawsEntropy i = false := by
  cases i with
  | gen => exact absurd rfl hgen
  | encode => exact absurd rfl hencode
  | _ => rfl

/-- A command ends with its body's frame: STATUS.ERR, written last, is in none. -/
theorem finish_frame {ws : List Buf} {sc im en : Bool} {s : State} {r : CmdResult} (h : Frame ws sc im en s r.state) :
    ∃ t, finish r = .next t ∧ Frame ws sc im en s t :=
  ⟨_, rfl, h.setErr r.err⟩

/-- Every command answers a next state, from every state, and that state differs from the last within the command's row alone. -/
theorem exec_frame (i : Instr) (s : State) :
    ∃ t, exec i s = .next t ∧ Frame (writtenBuffers i) (writesScanner i) (writesImage i) (drawsEntropy i) s t := by
  cases i with
  | gen => exact finish_frame (Frame.gen s)
  | derive => exact finish_frame (Frame.derive Config.crypto s)
  | sealPt => exact finish_frame (Frame.seals Config.crypto s)
  | openCt => exact finish_frame (Frame.opens Config.crypto s)
  | pack => exact finish_frame (Frame.pack s)
  | unpack => exact finish_frame (Frame.unpack s)
  | build => exact finish_frame (Frame.build s)
  | scan => exact finish_frame (Frame.scan s)
  | embed => exact finish_frame (Frame.embed s)
  | extract => exact finish_frame (Frame.extract s)
  | encode => exact finish_frame (Frame.encode Config.crypto s)
  | decode => exact finish_frame (Frame.decode Config.crypto s)
  | clr => exact finish_frame (Frame.clear s)

/-- Settles O51, from the frame of each command. -/
theorem commandsWriteOnlyTheirOwn : Obligations.CommandsWriteOnlyTheirOwn := by
  intro i s
  obtain ⟨t, ht, hf⟩ := exec_frame i s
  refine ⟨t, ht, hf.buffersKept, fun hsc => ⟨hf.fsm hsc, hf.scanPos hsc⟩, hf.imgW, hf.imgH, fun hembed hencode => ?_, hf.other,
    hf.portKept, fun hgen hencode => ?_⟩
  · rw [writesImage_eq_false hembed hencode] at hf
    exact hf.imageKept.2.2
  · rw [drawsEntropy_eq_false hgen hencode] at hf
    exact hf.entropyKept

end Sys2Proof.Machine
end

section
/-! PROOF. The host accesses (20_memory.md section 1): a register read and written (O8, O9), a byte of a window read and written (O12,
O13), an unmapped address (O11), the accesses that are refused (O14), and no access at all (O7). -/

namespace Sys2Proof.Machine

/-- Settles O7: with the host's list empty the step stands still. -/
theorem nothingPendingChangesNothing : Obligations.NothingPendingChangesNothing := fun _ => step_nil

/-! Registers (10_state.md section 2). -/

theorem access32_regNumber (P : Params) (r : Reg) : access32 P (BitVec.ofNat 32 (4 * regNumber r)) = .ok (some r) := by
  rw [access32_reg P _ ((regNumber_le r).trans (by decide)), regOfNumber_regNumber]

theorem hostRead32_reg (s : State) (r : Reg) :
    hostRead32 s (BitVec.ofNat 32 (4 * regNumber r)) = .next (s.answer (.word (readReg s r))) := by
  simp only [hostRead32, access32_regNumber]

theorem hostWrite32_reg (s : State) {r : Reg} (hr : r ≠ .cmd) (v : Word) :
    hostWrite32 s (BitVec.ofNat 32 (4 * regNumber r)) v = .next (writeReg s r v) := by
  unfold hostWrite32
  rw [access32_regNumber]
  cases r with
  | cmd => exact absurd rfl hr
  | status | imgW | imgH | len | scanPos => rfl

/-- STATUS as a number: ERR in bits [3:0], FSM in bits [5:4] (10_state.md R24). -/
theorem State.status_eq (s : State) : s.status = BitVec.ofNat 32 (s.err.code.toNat + 16 * s.fsm.code.toNat) := by
  have hfields : ∀ (f : BitVec 2) (e : BitVec 4), (0 : BitVec 26) ++ f ++ e = BitVec.ofNat 32 (e.toNat + 16 * f.toNat) := by decide
  exact hfields s.fsm.code s.err.code

/-- Settles O8: the address leads to the register, and what it reads does not depend on the host's list. -/
theorem registerReadAnswersAndChangesNothing : Obligations.RegisterReadAnswersAndChangesNothing := by
  intro s r rest hs
  rw [step_cons hs]
  refine (hostRead32_reg _ r).trans ?_
  cases r with
  | cmd | imgW | imgH | scanPos => rfl
  | status => rw [← State.status_eq]; rfl
  | len b => simp only [readReg, State.lenReg_accept]; rfl

/-- Writing a length register with what it holds changes nothing. -/
@[simp] theorem State.setLenReg_lenReg (s : State) (b : Buf) : s.setLenReg b (s.lenReg b) = s := by
  cases b <;> rfl

theorem writeReg_imgW (s : State) (v : Word) :
    writeReg s .imgW v = { s with imgW := if v.toNat ≤ 65535 then v else s.imgW } := by
  by_cases hv : v.toNat ≤ 65535
  · simp only [writeReg, dimMax, hv, if_true]
  · simp only [writeReg, dimMax, hv, if_false]

theorem writeReg_imgH (s : State) (v : Word) :
    writeReg s .imgH v = { s with imgH := if v.toNat ≤ 65535 then v else s.imgH } := by
  by_cases hv : v.toNat ≤ 65535
  · simp only [writeReg, dimMax, hv, if_true]
  · simp only [writeReg, dimMax, hv, if_false]

theorem writeReg_len (s : State) (b : Buf) (v : Word) :
    writeReg s (.len b) v = s.setLenReg b (if v.toNat ≤ bufSize s.params b then v else s.lenReg b) := by
  by_cases hv : v.toNat ≤ bufSize s.params b
  · simp only [writeReg, hv, if_true]
  · simp only [writeReg, hv, if_false, State.setLenReg_lenReg]

/-- Settles O9: a value above the register's maximum is the same as writing back what the register held. -/
theorem registerWriteStoresLegalValues : Obligations.RegisterWriteStoresLegalValues := by
  intro s r v rest hr hs
  rw [step_cons hs]
  refine (hostWrite32_reg _ hr v).trans (congrArg _ ?_)
  cases r with
  | cmd | status | scanPos => rfl
  | imgW => exact writeReg_imgW _ v
  | imgH => exact writeReg_imgH _ v
  | len b => rw [writeReg_len, State.params_accept, State.lenReg_accept]; rfl

/-! Windows (20_memory.md R63). -/

@[simp] theorem State.mem_accept (s : State) (rest : List HostEvent) (x : Space) : (s.accept rest).mem x = s.mem x := by
  cases x with
  | buf b => exact s.buf_accept rest b
  | img => rfl

theorem hostRead8_window {s : State} (h : s.params.legal = true) {x : Space} {off : Nat} (ho : off < spaceSize s.params x) :
    hostRead8 s (BitVec.ofNat 32 (spaceBase s.params x + off)) = .next (s.answer (.byte (readWindow s x off))) := by
  simp only [hostRead8, access8_window h ho]

theorem hostWrite8_window {s : State} (h : s.params.legal = true) {x : Space} {off : Nat} (ho : off < spaceSize s.params x) (v : Byte) :
    hostWrite8 s (BitVec.ofNat 32 (spaceBase s.params x + off)) v = .next (writeWindow s x off v) := by
  simp only [hostWrite8, access8_window h ho]

/-- Only the PW window hides its bytes (10_state.md R31). -/
theorem readWindow_eq (s : State) (x : Space) (off : Nat) :
    readWindow s x off = if x = .buf .pw then 0 else Memory.read (s.mem x) off := by
  cases x with
  | img => rfl
  | buf b => cases b <;> rfl

/-- Settles O12: under legal parameters the address leads to that byte of that window. -/
theorem windowReadAnswersAndChangesNothing : Obligations.WindowReadAnswersAndChangesNothing := by
  intro s x off rest hlegal hoff hs
  have hread := hostRead8_window (s := s.accept rest) hlegal hoff
  rw [readWindow_eq, State.mem_accept] at hread
  exact (step_cons hs).trans hread

/-- Settles O13: the step replaces one byte of one memory, which touches no register and no other memory. -/
theorem windowWriteStoresOneByte : Obligations.WindowWriteStoresOneByte := by
  intro s x off v rest hlegal hoff hs
  have hmem (y : Space) : (writeWindow (s.accept rest) x off v).mem y = if y = x then Memory.write (s.mem x) off v else s.mem y := by
    simp [writeWindow, State.mem_setMem]
  refine ⟨_, (step_cons hs).trans (hostWrite8_window (s := s.accept rest) hlegal hoff v), ?_, fun a ha => ?_, fun y hy a => ?_, ?_, ?_,
    State.params_setMem _ _ _, State.script_setMem _ _ _, State.reply_setMem _ _ _⟩
  · simp [hmem]
  · simp [hmem, ha]
  · simp [hmem, hy]
  · obtain ⟨herr, hfsm, hw, hh, hpos, hlen⟩ : registersKept (s.accept rest) (writeWindow (s.accept rest) x off v) :=
      State.registersKept_setMem _ x _
    exact ⟨herr, hfsm, hw, hh, hpos, fun b => (hlen b).trans (s.lenReg_accept rest b)⟩
  · exact ⟨State.entropy_setMem _ _ _, State.drawn_setMem _ _ _⟩

/-! Unmapped addresses (20_memory.md R64). -/

theorem access8_unmapped {P : Params} {a : Addr} (h : locate P a.toNat = .unmapped) : access8 P a = .ok none := by
  simp only [access8, h]

theorem access32_unmapped {P : Params} {a : Addr} (h : locate P a.toNat = .unmapped) (ha : a.toNat % 4 = 0) :
    access32 P a = .ok none := by
  simp only [access32, h, ha, ne_eq, not_true, if_false]

theorem hostRead8_of_access_none {s : State} {a : Addr} (h : access8 s.params a = .ok none) :
    hostRead8 s a = .next (s.answer (.byte 0)) := by
  simp only [hostRead8, h]

theorem hostWrite8_of_access_none {s : State} {a : Addr} (h : access8 s.params a = .ok none) (v : Byte) :
    hostWrite8 s a v = .next s := by
  simp only [hostWrite8, h]

/-- Settles O11: the address leads nowhere, so each of the four accesses does. -/
theorem unmappedReadsZeroIgnoresWrites : Obligations.UnmappedReadsZeroIgnoresWrites := by
  intro s a v b rest hregs hwindows
  have hloc : locate (s.accept rest).params a.toNat = .unmapped := by
    refine locate_unmapped hregs fun x hx => ?_
    have hout := hwindows x hx
    rw [Bool.eq_false_iff, ne_eq, inWindow_iff]
    exact fun hin => by rw [State.params_accept] at hin; omega
  exact ⟨fun hs => (step_cons hs).trans (hostRead8_of_access_none (access8_unmapped hloc)),
    fun hs => (step_cons hs).trans (hostWrite8_of_access_none (access8_unmapped hloc) b),
    fun ha hs => (step_cons hs).trans (hostRead32_of_access_none (access32_unmapped hloc ha)),
    fun ha hs => (step_cons hs).trans (hostWrite32_of_access_none (access32_unmapped hloc ha) v)⟩

/-! Refused accesses (20_memory.md R51, R56). -/

theorem access32_misaligned {P : Params} {a : Addr} (h : a.toNat % 4 ≠ 0) : access32 P a = .error (.misalignedAccess a) := by
  simp only [access32, if_pos h]

theorem access32_inWindow {P : Params} {a : Addr} (ha : a.toNat % 4 = 0) (hregs : csrBytes ≤ a.toNat) {x : Space}
    (hx : inWindow P a.toNat x = true) : access32 P a = .error (.wordAccessToWindow a) := by
  obtain ⟨y, off, hloc⟩ := locate_some_window hregs hx
  simp only [access32, hloc, ha, ne_eq, not_true, if_false]

theorem access8_register {P : Params} {a : Addr} (h : a.toNat < csrBytes) : access8 P a = .error (.byteAccessToRegister a) := by
  simp only [access8, locate_register h]

/-- A 32-bit access that fails its checks is refused for that reason, read or write. -/
theorem step_refused32 {s : State} {a : Addr} {v : Word} {rest : List HostEvent} {e : Refusal} (h : access32 s.params a = .error e)
    (hs : s.script = .read32 a :: rest ∨ s.script = .write32 a v :: rest) : step s = .refused e := by
  have hacc : access32 (s.accept rest).params a = .error e := h
  rcases hs with hs | hs <;> rw [step_cons hs]
  · simp only [perform, hostRead32, hacc]
  · simp only [perform, hostWrite32, hacc]

/-- An 8-bit access that fails its check is refused for that reason, read or write. -/
theorem step_refused8 {s : State} {a : Addr} {v : Byte} {rest : List HostEvent} {e : Refusal} (h : access8 s.params a = .error e)
    (hs : s.script = .read8 a :: rest ∨ s.script = .write8 a v :: rest) : step s = .refused e := by
  have hacc : access8 (s.accept rest).params a = .error e := h
  rcases hs with hs | hs <;> rw [step_cons hs]
  · simp only [perform, hostRead8, hacc]
  · simp only [perform, hostWrite8, hacc]

/-- Settles O14, by the check each access fails. -/
theorem inadmissibleAccessesAreRefused : Obligations.InadmissibleAccessesAreRefused := by
  intro s a v b h rest
  refine ⟨fun ha => step_refused32 (access32_misaligned ha), fun ha hregs ⟨x, _, hx⟩ => ?_,
    fun hregs => step_refused8 (access8_register hregs), fun hs => ?_⟩
  · exact step_refused32 (access32_inWindow ha hregs ((inWindow_iff _ _ x).mpr hx))
  · rcases hs with hs | hs <;> exact step_cons hs

end Sys2Proof.Machine
end

section
/-! PROOF. A command word in its byte lanes (O4, 20_memory.md R55). -/

namespace Sys2Proof

/-- The four lanes of a word, put together again, are the word. -/
@[simp] theorem wordOfLanes_extractLsb' (w : Word) :
    wordOfLanes (w.extractLsb' 0 8) (w.extractLsb' 8 8) (w.extractLsb' 16 8) (w.extractLsb' 24 8) = w := by
  have h32 : w.extractLsb' 24 8 ++ w.extractLsb' 16 8 = w.extractLsb' 16 16 := BitVec.extractLsb'_append_extractLsb'_eq_extractLsb' rfl
  have h321 : w.extractLsb' 16 16 ++ w.extractLsb' 8 8 = w.extractLsb' 8 24 := BitVec.extractLsb'_append_extractLsb'_eq_extractLsb' rfl
  calc wordOfLanes (w.extractLsb' 0 8) (w.extractLsb' 8 8) (w.extractLsb' 16 8) (w.extractLsb' 24 8)
      = w.extractLsb' 8 24 ++ w.extractLsb' 0 8 := by rw [wordOfLanes, h32, h321]
    _ = w := (word_eq_fields w).symm

/-- The 32 bits of a word stand for that word. -/
@[simp] theorem tableWord_toNat (w : Word) : tableWord 32 w.toNat = w := by
  rw [tableWord, Nat.mod_eq_of_lt w.isLt, BitVec.ofNat_toNat, BitVec.setWidth_eq]

/-- Settles O4: the lanes of the word give the word back before it is decoded. -/
theorem tableBitsDecodeAsTheWord : Obligations.TableBitsDecodeAsTheWord := fun w =>
  ⟨wordOfLanes_extractLsb' w, by simp only [decodeTableWord, tableWord_toNat, wordLanes, wordOfLanes_extractLsb']⟩

end Sys2Proof
end

section
/-! PROOF. Decoding and encoding agree (O1, O3), and a word decodes to the row of the opcode table it selects (O2; 30_encoding.md R81, R82,
R85). -/

namespace Sys2Proof

/-- Settles O1: a word is its two fields, and the opcode map and its inverse agree. -/
theorem decodeEncodeAgree : Obligations.DecodeEncodeAgree := by
  intro w i
  rw [decode_ok_iff]
  constructor
  · rintro ⟨hzero, hop⟩
    calc w = zeroField w ++ opcodeField w := word_eq_fields w
      _ = encode i := by rw [hzero, opcodeOf_of_instrOfOpcode hop, encode]
  · rintro rfl
    exact ⟨zeroField_encode i, by rw [opcodeField_encode, instrOfOpcode_opcodeOf]⟩

@[simp] theorem decode_encode (i : Instr) : decode (encode i) = .ok i := (decodeEncodeAgree _ i).mpr rfl

theorem encode_injective : Function.Injective encode := by
  intro i j h
  have hok : Except.ok i = (Except.ok j : Except IllegalWord Instr) := by rw [← decode_encode i, h, decode_encode]
  exact Except.ok.inj hok

/-- The words of the thirteen commands are 0x01 to 0x0D. -/
theorem encode_range (i : Instr) : 0x01 ≤ (encode i).toNat ∧ (encode i).toNat ≤ 0x0D := by
  cases i <;> decide

/-- The row of the opcode table that a command's word stands in: every bit of the word counts. -/
def rowOf (i : Instr) : OpcodeRow := ⟨encode i, BitVec.allOnes 32, i⟩

theorem rowOf_mem_opcodeTable (i : Instr) : rowOf i ∈ opcodeTable := by
  cases i <;> decide

theorem eq_rowOf_of_mem_opcodeTable : ∀ r ∈ opcodeTable, r = rowOf r.instr := by decide

/-- A word selects a command's row exactly when it is that command's word. -/
theorem rowOf_selected_iff (w : Word) (i : Instr) : w &&& (rowOf i).mask = (rowOf i).pattern ↔ w = encode i := by
  rw [rowOf, BitVec.and_allOnes]

/-- A word selects a row of the table exactly when it is the word of the row's command. -/
theorem row_selected_iff {r : OpcodeRow} (hr : r ∈ opcodeTable) (w : Word) : w &&& r.mask = r.pattern ↔ w = encode r.instr := by
  rw [eq_rowOf_of_mem_opcodeTable r hr]
  exact rowOf_selected_iff w r.instr

/-- Settles O2: the rows are those of the thirteen commands, and no two commands share a word. -/
theorem decodeSelectsTheTableRow : Obligations.DecodeSelectsTheTableRow := by
  refine ⟨fun w i => ⟨fun h => ?_, ?_⟩, fun w r hr q hq hwr hwq => ?_⟩
  · exact ⟨rowOf i, rowOf_mem_opcodeTable i, rfl, (rowOf_selected_iff w i).mpr ((decodeEncodeAgree w i).mp h)⟩
  · rintro ⟨r, hr, rfl, hw⟩
    exact (decodeEncodeAgree w r.instr).mpr ((row_selected_iff hr w).mp hw)
  · have hword : encode r.instr = encode q.instr := ((row_selected_iff hr w).mp hwr).symm.trans ((row_selected_iff hq w).mp hwq)
    rw [eq_rowOf_of_mem_opcodeTable r hr, eq_rowOf_of_mem_opcodeTable q hq, encode_injective hword]

/-- Settles O3: ten fixed words, each decoded. -/
theorem wordsOfTheSpecDecode : Obligations.WordsOfTheSpecDecode := by
  unfold Obligations.WordsOfTheSpecDecode
  decide

end Sys2Proof
end

section
/-! PROOF. A word written to CMD (30_encoding.md R80, R82): it runs the command it decodes to (O5), or it is illegal (O6). -/

namespace Sys2Proof.Machine

/-- Register 0 is CMD: a 32-bit write to address 0 hands its word to the decoder. -/
theorem step_write_cmd {s : State} {w : Word} {rest : List HostEvent} (h : s.script = .write32 0 w :: rest) :
    step s = command (s.accept rest) w := by
  rw [step_cons h]
  simp only [perform, hostWrite32, access32_zero]

theorem command_of_decode_ok {w : Word} {i : Instr} (h : decode w = .ok i) (s : State) : command s w = exec i s := by
  simp only [command, h]

theorem command_of_decode_error {w : Word} {e : IllegalWord} (h : decode w = .error e) (s : State) : command s w = answerIllegal s := by
  simp only [command, h]

/-- A word outside 0x01 to 0x0D is the word of no command. -/
theorem decode_error_of_range {w : Word} (h : w.toNat = 0 ∨ 0x0D < w.toNat) : ∃ e, decode w = .error e := by
  cases hd : decode w with
  | error e => exact ⟨e, rfl⟩
  | ok i =>
    obtain ⟨hlo, hhi⟩ := encode_range i
    rw [← (decodeEncodeAgree w i).mp hd] at hlo hhi
    omega

/-- Settles O5: the write reaches CMD, and the word that stands for a command's encoding decodes to that command. -/
theorem stepRunsTheDecodedCommand : Obligations.StepRunsTheDecodedCommand := by
  refine ⟨fun s w i rest hd hs => (step_write_cmd hs).trans (command_of_decode_ok hd _), fun s i => ?_⟩
  have hs : (s.withFetchWord 32 (encode i).toNat).script = .write32 0 (encode i) :: s.script := by
    rw [State.withFetchWord, tableWord_toNat]
    rfl
  exact (step_write_cmd hs).trans (command_of_decode_ok (decode_encode i) _)

/-- Settles O6: the word decodes to no command, and the answer to that raises the error and writes nothing else. -/
theorem illegalWordSetsOnlyErr : Obligations.IllegalWordSetsOnlyErr := by
  intro s w rest hw hs
  obtain ⟨e, he⟩ := decode_error_of_range hw
  calc step s = command (s.accept rest) w := step_write_cmd hs
    _ = answerIllegal (s.accept rest) := command_of_decode_error he _
    _ = .next { s with script := rest, reply := .none, err := .illegalCommand } := rfl

end Sys2Proof.Machine
end

section
/-! PROOF. What DERIVE does (O18, 40_kdf.md R100), and that it depends on the password and the nonce alone (O19, R101). -/

namespace Sys2Proof.Machine

/-- DERIVE without a password, or with a nonce that is not of full length (40_kdf.md R100). -/
theorem deriveBody_absent (C : Crypto) {s : State} (h : s.len .pw = 0 ∨ s.len .nonce ≠ 24) :
    deriveBody C s = raise s .keyDerivation := by
  rcases deriveBody_cases C s with ⟨_, e⟩ | ⟨hp, hn, _⟩ | ⟨hp, hn, _⟩
  · exact e
  · exact absurd hn (h.resolve_left hp)
  · exact absurd hn (h.resolve_left hp)

/-- Settles O18, by the cases of DERIVE's body: an absent operand, no key, and a key delivered to KEY with the frame of a store. -/
theorem deriveWritesTheDerivedKey : Obligations.DeriveWritesTheDerivedKey := by
  refine ⟨rfl, fun s h => congrArg finish (deriveBody_absent Config.crypto h), fun s hs hp hn => ?_⟩
  rcases deriveBody_cases Config.crypto s with ⟨h, _⟩ | ⟨_, _, hk, e⟩ | ⟨_, _, k, hk, e⟩
  · exact absurd hn (h.resolve_left hp)
  · change Config.kdf _ _ _ = none at hk
    exact ⟨_, congrArg finish e, by rw [hk]; rfl⟩
  · change Config.kdf _ _ _ = some k at hk
    have hlen : k.toList.length = s.params.keyBytes := Vector.length_toList
    have hlt : k.toList.length < 2 ^ 32 := by
      have hb : s.params.keyBytes ≤ 2 ^ 24 := bufSize_le hs.legal .key
      omega
    have hdel := (delivered.store s .key hlt).setErr .success
    have hf := (Frame.store s .key k.toList).setErr .success
    refine ⟨_, congrArg finish e, ?_⟩
    rw [hk]
    exact ⟨rfl, hdel, hdel.1.trans hlen, hf.buffersKept, hf.imageKept, hf.scannerKept, hf.portKept, hf.entropyKept⟩

/-- A fixed-size operand delivered in full is the whole buffer. -/
theorem State.whole_store {s : State} {b : Buf} {v : List Byte} (h : v.length = bufSize s.params b) : (s.store b v).whole b = v := by
  rw [State.whole, State.params_store, ← h, State.buf_store, if_pos rfl]
  exact Memory.readBytes_writeBytes _ 0 v

/-- On one password and one nonce DERIVE raises the same error or delivers the same key of full length, whatever else the two states
hold. -/
theorem deriveBody_agree (C : Crypto) {s u : State} (hparams : u.params = s.params) (hpw : u.contents .pw = s.contents .pw)
    (hnonce : u.contents .nonce = s.contents .nonce) :
    (deriveBody C s = raise s .keyDerivation ∧ deriveBody C u = raise u .keyDerivation) ∨
    ∃ k : List Byte, k.length = s.params.keyBytes ∧ deriveBody C s = complete (s.store .key k) ∧
      deriveBody C u = complete (u.store .key k) := by
  have hlp : u.len .pw = s.len .pw := by rw [← State.length_contents, hpw, State.length_contents]
  have hln : u.len .nonce = s.len .nonce := by rw [← State.length_contents, hnonce, State.length_contents]
  rcases deriveBody_cases C s with ⟨h, e⟩ | ⟨_, _, hk, e⟩ | ⟨hp, hn, k, hk, e⟩
  · rw [← hlp, ← hln] at h
    exact .inl ⟨e, deriveBody_absent C h⟩
  · refine .inl ⟨e, deriveBody_none C ?_⟩
    rw [hparams, hpw, hnonce, hk, Option.map_none]
  · refine .inr ⟨k.toList, Vector.length_toList, e, deriveBody_some C (hlp ▸ hp) (hln.trans hn) ?_⟩
    rw [hparams, hpw, hnonce, hk, Option.map_some]

/-- Settles O19: both bodies raise the same error, or both deliver one key that fills KEY. -/
theorem deriveIsDeterministic : Obligations.DeriveIsDeterministic := by
  refine ⟨fun _ => rfl, fun C s u hparams hpw hnonce => ?_⟩
  rcases deriveBody_agree C hparams hpw hnonce with ⟨es, eu⟩ | ⟨k, hk, es, eu⟩ <;> rw [es, eu]
  · exact ⟨rfl, fun h => nomatch h⟩
  · have hlen : (u.store .key k).lenReg .key = (s.store .key k).lenReg .key := by simp
    have hs : (s.store .key k).whole .key = k := State.whole_store hk
    have hu : (u.store .key k).whole .key = k := State.whole_store (by rw [hparams]; exact hk)
    exact ⟨rfl, fun _ => ⟨hlen, hu.trans hs.symm⟩⟩

end Sys2Proof.Machine
end

section
/-! PROOF. What SEAL (O20, 41_aead.md R110) and OPEN (O21, R114) do. -/

namespace Sys2Proof.Machine

/-- The length register of a buffer, in a state of the invariant, is far below its 32 bits. -/
theorem State.Inv.len_le_pow {s : State} (h : s.Inv) (b : Buf) : s.len b ≤ 2 ^ 24 :=
  (h.len_le b).trans (bufSize_le h.legal b)

/-- A command that completes by delivering one output writes that output and STATUS.ERR alone (20_memory.md R59). -/
theorem finish_complete_store (s : State) (b : Buf) {v : List Byte} (hv : v.length < 2 ^ 32) :
    ∃ t, finish (complete (s.store b v)) = .next t ∧ t.err = .success ∧ delivered b v s t ∧
      buffersKept [b] s t ∧ imageKept s t ∧ scannerKept s t ∧ portKept s t ∧ entropyKept s t := by
  have hf := (Frame.store s b v).setErr .success
  exact ⟨_, rfl, rfl, (delivered.store s b hv).setErr .success, hf.buffersKept, hf.imageKept, hf.scannerKept, hf.portKept,
    hf.entropyKept⟩

/-- SEAL without a payload, or with an operand that is not of full length (41_aead.md R110). -/
theorem sealBody_absent (C : Crypto) {s : State}
    (h : s.len .pt = 0 ∨ s.len .key ≠ s.params.keyBytes ∨ s.len .nonce ≠ 24 ∨ s.len .ad ≠ 32) : sealBody C s = raise s .input := by
  rcases sealBody_cases C s with ⟨_, e⟩ | ⟨hp, hk, hn, ha, _⟩
  · exact e
  · simp [hp, hk, hn, ha] at h

/-- SEAL with a payload and every operand of full length (41_aead.md R110). -/
theorem sealBody_present (C : Crypto) {s : State} (hp : s.len .pt ≠ 0) (hk : s.len .key = s.params.keyBytes)
    (hn : s.len .nonce = 24) (ha : s.len .ad = 32) :
    sealBody C s =
      complete (s.store .ct (C.aeadSeal (s.contents .key) (s.contents .nonce) (s.contents .pt) (s.contents .ad)).toList) := by
  rcases sealBody_cases C s with ⟨h, _⟩ | ⟨_, _, _, _, e⟩
  · simp [hp, hk, hn, ha] at h
  · exact e

/-- Settles O20, by the two cases of SEAL's body: an absent operand, and the ciphertext delivered to CT with the frame of a store. -/
theorem sealWritesCiphertextWithTag : Obligations.SealWritesCiphertextWithTag := by
  refine ⟨rfl, fun s h => congrArg finish (sealBody_absent Config.crypto h), fun s hs hp hk hn ha => ?_⟩
  have hlen : (Config.aeadSeal (s.contents .key) (s.contents .nonce) (s.contents .pt) (s.contents .ad)).toList.length
      = s.len .pt + 16 := by
    rw [Vector.length_toList, State.length_contents]
  have hmax := hs.len_le_pow .pt
  obtain ⟨t, ht, herr, hdel, hkept⟩ := finish_complete_store s .ct (hlen.trans_lt (by omega))
  exact ⟨t, (congrArg finish (sealBody_present Config.crypto hp hk hn ha)).trans ht, herr, hdel, hdel.1.trans hlen, hkept⟩

/-- OPEN asks for the key before anything else (41_aead.md R114, 60_exceptions.md R183). -/
theorem openBody_noKey (C : Crypto) {s : State} (h : s.len .key ≠ s.params.keyBytes) : openBody C s = raise s .input := by
  rcases openBody_cases C s with ⟨_, e⟩ | ⟨hk, _⟩ | ⟨hk, _⟩
  · exact e
  · exact absurd hk h
  · exact absurd hk h

/-- OPEN with the key and another operand too short to verify (41_aead.md R114). -/
theorem openBody_undersized (C : Crypto) {s : State} (hk : s.len .key = s.params.keyBytes)
    (h : s.len .nonce ≠ 24 ∨ s.len .ad ≠ 32 ∨ s.len .ct < 16) : openBody C s = raise s .authentication := by
  rcases openBody_cases C s with ⟨hk', _⟩ | ⟨_, _, e⟩ | ⟨_, hn, ha, hc, _⟩
  · exact absurd hk hk'
  · exact e
  · omega

/-- Settles O21, by the cases of OPEN's body: an absent key, an undersized operand, a tag that does not verify, and the plaintext
delivered to PT with the frame of a store. -/
theorem openWritesThePlaintextOrNothing : Obligations.OpenWritesThePlaintextOrNothing := by
  refine ⟨rfl, fun s h => congrArg finish (openBody_noKey Config.crypto h),
    fun s hk h => congrArg finish (openBody_undersized Config.crypto hk h), fun s hs hk hn ha hc => ?_⟩
  have hl : cipherLengths s.params.keyBytes (s.contents .key) (s.contents .nonce) (s.contents .ad) := by
    simp [cipherLengths, hk, hn, ha]
  cases hopen : Config.aeadOpen (s.contents .key) (s.contents .nonce) (s.contents .ct) (s.contents .ad) with
  | none => exact ⟨_, congrArg finish (openBody_none Config.crypto hl hopen), rfl⟩
  | some p =>
    have hlen : p.toList.length = s.len .ct - 16 := by
      rw [Vector.length_toList, State.length_contents]
    have hmax := hs.len_le_pow .ct
    obtain ⟨t, ht, herr, hdel, hkept⟩ := finish_complete_store s .pt (hlen.trans_lt (by omega))
    have hbody : openBody Config.crypto s = complete (s.store .pt p.toList) :=
      openBody_some Config.crypto hl hc (congrArg (Option.map Vector.toList) hopen)
    exact ⟨t, (congrArg finish hbody).trans ht, herr, hdel, hdel.1.trans hlen, hkept⟩

end Sys2Proof.Machine
end

section
/-! PROOF. What PACK (O23, 42_frame.md R120) and UNPACK (O24, R124) do, that they are inverse (O25, R125), and what BUILD does
(O26, R127). -/

namespace Sys2Proof.Machine

/-! PACK (42_frame.md R120). -/

/-- PACK with an operand that is not of full length, or a ciphertext with no room for its tag. -/
theorem packBody_undersized {s : State} (h : s.len .nonce ≠ 24 ∨ s.len .ad ≠ 32 ∨ s.len .ct < 16) :
    packBody s = raise s .input := by
  rcases packBody_cases s with ⟨_, e⟩ | ⟨hn, ha, hc, _⟩
  · exact e
  · omega

/-- PACK with every operand of full length. -/
theorem packBody_present {s : State} (hn : s.len .nonce = 24) (ha : s.len .ad = 32) (hc : 16 ≤ s.len .ct) :
    packBody s = complete (s.store .blob (s.contents .nonce ++ s.contents .ad ++ s.contents .ct)) := by
  rcases packBody_cases s with ⟨h, _⟩ | ⟨_, _, _, e⟩
  · omega
  · exact e

/-- Settles O23, by the two cases of PACK's body: an undersized operand, and the three operands delivered to BLOB with the frame of a
store. -/
theorem packJoinsTheBlob : Obligations.PackJoinsTheBlob := by
  refine ⟨rfl, fun s h => congrArg finish (packBody_undersized h), fun s hs hn ha hc => ?_⟩
  have hlen : (s.contents .nonce ++ s.contents .ad ++ s.contents .ct).length = 56 + s.len .ct := by
    simp only [List.length_append, State.length_contents, hn, ha]
  have hmax := hs.len_le_pow .ct
  obtain ⟨t, ht, herr, hdel, hkept⟩ := finish_complete_store s .blob (hlen.trans_lt (by omega))
  exact ⟨t, (congrArg finish (packBody_present hn ha hc)).trans ht, herr, hdel, hdel.1.trans hlen, hkept⟩

/-! UNPACK (42_frame.md R124). -/

/-- Settles O24: UNPACK's body is three stores to different buffers, so each keeps what the others delivered. -/
theorem unpackSplitsTheBlob : Obligations.UnpackSplitsTheBlob := by
  refine ⟨rfl, fun s => ?_⟩
  have hmax : s.len .blob < 2 ^ 32 := (s.lenReg .blob).isLt
  have hf := (Frame.unpack s).setErr .success
  have hnonce : delivered .nonce ((s.contents .blob).take 24) s (unpackBody s).state :=
    .of_write (by simp) (by simp [unpackBody_eq, complete]) (by simp [unpackBody_eq, complete])
  have had : delivered .ad (((s.contents .blob).drop 24).take 32) s (unpackBody s).state :=
    .of_write (by simp) (by simp [unpackBody_eq, complete]) (by simp [unpackBody_eq, complete])
  have hct : delivered .ct ((s.contents .blob).drop 56) s (unpackBody s).state :=
    .of_write (by simp; omega) (by simp [unpackBody_eq, complete]) (by simp [unpackBody_eq, complete])
  have hn := hnonce.setErr .success
  have ha := had.setErr .success
  have hc := hct.setErr .success
  exact ⟨_, rfl, rfl, hn, hn.1.trans (by simp [min_comm]), ha, ha.1.trans (by simp [min_comm]), hc, hc.1.trans (by simp),
    hf.buffersKept, hf.imageKept, hf.scannerKept, hf.portKept, hf.entropyKept⟩

/-! The two together (42_frame.md R125). -/

/-- Buffers that hold the same bytes have the same length register. -/
theorem State.lenReg_eq_of_contents_eq {s t : State} {b c : Buf} (h : t.contents b = s.contents c) : t.lenReg b = s.lenReg c := by
  have hlen : t.len b = s.len c := by rw [← State.length_contents, h, State.length_contents]
  exact BitVec.eq_of_toNat_eq hlen

/-- What a PACK with operands of full length leaves in BLOB. -/
theorem exec_pack_contents {s t : State} (hs : s.Inv) (hn : s.len .nonce = 24) (ha : s.len .ad = 32) (hc : 16 ≤ s.len .ct)
    (h : exec .pack s = .next t) :
    t.err = .success ∧ t.contents .blob = s.contents .nonce ++ s.contents .ad ++ s.contents .ct := by
  obtain ⟨t', ht, herr, hdel, _⟩ := packJoinsTheBlob.2.2 s hs hn ha hc
  cases ht.symm.trans h
  exact ⟨herr, hdel.2.1⟩

/-- PACK succeeds only on operands of full length. -/
theorem lengths_of_exec_pack_success {s t : State} (h : exec .pack s = .next t) (herr : t.err = .success) :
    s.len .nonce = 24 ∧ s.len .ad = 32 ∧ 16 ≤ s.len .ct := by
  by_contra hl
  cases (packJoinsTheBlob.2.1 s (by omega)).symm.trans h
  nomatch herr

/-- What UNPACK leaves in NONCE, AD and CT. -/
theorem exec_unpack_contents {s t : State} (h : exec .unpack s = .next t) :
    t.contents .nonce = (s.contents .blob).take 24 ∧ t.contents .ad = ((s.contents .blob).drop 24).take 32 ∧
    t.contents .ct = (s.contents .blob).drop 56 := by
  obtain ⟨t', ht, _, hn, _, ha, _, hc, _⟩ := unpackSplitsTheBlob.2 s
  cases ht.symm.trans h
  exact ⟨hn.2.1, ha.2.1, hc.2.1⟩

/-- UNPACK after a PACK that succeeded gives back what PACK read. -/
theorem unpack_pack_contents {s t u : State} (hs : s.Inv) (hpack : exec .pack s = .next t) (herr : t.err = .success)
    (hunpack : exec .unpack t = .next u) :
    u.contents .nonce = s.contents .nonce ∧ u.contents .ad = s.contents .ad ∧ u.contents .ct = s.contents .ct := by
  obtain ⟨hn, ha, hc⟩ := lengths_of_exec_pack_success hpack herr
  have hblob := (exec_pack_contents hs hn ha hc hpack).2
  obtain ⟨un, ua, uc⟩ := exec_unpack_contents hunpack
  have hln : (s.contents .nonce).length = 24 := by simpa using hn
  have hla : (s.contents .ad).length = 32 := by simpa using ha
  rw [hblob] at un ua uc
  refine ⟨?_, ?_, ?_⟩
  · rw [un, List.append_assoc, List.take_left' hln]
  · rw [ua, List.append_assoc, List.drop_left' hln, List.take_left' hla]
  · rw [uc, List.drop_left' (by simp [hn, ha])]

/-- PACK after UNPACK of a blob of 72 bytes or more succeeds and gives the blob back. -/
theorem pack_unpack_contents {s t u : State} (hs : s.Inv) (hlen : 72 ≤ s.len .blob) (hunpack : exec .unpack s = .next t)
    (hpack : exec .pack t = .next u) : u.err = .success ∧ u.contents .blob = s.contents .blob := by
  obtain ⟨tn, ta, tc⟩ := exec_unpack_contents hunpack
  have hn : t.len .nonce = 24 := by rw [← State.length_contents, tn]; simp; omega
  have ha : t.len .ad = 32 := by rw [← State.length_contents, ta]; simp; omega
  have hc : 16 ≤ t.len .ct := by rw [← State.length_contents, tc]; simp; omega
  obtain ⟨herr, hblob⟩ := exec_pack_contents (exec_keeps_inv hs hunpack) hn ha hc hpack
  refine ⟨herr, ?_⟩
  calc u.contents .blob
      = (s.contents .blob).take 24 ++ (((s.contents .blob).drop 24).take 32 ++ ((s.contents .blob).drop 24).drop 32) := by
        rw [hblob, tn, ta, tc, List.append_assoc, List.drop_drop]
    _ = s.contents .blob := by rw [List.take_append_drop, List.take_append_drop]

/-- Settles O25, by what each of the two leaves in the buffers it writes. -/
theorem packAndUnpackAreInverse : Obligations.PackAndUnpackAreInverse := by
  refine ⟨fun s t u hs hpack herr hunpack b hb => ?_, fun s t u hs hlen hunpack hpack => ?_⟩
  · obtain ⟨hn, ha, hc⟩ := unpack_pack_contents hs hpack herr hunpack
    have hcontents : u.contents b = s.contents b := by
      simp only [List.mem_cons, List.not_mem_nil, or_false] at hb
      rcases hb with rfl | rfl | rfl
      · exact hn
      · exact ha
      · exact hc
    exact ⟨State.lenReg_eq_of_contents_eq hcontents, hcontents⟩
  · obtain ⟨herr, hblob⟩ := pack_unpack_contents hs hlen hunpack hpack
    exact ⟨herr, State.lenReg_eq_of_contents_eq hblob, hblob⟩

/-! BUILD (42_frame.md R127). -/

@[simp] theorem length_frameOf (blob : List Byte) : (frameOf blob).length = blob.length + 12 := by
  simp [frameOf, startSentinel, endSentinel]

theorem buildBody_noBlob {s : State} (h : s.len .blob = 0) : buildBody s = raise s .input := by
  rcases buildBody_cases s with ⟨_, e⟩ | ⟨hb, _⟩
  · exact e
  · exact absurd h hb

theorem buildBody_present {s : State} (h : s.len .blob ≠ 0) :
    buildBody s = complete (s.store .frame (frameOf (s.contents .blob))) := by
  rcases buildBody_cases s with ⟨hb, _⟩ | ⟨_, e⟩
  · exact absurd hb h
  · exact e

/-- Settles O26, by the two cases of BUILD's body: no blob, and the frame delivered to FRAME with the frame of a store. -/
theorem buildWrapsTheBlob : Obligations.BuildWrapsTheBlob := by
  refine ⟨rfl, fun s h => congrArg finish (buildBody_noBlob h), fun s hs hb => ?_⟩
  have hlen : (frameOf (s.contents .blob)).length = s.len .blob + 12 := by simp
  have hmax := hs.len_le_pow .blob
  obtain ⟨t, ht, herr, hdel, hkept⟩ := finish_complete_store s .frame (hlen.trans_lt (by omega))
  exact ⟨t, (congrArg finish (buildBody_present hb)).trans ht, herr, hdel, hdel.1.trans hlen, hkept⟩

end Sys2Proof.Machine
end

section
/-! PROOF. What the scanner finds (O27, 42_frame.md R130), that the scanner of one byte at a time finds the same (O28, R131), and what
SCAN delivers (O29, R132). -/

namespace Sys2Proof.Machine

/-! A scan from either of its two states. -/

/-- What a scan answers that stands at the payload, with `d` bytes consumed and `q` collected, when the bytes `X` follow. -/
def endScan (d : Nat) (q X : List Byte) : ScanResult :=
  match firstIndex endSentinel X with
  | none => ⟨.collectingPayload, d + X.length, none⟩
  | some k => ⟨.done, d + k + 6, some (q ++ X.take k)⟩

/-- What a scan answers that looks for START, with `d` bytes consumed, when the bytes `X` follow. -/
def startScan (d : Nat) (X : List Byte) : ScanResult :=
  match firstIndex startSentinel X with
  | none => ⟨.scanningStart, d + X.length, none⟩
  | some s => endScan (d + s + 6) [] (X.drop (s + 6))

theorem endScan_absent {X : List Byte} (h : ∀ i, ¬ standsAt endSentinel X i) (d : Nat) (q : List Byte) :
    endScan d q X = ⟨.collectingPayload, d + X.length, none⟩ := by
  rw [endScan, firstIndex_eq_none length_endSentinel h]

theorem endScan_first {X : List Byte} {k : Nat} (h : standsAt endSentinel X k) (hmin : ∀ i < k, ¬ standsAt endSentinel X i) (d : Nat)
    (q : List Byte) : endScan d q X = ⟨.done, d + k + 6, some (q ++ X.take k)⟩ := by
  rw [endScan, firstIndex_eq_some length_endSentinel h hmin]

theorem startScan_absent {X : List Byte} (h : ∀ i, ¬ standsAt startSentinel X i) (d : Nat) :
    startScan d X = ⟨.scanningStart, d + X.length, none⟩ := by
  rw [startScan, firstIndex_eq_none length_startSentinel h]

theorem startScan_first {X : List Byte} {s : Nat} (h : standsAt startSentinel X s) (hmin : ∀ i < s, ¬ standsAt startSentinel X i)
    (d : Nat) : startScan d X = endScan (d + s + 6) [] (X.drop (s + 6)) := by
  rw [startScan, firstIndex_eq_some length_startSentinel h hmin]

/-- The scanner of 42_frame.md R130 looks for START with nothing consumed. -/
theorem scanStream_eq_startScan (B : List Byte) : scanStream B = startScan 0 B := by
  unfold scanStream startScan
  cases hs : firstIndex startSentinel B with
  | none => simp
  | some s =>
    unfold endScan
    cases he : firstIndex endSentinel (B.drop (s + 6)) with
    | none =>
      have hbound := (firstIndex_some length_startSentinel hs).1.bound
      simp only [he, List.length_drop, ScanResult.mk.injEq, true_and, and_true]
      omega
    | some k => simp [he]

/-- Settles O27: with the first START known, and the first END after it, both searches of the scan are known. -/
theorem scannerTakesTheFirstSentinels : Obligations.ScannerTakesTheFirstSentinels := by
  refine fun B => ⟨fun h => ?_, fun s hs hmin => ?_⟩
  · rw [scanStream_eq_startScan, startScan_absent h, Nat.zero_add]
  · have hbound := hs.bound
    rw [scanStream_eq_startScan, startScan_first hs hmin, Nat.zero_add]
    refine ⟨fun h => ?_, fun e he hend hfirst => ?_⟩
    · have hnone : ∀ i, ¬ standsAt endSentinel (B.drop (s + 6)) i := fun i hi =>
        h (s + 6 + i) (by omega) ((standsAt_drop length_endSentinel B _ i).mp hi)
      rw [endScan_absent hnone, List.length_drop, Nat.add_sub_cancel' hbound]
    · obtain ⟨k, rfl⟩ := Nat.exists_eq_add_of_le he
      have hk : standsAt endSentinel (B.drop (s + 6)) k := (standsAt_drop length_endSentinel B _ k).mpr hend
      have hbefore : ∀ i < k, ¬ standsAt endSentinel (B.drop (s + 6)) i := fun i hi hst =>
        hfirst (s + 6 + i) (by omega) (by omega) ((standsAt_drop length_endSentinel B _ i).mp hst)
      rw [endScan_first hk hbefore, List.drop_take, Nat.add_sub_cancel_left, List.nil_append]

/-! A sentinel is six copies of one byte (42_frame.md R131). -/

theorem startSentinel_eq_replicate : startSentinel = List.replicate 6 0x23 := rfl
theorem endSentinel_eq_replicate : endSentinel = List.replicate 6 0x3D := rfl

theorem standsAt_replicate_iff (v : Byte) (B : List Byte) (i : Nat) :
    standsAt (List.replicate 6 v) B i ↔ ∀ k < 6, B[i + k]? = some v := by
  rw [standsAt_iff_prefix (List.length_replicate ..), List.prefix_iff_getElem?]
  simp only [List.length_replicate, List.getElem_replicate, List.getElem?_drop]

/-- A run shorter than the sentinel holds none. -/
theorem not_standsAt_short_run {c : Nat} (hc : c < 6) (v : Byte) (i : Nat) :
    ¬ standsAt (List.replicate 6 v) (List.replicate c v) i := fun h => by
  have hbound := h.bound
  rw [List.length_replicate] at hbound
  omega

/-! A run of `c` bytes `v`, then a byte `b`, then `L`. -/

section
variable (c : Nat) (v b : Byte) (L : List Byte)

theorem length_broken_run : (List.replicate c v ++ b :: L).length = c + 1 + L.length := by
  rw [List.length_append, List.length_replicate, List.length_cons]
  omega

theorem drop_broken_run : (List.replicate c v ++ b :: L).drop (c + 1) = L := by
  simp [List.drop_append]

theorem take_broken_run (k : Nat) : (List.replicate c v ++ b :: L).take (c + 1 + k) = List.replicate c v ++ [b] ++ L.take k := by
  rw [List.append_cons, List.take_append, List.take_of_length_le (by simp)]
  simp

end

section
variable {c : Nat} (hc : c < 6) {v b : Byte}
include hc

/-- A run that another byte breaks off before the sixth is no part of a sentinel. -/
theorem standsAt_broken_run_iff (hb : b ≠ v) (L : List Byte) (i : Nat) :
    standsAt (List.replicate 6 v) (List.replicate c v ++ b :: L) i ↔ ∃ j, i = c + 1 + j ∧ standsAt (List.replicate 6 v) L j := by
  have hpat : (List.replicate 6 v).length = 6 := List.length_replicate ..
  have hlate : ∀ j, standsAt (List.replicate 6 v) (List.replicate c v ++ b :: L) (c + 1 + j) ↔ standsAt (List.replicate 6 v) L j :=
    fun j => by rw [← standsAt_drop hpat, drop_broken_run]
  constructor
  · intro hst
    have hi : c < i := by
      by_contra hle
      have hat := (standsAt_replicate_iff v _ i).mp hst (c - i) (by omega)
      rw [Nat.add_sub_cancel' (Nat.le_of_not_lt hle)] at hat
      exact hb (by simpa using hat)
    obtain ⟨j, rfl⟩ := Nat.exists_eq_add_of_le hi
    exact ⟨j, rfl, (hlate j).mp hst⟩
  · rintro ⟨j, rfl, hst⟩
    exact (hlate j).mpr hst

/-- After a run that breaks off the search starts again. -/
theorem firstIndex_broken_run (hb : b ≠ v) (L : List Byte) :
    firstIndex (List.replicate 6 v) (List.replicate c v ++ b :: L) = (firstIndex (List.replicate 6 v) L).map (c + 1 + ·) := by
  have hpat : (List.replicate 6 v).length = 6 := List.length_replicate ..
  have hstands := standsAt_broken_run_iff hc hb L
  cases hL : firstIndex (List.replicate 6 v) L with
  | none =>
    refine firstIndex_eq_none hpat fun i hst => ?_
    obtain ⟨j, _, hj⟩ := (hstands i).mp hst
    exact firstIndex_none hpat hL j hj
  | some k =>
    obtain ⟨hk, hmin⟩ := firstIndex_some hpat hL
    refine firstIndex_eq_some hpat ((hstands _).mpr ⟨k, rfl, hk⟩) fun i hi hst => ?_
    obtain ⟨j, rfl, hj⟩ := (hstands i).mp hst
    exact hmin j (Nat.lt_of_add_lt_add_left hi) hj

/-- A run of END's byte that breaks off belongs to the payload. -/
theorem endScan_broken_run (hb : b ≠ 0x3D) (d : Nat) (q L : List Byte) :
    endScan d q (List.replicate c 0x3D ++ b :: L) = endScan (d + (c + 1)) (q ++ List.replicate c 0x3D ++ [b]) L := by
  unfold endScan
  rw [endSentinel_eq_replicate, firstIndex_broken_run hc hb]
  cases firstIndex (List.replicate 6 0x3D) L with
  | none => simp only [Option.map_none, length_broken_run, Nat.add_assoc]
  | some k => simp only [Option.map_some, take_broken_run, ← Nat.add_assoc, ← List.append_assoc]

/-- A run of START's byte that breaks off is passed over. -/
theorem startScan_broken_run (hb : b ≠ 0x23) (d : Nat) (L : List Byte) :
    startScan d (List.replicate c 0x23 ++ b :: L) = startScan (d + (c + 1)) L := by
  unfold startScan
  rw [startSentinel_eq_replicate, firstIndex_broken_run hc hb]
  cases firstIndex (List.replicate 6 0x23) L with
  | none => simp only [Option.map_none, length_broken_run, Nat.add_assoc]
  | some s =>
    have hdrop : (List.replicate c 0x23 ++ b :: L).drop (c + 1 + s + 6) = L.drop (s + 6) := by
      rw [Nat.add_assoc (c + 1), ← List.drop_drop, drop_broken_run]
    simp only [Option.map_some, hdrop, ← Nat.add_assoc]

end

theorem standsAt_append_self {pat : List Byte} (hp : pat.length = 6) (L : List Byte) : standsAt pat (pat ++ L) 0 :=
  (standsAt_iff_prefix hp _ 0).mpr (List.prefix_append pat L)

/-- An END that follows at once ends the payload. -/
theorem endScan_endSentinel_append (d : Nat) (q L : List Byte) : endScan d q (endSentinel ++ L) = ⟨.done, d + 6, some q⟩ := by
  rw [endScan_first (standsAt_append_self length_endSentinel L) (fun i hi => absurd hi (Nat.not_lt_zero i))]
  simp

/-- A START that follows at once begins the payload. -/
theorem startScan_startSentinel_append (d : Nat) (L : List Byte) : startScan d (startSentinel ++ L) = endScan (d + 6) [] L := by
  rw [startScan_first (standsAt_append_self length_startSentinel L) (fun i hi => absurd hi (Nat.not_lt_zero i)),
    List.drop_left' (by rfl)]

/-! One byte at a time (42_frame.md R131). -/

/-- What the byte-at-a-time scanner answers when it stops with a working state. -/
def ScanRun.result (r : ScanRun) : ScanResult := ⟨r.state, r.taken, if r.state = .done then some r.payload else none⟩

theorem scanByte_start_other {b : Byte} (hb : b ≠ 0x23) (c : Nat) (p : List Byte) (n : Nat) :
    scanByte ⟨.scanningStart, c, p, n⟩ b = ⟨.scanningStart, 0, p, n + 1⟩ := by
  simp only [scanByte, if_neg hb, Nat.zero_ne_add_one, if_false]

theorem scanByte_start_next {c : Nat} (hc : c + 1 ≠ 6) (p : List Byte) (n : Nat) :
    scanByte ⟨.scanningStart, c, p, n⟩ 0x23 = ⟨.scanningStart, c + 1, p, n + 1⟩ := by simp only [scanByte, if_true, if_neg hc]

theorem scanByte_start_last (p : List Byte) (n : Nat) :
    scanByte ⟨.scanningStart, 5, p, n⟩ 0x23 = ⟨.collectingPayload, 0, p, n + 1⟩ := rfl

theorem scanByte_payload_other {b : Byte} (hb : b ≠ 0x3D) (c : Nat) (p : List Byte) (n : Nat) :
    scanByte ⟨.collectingPayload, c, p, n⟩ b = ⟨.collectingPayload, 0, p ++ [b], n + 1⟩ := by
  simp only [scanByte, if_neg hb, Nat.zero_ne_add_one, if_false]

theorem scanByte_payload_next {c : Nat} (hc : c + 1 ≠ 6) (p : List Byte) (n : Nat) :
    scanByte ⟨.collectingPayload, c, p, n⟩ 0x3D = ⟨.collectingPayload, c + 1, p ++ [0x3D], n + 1⟩ := by
  simp only [scanByte, if_true, if_neg hc]

/-- The sixth byte of END takes the sentinel off the payload. -/
theorem scanByte_payload_last (q : List Byte) (n : Nat) :
    scanByte ⟨.collectingPayload, 5, q ++ List.replicate 5 0x3D, n⟩ 0x3D = ⟨.done, 6, q, n + 1⟩ := by
  simp [scanByte]

/-- In DONE the scanner has stopped. -/
theorem foldl_scanByte_done (L : List Byte) (c : Nat) (p : List Byte) (n : Nat) :
    L.foldl scanByte ⟨.done, c, p, n⟩ = ⟨.done, c, p, n⟩ := by
  induction L with
  | nil => rfl
  | cons b L ih => exact ih

theorem replicate_append_cons (c : Nat) (v : Byte) (L : List Byte) :
    List.replicate c v ++ v :: L = List.replicate (c + 1) v ++ L := by
  rw [List.replicate_succ', List.append_assoc, List.singleton_append]

/-- The scanner with `c` bytes of END in a row, collected after `q`, answers what a search of the run and the rest answers. -/
theorem result_foldl_scanByte_payload (L : List Byte) {c : Nat} (hc : c < 6) (d : Nat) (q : List Byte) :
    (L.foldl scanByte ⟨.collectingPayload, c, q ++ List.replicate c 0x3D, d + c⟩).result =
      endScan d q (List.replicate c 0x3D ++ L) := by
  induction L generalizing c d q with
  | nil =>
    rw [List.append_nil, endScan_absent (not_standsAt_short_run hc _)]
    simp [ScanRun.result]
  | cons b L ih =>
    rw [List.foldl_cons]
    by_cases hb : b = 0x3D
    · subst hb
      rw [replicate_append_cons]
      by_cases hlast : c = 5
      · subst hlast
        rw [scanByte_payload_last, foldl_scanByte_done]
        exact (endScan_endSentinel_append d q L).symm
      · rw [scanByte_payload_next (by omega), List.append_assoc, ← List.replicate_succ']
        exact ih (by omega) d q
    · rw [scanByte_payload_other hb, endScan_broken_run hc hb]
      have h := ih (c := 0) (by omega) (d + (c + 1)) (q ++ List.replicate c 0x3D ++ [b])
      rwa [List.replicate_zero, List.append_nil] at h

/-- The scanner with `c` bytes of START in a row answers what a search of the run and the rest answers. -/
theorem result_foldl_scanByte_start (L : List Byte) {c : Nat} (hc : c < 6) (d : Nat) :
    (L.foldl scanByte ⟨.scanningStart, c, [], d + c⟩).result = startScan d (List.replicate c 0x23 ++ L) := by
  induction L generalizing c d with
  | nil =>
    rw [List.append_nil, startScan_absent (not_standsAt_short_run hc _)]
    simp [ScanRun.result]
  | cons b L ih =>
    rw [List.foldl_cons]
    by_cases hb : b = 0x23
    · subst hb
      rw [replicate_append_cons]
      by_cases hlast : c = 5
      · subst hlast
        rw [scanByte_start_last]
        exact (result_foldl_scanByte_payload L (by omega) (d + 6) []).trans (startScan_startSentinel_append d L).symm
      · rw [scanByte_start_next (by omega)]
        exact ih (by omega) d
    · rw [scanByte_start_other hb, startScan_broken_run hc hb]
      exact ih (c := 0) (by omega) (d + (c + 1))

/-- Settles O28: the two scanners agree from every working state, so they agree from the start. -/
theorem bytewiseScannerIsEquivalent : Obligations.BytewiseScannerIsEquivalent := fun B => by
  rw [scanStream_eq_startScan]
  exact result_foldl_scanByte_start B (c := 0) (by omega) 0

/-! SCAN (42_frame.md R132). -/

/-- Delivering the result of a scan, when its position and its payload's length fit a register. -/
theorem finish_deliverScan (s : State) {r : ScanResult} (hpos : r.pos < 2 ^ 32) (hlen : ∀ p, r.payload = some p → p.length < 2 ^ 32) :
    ∃ t, finish (deliverScan s r) = .next t ∧ t.fsm = r.state ∧ t.scanPos.toNat = r.pos ∧
      (match r.payload with
        | none => t.err = .sentinelNotFound ∧ sameBuffer .blob s t
        | some p => t.err = .success ∧ delivered .blob p s t) ∧
      buffersKept [.blob] s t ∧ imageKept s t ∧ portKept s t ∧ entropyKept s t := by
  have hf := (Frame.deliverScan s r).setErr (deliverScan s r).err
  have hreg : (BitVec.ofNat 32 r.pos).toNat = r.pos := by rw [BitVec.toNat_ofNat, Nat.mod_eq_of_lt hpos]
  rcases deliverScan_cases s r with ⟨hp, e⟩ | ⟨p, hp, e⟩
  · rw [e] at hf ⊢
    rw [hp]
    have hblob : sameBuffer .blob s { s.setScan r.pos r.state with err := .sentinelNotFound } :=
      .of_eq (by rw [State.lenReg_err, State.lenReg_setScan]) (by rw [State.buf_err, State.buf_setScan])
    exact ⟨_, rfl, rfl, hreg, ⟨rfl, hblob⟩, hf.buffersKept, hf.imageKept, hf.portKept, hf.entropyKept⟩
  · rw [e] at hf ⊢
    rw [hp]
    have hblob : delivered .blob p s ((s.setScan r.pos r.state).store .blob p) := .of_write (hlen p hp) (by simp) (by simp)
    exact ⟨_, rfl, State.fsm_store .., (congrArg BitVec.toNat (State.scanPos_store ..)).trans hreg, ⟨rfl, hblob.setErr .success⟩,
      hf.buffersKept, hf.imageKept, hf.portKept, hf.entropyKept⟩

/-- Settles O29: a scan of FRAME consumes at most FRAME_LEN bytes, so its position and payload fit. -/
theorem scanDeliversThePayload : Obligations.ScanDeliversThePayload := by
  refine ⟨rfl, fun s hs => ?_⟩
  obtain ⟨hpos, hpayload⟩ := scanStream_bounds (s.contents .frame)
  have hmax := hs.len_le_pow .frame
  rw [State.length_contents] at hpos
  refine finish_deliverScan s (by omega) fun p hp => ?_
  have hroom := (hpayload p hp).1
  rw [State.length_contents] at hroom
  omega

end Sys2Proof.Machine
end

section
/-! PROOF. When SCAN undoes BUILD (O30, 42_frame.md R133). -/

namespace Sys2Proof.Machine

/-- A pattern that stands wholly inside a byte string stands there whatever follows. -/
theorem standsAt_append_iff (pat : List Byte) {X : List Byte} {i : Nat} (h : i + 6 ≤ X.length) (T : List Byte) :
    standsAt pat (X ++ T) i ↔ standsAt pat X i := by
  unfold standsAt
  rw [List.drop_append_of_le_length (by omega), List.take_append_of_le_length (by simp; omega), List.length_append]
  simp only [h, show i + 6 ≤ X.length + T.length by omega]

/-- The true END of a frame stands right after its blob. -/
theorem standsAt_endSentinel_length (blob : List Byte) : standsAt endSentinel (blob ++ endSentinel) blob.length := by
  rw [standsAt_iff_prefix length_endSentinel, List.drop_left]

/-- Clean, in the words of the scanner: END stands at no offset inside the blob. -/
theorem cleanBlob_iff_standsAt (blob : List Byte) :
    cleanBlob blob ↔ ∀ j < blob.length, ¬ standsAt endSentinel (blob ++ endSentinel) j := by
  refine forall₂_congr fun j hj => ?_
  simp [standsAt, length_endSentinel, hj.le]

/-- A scan of a frame, whatever follows it, ends at the first END after the start sentinel. -/
theorem scanStream_frameOf_append {blob : List Byte} {j : Nat} (hj : j ≤ blob.length) (hst : standsAt endSentinel (blob ++ endSentinel) j)
    (hmin : ∀ i < j, ¬ standsAt endSentinel (blob ++ endSentinel) i) (T : List Byte) :
    scanStream (frameOf blob ++ T) = ⟨.done, 6 + j + 6, some (blob.take j)⟩ := by
  have hinside : ∀ i ≤ j, standsAt endSentinel (blob ++ endSentinel ++ T) i ↔ standsAt endSentinel (blob ++ endSentinel) i :=
    fun i hi => standsAt_append_iff _ (by rw [List.length_append, length_endSentinel]; omega) T
  have hframe : frameOf blob ++ T = startSentinel ++ (blob ++ endSentinel ++ T) := by simp [frameOf]
  rw [hframe, scanStream_eq_startScan, startScan_startSentinel_append,
    endScan_first ((hinside j le_rfl).mpr hst) fun i hi h => hmin i hi ((hinside i hi.le).mp h)]
  simp [List.take_append_of_le_length hj]

/-- There is a first place where END stands in a blob and the END after it, at the end of the blob or before. -/
theorem exists_first_endSentinel (blob : List Byte) : ∃ j ≤ blob.length, standsAt endSentinel (blob ++ endSentinel) j ∧
    ∀ i < j, ¬ standsAt endSentinel (blob ++ endSentinel) i := by
  cases h : firstIndex endSentinel (blob ++ endSentinel) with
  | none => exact absurd (standsAt_endSentinel_length blob) (firstIndex_none length_endSentinel h _)
  | some j =>
    obtain ⟨hst, hmin⟩ := firstIndex_some length_endSentinel h
    exact ⟨j, Nat.le_of_not_lt fun hlt => hmin _ hlt (standsAt_endSentinel_length blob), hst, hmin⟩

/-- A blob is clean exactly when its first END is the true one. -/
theorem cleanBlob_iff_first {blob : List Byte} {j : Nat} (hj : j ≤ blob.length) (hst : standsAt endSentinel (blob ++ endSentinel) j)
    (hmin : ∀ i < j, ¬ standsAt endSentinel (blob ++ endSentinel) i) : cleanBlob blob ↔ j = blob.length := by
  rw [cleanBlob_iff_standsAt]
  constructor
  · intro h
    exact Nat.le_antisymm hj (Nat.le_of_not_lt fun hlt => h j hlt hst)
  · rintro rfl
    exact hmin

/-- END stands inside a blob that ends in its byte: that byte and five of the true END are six in a row (42_frame.md R134). -/
theorem standsAt_endSentinel_of_getLast {blob : List Byte} (hlast : blob.getLast? = some 0x3D) :
    standsAt endSentinel (blob ++ endSentinel) (blob.length - 1) := by
  obtain ⟨init, rfl⟩ := List.getLast?_eq_some_iff.mp hlast
  rw [standsAt_iff_prefix length_endSentinel, List.append_assoc, List.length_append, List.length_singleton, Nat.add_sub_cancel,
    List.drop_left]
  decide

/-- END at an offset inside the blob stands there wholly, or takes in the blob's last byte. -/
theorem standsAt_or_getLast_of_standsAt {blob : List Byte} {j : Nat} (hj : j < blob.length)
    (hst : standsAt endSentinel (blob ++ endSentinel) j) : standsAt endSentinel blob j ∨ blob.getLast? = some 0x3D := by
  by_cases hfits : j + 6 ≤ blob.length
  · exact Or.inl ((standsAt_append_iff _ hfits _).mp hst)
  · right
    rw [endSentinel_eq_replicate, standsAt_replicate_iff] at hst
    have hat := hst (blob.length - 1 - j) (by omega)
    rwa [show j + (blob.length - 1 - j) = blob.length - 1 by omega, List.getElem?_append_left (by omega),
      ← List.getLast?_eq_getElem?] at hat

/-- R133's other form of Clean: no END inside the blob, and the blob does not end in END's byte. -/
theorem cleanBlob_iff_getLast {blob : List Byte} (hne : blob ≠ []) :
    cleanBlob blob ↔ (∀ j, ¬ standsAt endSentinel blob j) ∧ blob.getLast? ≠ some 0x3D := by
  have hpos := List.length_pos_iff.mpr hne
  rw [cleanBlob_iff_standsAt]
  constructor
  · refine fun h => ⟨fun j hst => ?_, fun hlast => ?_⟩
    · have hbound := hst.bound
      exact h j (by omega) ((standsAt_append_iff _ hbound _).mpr hst)
    · exact h (blob.length - 1) (by omega) (standsAt_endSentinel_of_getLast hlast)
  · rintro ⟨hinside, hlast⟩ j hj hst
    rcases standsAt_or_getLast_of_standsAt hj hst with h | h
    · exact hinside j h
    · exact hlast h

/-- Settles O30: the scan of a frame ends at the first END of `blob || END`, and the blob is clean exactly when that is the true one. -/
theorem scanUndoesBuildExactlyOnCleanBlobs : Obligations.ScanUndoesBuildExactlyOnCleanBlobs := by
  intro blob T hne
  obtain ⟨j, hj, hst, hmin⟩ := exists_first_endSentinel blob
  refine ⟨?_, ⟨_, _, scanStream_frameOf_append hj hst hmin T, List.take_prefix j blob, ?_⟩,
    fun j hj hst hmin => scanStream_frameOf_append hj.le hst hmin T, cleanBlob_iff_getLast hne⟩
  · rw [frameOf, List.append_assoc, List.append_assoc]
    exact standsAt_append_self length_startSentinel _
  · rw [cleanBlob_iff_first hj hst hmin, List.take_eq_self_iff]
    omega

end Sys2Proof.Machine
end

section
/-! PROOF. The two conversions of the bit-plane codec: bytes to bits (O31, 43_bitplane.md R141) and red parities to bytes (O32, R150). -/

namespace Sys2Proof.Machine

/-- Settles O31: bit number `i` of the expansion is bit number `i` of the byte string's stream. -/
theorem expandIsMostSignificantBitFirst : Obligations.ExpandIsMostSignificantBitFirst := fun f =>
  ⟨length_expand f, getElem?_expand f⟩

/-- Byte `j` of a stream packs the parities of the pixels from `8j` on. -/
theorem State.getD_stream (s : State) {n j : Nat} (h : j < n / 8) :
    (s.stream n).getD j 0 = packByte (fun k => parity (s.red (8 * j + k))) :=
  getD_streamAt s.params.pixelStride s.img n j h

/-- Settles O32: a packed byte is the sum of its bits' weights, and each bit is a parity. -/
theorem streamGroupsParities : Obligations.StreamGroupsParities := by
  refine fun s n => ⟨s.length_stream n, fun j hj => ?_⟩
  rw [s.getD_stream hj, toNat_packByte]
  simp only [parity_toNat]

end Sys2Proof.Machine
end

section
/-! PROOF. What EMBED does (O33, 43_bitplane.md R143), what it guarantees when it succeeds (O34, R144), and that it discards the frame
then and only then (O35, R146). -/

namespace Sys2Proof.Machine

/-! The cases of EMBED's body, each from its condition. -/

/-- EMBED without a frame, or with an image shape beyond the pixel memory. -/
theorem embedBody_input {s : State} (h : s.len .frame = 0 ∨ s.params.imgMaxPix < s.npix) : embedBody s = raise s .input := by
  rcases embedBody_cases s with ⟨_, e⟩ | ⟨_, _, e⟩ | ⟨hf, hn, _⟩ | ⟨hf, hn, _⟩
  · exact e
  · exact e
  · omega
  · omega

/-- EMBED on a frame with more bits than the image has pixels. -/
theorem embedBody_capacity {s : State} (hf : s.len .frame ≠ 0) (hn : s.npix ≤ s.params.imgMaxPix) (hb : s.npix < 8 * s.len .frame) :
    embedBody s = raise s .capacity := by
  rcases embedBody_cases s with ⟨h, _⟩ | ⟨_, h, _⟩ | ⟨_, _, _, e⟩ | ⟨_, _, h, _⟩
  · exact absurd h hf
  · omega
  · exact e
  · omega

/-- EMBED on a frame that fits. -/
theorem embedBody_fits {s : State} (hf : s.len .frame ≠ 0) (hn : s.npix ≤ s.params.imgMaxPix) (hb : 8 * s.len .frame ≤ s.npix) :
    embedBody s = complete (embedded s) := by
  rcases embedBody_cases s with ⟨h, _⟩ | ⟨_, h, _⟩ | ⟨_, _, h, _⟩ | ⟨_, _, _, e⟩
  · exact absurd h hf
  · omega
  · omega
  · exact e

/-! What a success leaves. -/

/-- The bit of the frame that pixel `p` carries: the frame's bits over and over (43_bitplane.md R143). -/
def frameBit (s : State) (p : Nat) : Bool := streamBit (s.contents .frame) (p % (8 * s.len .frame))

/-- A pixel of an image with a frame embedded has its old red value, adjusted to its bit. -/
theorem red_embedded {s : State} (hs : s.Inv) (hf : s.len .frame ≠ 0) {p : Nat} (hp : p < s.npix) :
    (embedded s).red p = adjust (s.red p) (frameBit s p) := by
  obtain ⟨_, _, _, _, _, _, _, hstride, _⟩ := Params.bounds hs.legal
  have hbit : p % (8 * s.len .frame) < 8 * s.len .frame := Nat.mod_lt _ (by omega)
  simp only [State.red, embedded, State.params_discard, State.params_setImg, State.img_discard, State.img_setImg]
  rw [redAt_embedPixels hstride _ _ _ _ hp, length_expand, State.length_contents, getD_expand _ _ (by simpa using hbit), frameBit]

/-- A frame that was embedded is gone (43_bitplane.md R146). -/
theorem discarded_embedded {s : State} (hs : s.Inv) : discarded .frame (embedded s) := by
  have hbuf : (embedded s).buf .frame = [] := by simp [embedded, Memory.clearBelow_eq_nil (hs.buf_ok .frame).2]
  exact ⟨by simp [State.len, embedded], fun a => by rw [hbuf]; rfl⟩

/-- What an EMBED that succeeded says: the frame fitted the image, every red byte is adjusted to its bit, and nothing else is written but
FRAME, which is discarded (43_bitplane.md R143, R146). -/
structure Embedded (s t : State) : Prop where
  shapeFits : s.npix ≤ s.params.imgMaxPix
  frameFits : 8 * s.len .frame ≤ s.npix
  red : ∀ p < s.npix, t.red p = adjust (s.red p) (frameBit s p)
  discarded : discarded .frame t
  frame : Frame [.frame] false true false s t

theorem discarded.setErr {b : Buf} {t : State} (h : discarded b t) (e : ErrorKind) : discarded b { t with err := e } :=
  ⟨(t.len_err e b).trans h.1, fun a => by rw [State.buf_err]; exact h.2 a⟩

theorem Embedded.of_success {s t : State} (hs : s.Inv) (h : exec .embed s = .next t) (herr : t.err = .success) : Embedded s t := by
  have hframe := (Frame.embed s).setErr (embedBody s).err
  obtain rfl := (finish_next _ t).mp h
  rcases embedBody_cases s with ⟨_, e⟩ | ⟨_, _, e⟩ | ⟨_, _, _, e⟩ | ⟨hf, hn, hb, e⟩ <;> rw [e] at herr hframe ⊢
  · cases herr
  · cases herr
  · cases herr
  · exact ⟨hn, hb, fun p hp => red_embedded hs hf hp, (discarded_embedded hs).setErr .success, hframe⟩

/-- Settles O33: each error by its case of EMBED's body, and the rule for every pixel by the parity adjuster on numbers. -/
theorem embedAdjustsEveryPixel : Obligations.EmbedAdjustsEveryPixel := by
  refine ⟨rfl, fun s h => congrArg finish (embedBody_input h), fun s hf hn hb => congrArg finish (embedBody_capacity hf hn hb),
    fun s hs hf hn hb => ?_⟩
  have hexec : exec .embed s = .next { embedded s with err := .success } := congrArg finish (embedBody_fits hf hn hb)
  have h := Embedded.of_success hs hexec rfl
  exact ⟨_, hexec, rfl, fun p hp => by rw [h.red p hp, toNat_adjust, frameBit], h.frame.other, h.discarded, h.frame.buffersKept,
    h.frame.imgW, h.frame.imgH, h.frame.scannerKept, h.frame.portKept, h.frame.entropyKept⟩

/-- The eight pixels from `8j` on carry the bits of byte `j mod FRAME_LEN` of the frame. -/
theorem frameBit_of_byte (s : State) (j : Nat) {k : Nat} (hk : k < 8) :
    frameBit s (8 * j + k) = ((s.contents .frame).getD (j % s.len .frame) 0).getLsbD (7 - k) := by
  have hmod : (8 * j + k) % (8 * s.len .frame) = 8 * (j % s.len .frame) + k := by
    rw [Nat.mod_mul, show (8 * j + k) / 8 = j by omega]
    omega
  rw [frameBit, hmod, streamBit, show (8 * (j % s.len .frame) + k) / 8 = j % s.len .frame by omega,
    show (8 * (j % s.len .frame) + k) % 8 = k by omega]

section
variable {s t : State} (h : Embedded s t)
include h

/-- The parities carry the bits. -/
theorem Embedded.parity_red {p : Nat} (hp : p < s.npix) : (t.red p).toNat % 2 = (frameBit s p).toNat := by
  rw [h.red p hp, adjust_parity]

/-- The recovered stream is the frame over and over. -/
theorem Embedded.getD_stream {j : Nat} (hj : j < s.npix / 8) :
    (t.stream s.npix).getD j 0 = (s.contents .frame).getD (j % s.len .frame) 0 := by
  rw [t.getD_stream hj]
  refine (packByte_congr fun k hk => ?_).trans (packByte_bits _)
  rw [← frameBit_of_byte s j hk, parity_eq, h.parity_red (by omega)]
  cases frameBit s (8 * j + k) <;> rfl

/-- The recovered stream begins with the frame. -/
theorem Embedded.frame_prefix_stream : s.contents .frame <+: t.stream s.npix := by
  have hlen : s.len .frame ≤ s.npix / 8 := by have := h.frameFits; omega
  rw [List.prefix_iff_getElem?]
  intro j hj
  rw [State.length_contents] at hj
  have hget := h.getD_stream (hj.trans_le hlen)
  rw [Nat.mod_eq_of_lt hj] at hget
  simpa [hj, hj.trans_le hlen] using hget

end

/-- Settles O34, from the adjuster's two properties and the frame of EMBED. -/
theorem embedGuarantees : Obligations.EmbedGuarantees := by
  intro s t hs ht herr
  have h := Embedded.of_success hs ht herr
  exact ⟨fun _ => h.parity_red, fun p hp => by rw [h.red p hp]; exact adjust_near _ _, h.frame.other, fun _ => h.getD_stream⟩

/-- Settles O35: a success leaves no frame for the next EMBED, and every other case of EMBED's body writes nothing. -/
theorem embedDiscardsTheFrameOnSuccess : Obligations.EmbedDiscardsTheFrameOnSuccess := by
  refine ⟨fun s t hs ht herr => ?_, fun s t ht herr => ?_⟩
  · have h := (Embedded.of_success hs ht herr).discarded
    exact ⟨h, congrArg finish (embedBody_input (.inl h.1))⟩
  · obtain rfl := (finish_next _ t).mp ht
    rcases embedBody_cases s with ⟨_, e⟩ | ⟨_, _, e⟩ | ⟨_, _, _, e⟩ | ⟨_, _, _, e⟩ <;> rw [e] at herr ⊢
    · exact ⟨.inl rfl, rfl⟩
    · exact ⟨.inl rfl, rfl⟩
    · exact ⟨.inr rfl, rfl⟩
    · exact absurd rfl herr

end Sys2Proof.Machine
end

section
/-! PROOF. What EXTRACT delivers (O36, 43_bitplane.md R151), and that it undoes EMBED while the parities stay (O37, R152). -/

namespace Sys2Proof.Machine

theorem extractBody_tooLarge {s : State} (h : s.params.imgMaxPix < s.npix) : extractBody s = raise s .input := by
  rcases extractBody_cases s with ⟨_, e⟩ | ⟨hn, _⟩
  · exact e
  · omega

/-- EXTRACT on an image that fits scans its stream. -/
theorem extractBody_fits {s : State} (h : s.npix ≤ s.params.imgMaxPix) :
    extractBody s = deliverScan s (scanStream (s.stream s.npix)) := by
  rcases extractBody_cases s with ⟨hn, _⟩ | ⟨_, e⟩
  · omega
  · exact e

/-- A scan of the stream of an image that fits: its position and its payload's length fit a register (00_scope.md R8). -/
theorem scanStream_stream_fits {s : State} (hlegal : s.params.legal = true) (hn : s.npix ≤ s.params.imgMaxPix) :
    (scanStream (s.stream s.npix)).pos < 2 ^ 32 ∧
      ∀ p, (scanStream (s.stream s.npix)).payload = some p → p.length < 2 ^ 32 := by
  obtain ⟨hpos, hpayload⟩ := scanStream_bounds (s.stream s.npix)
  have hb := Params.bounds hlegal
  have hlen := s.length_stream s.npix
  refine ⟨by omega, fun p hp => ?_⟩
  have hroom := (hpayload p hp).1
  omega

/-- Settles O36: EXTRACT delivers the scan of the stream as SCAN delivers that of FRAME, and position and payload fit. -/
theorem extractDeliversThePayload : Obligations.ExtractDeliversThePayload := by
  refine ⟨rfl, fun s hs hn => ?_, fun s h => congrArg finish (extractBody_tooLarge h)⟩
  obtain ⟨hpos, hlen⟩ := scanStream_stream_fits hs.legal hn
  obtain ⟨t, ht, hkept⟩ := finish_deliverScan s hpos hlen
  exact ⟨t, (congrArg finish (extractBody_fits hn)).trans ht, hkept⟩

/-- EXTRACT on a stream that holds both sentinels, from a state that need not meet the rest of the invariant. -/
theorem exec_extract_found {s : State} (hlegal : s.params.legal = true) (hn : s.npix ≤ s.params.imgMaxPix) {pos : Nat} {p : List Byte}
    (hscan : scanStream (s.stream s.npix) = ⟨.done, pos, some p⟩) :
    ∃ t, exec .extract s = .next t ∧ t.err = .success ∧ t.contents .blob = p ∧ t.scanPos.toNat = pos := by
  obtain ⟨hfits, hlen⟩ := scanStream_stream_fits hlegal hn
  obtain ⟨t, ht, _, hpos, hblob, _⟩ := finish_deliverScan s hfits hlen
  rw [hscan] at hpos hblob
  obtain ⟨herr, _, hcontents, _⟩ := hblob
  exact ⟨t, (congrArg finish (extractBody_fits hn)).trans ht, herr, hcontents, hpos⟩

/-- EXTRACT reads the image through its parities alone. -/
theorem State.stream_congr {s t : State} {n : Nat} (h : ∀ p < n, (s.red p).toNat % 2 = (t.red p).toNat % 2) :
    s.stream n = t.stream n :=
  streamAt_congr fun p hp => parity_congr (h p hp)

/-- Settles O37: the stream EXTRACT scans is that of EMBED's image, which begins with the frame, and a scan of a frame finds the start of
its blob, the whole of it exactly when the blob is clean (42_frame.md R133). -/
theorem extractUndoesEmbed : Obligations.ExtractUndoesEmbed := by
  intro s t u blob hs hne hframe ht herr hparams hw hh hred
  have h := Embedded.of_success hs ht herr
  have hnt : t.npix = s.npix := h.frame.npix
  have hnu : u.npix = s.npix := by rw [← hnt, State.npix, hw, hh, State.npix]
  have hpu : u.params = s.params := hparams.trans h.frame.params
  obtain ⟨T, hT⟩ := h.frame_prefix_stream
  have hstream : u.stream u.npix = frameOf blob ++ T := by
    rw [hnu, State.stream_congr (hnt ▸ hred), ← hT, hframe]
  obtain ⟨p, pos, hscan, hprefix, hclean⟩ := (scanUndoesBuildExactlyOnCleanBlobs blob T hne).2.1
  rw [← hstream] at hscan
  obtain ⟨v, hv, hverr, hblob, hpos⟩ := exec_extract_found (by rw [hpu]; exact hs.legal) (by rw [hnu, hpu]; exact h.shapeFits) hscan
  refine ⟨v, hv, hverr, by rw [hblob]; exact hprefix, ?_⟩
  rw [hblob, hpos, length_frameOf]
  exact hclean

end Sys2Proof.Machine
end

section
/-! PROOF. ENCODE and DECODE are their sequences of separate commands (O39, 44_composite.md R162), and a command that fails has changed no
byte of the image (O45, R162, 60_exceptions.md R184). -/

namespace Sys2Proof.Machine

/-- The body of each command, under the hardware's configuration functions. -/
def body : Instr → State → CmdResult
  | .gen => genBody
  | .derive => deriveBody Config.crypto
  | .sealPt => sealBody Config.crypto
  | .openCt => openBody Config.crypto
  | .pack => packBody
  | .unpack => unpackBody
  | .build => buildBody
  | .scan => scanBody
  | .embed => embedBody
  | .extract => extractBody
  | .encode => encodeBody Config.crypto
  | .decode => decodeBody Config.crypto
  | .clr => clrBody

theorem exec_eq_finish_body (i : Instr) (s : State) : exec i s = finish (body i s) := by cases i <;> rfl

/-! No body reads STATUS.ERR (10_state.md R24): whatever code stands there, it stands there still when the body is through, and nothing
else is different. -/

/-- STATUS.ERR written, as a command's end writes it. -/
def State.setErr (s : State) (e : ErrorKind) : State := { s with err := e }

theorem State.contents_setErr (s : State) (e : ErrorKind) (b : Buf) : (s.setErr e).contents b = s.contents b := s.contents_err e b

theorem State.store_setErr (s : State) (e : ErrorKind) (b : Buf) (v : List Byte) :
    (s.setErr e).store b v = (s.store b v).setErr e := by
  cases b <;> rfl

theorem finish_eq_setErr (r : CmdResult) : finish r = .next (r.state.setErr r.err) := rfl

/-- A body that does not depend on the code in STATUS.ERR, and leaves it there. -/
def IgnoresErr (f : State → CmdResult) : Prop := ∀ s e, f (s.setErr e) = ⟨(f s).state.setErr e, (f s).err⟩

theorem IgnoresErr.andThen {f g : State → CmdResult} (hf : IgnoresErr f) (hg : IgnoresErr g) :
    IgnoresErr fun s => (f s).andThen g := by
  intro s e
  simp only [hf s e, CmdResult.andThen]
  split
  · exact hg _ e
  · rfl

theorem genBody_ignoresErr : IgnoresErr genBody := fun _ _ => rfl

theorem deriveBody_ignoresErr (C : Crypto) : IgnoresErr (deriveBody C) := by
  intro s e
  rcases deriveBody_cases C s with ⟨h, q⟩ | ⟨_, _, h, q⟩ | ⟨hp, hn, k, h, q⟩ <;> rw [q]
  · exact deriveBody_absent C (s := s.setErr e) h
  · exact deriveBody_none C (s := s.setErr e) (congrArg _ h)
  · exact deriveBody_some C (s := s.setErr e) hp hn (congrArg (Option.map Vector.toList) h)

theorem sealBody_ignoresErr (C : Crypto) : IgnoresErr (sealBody C) := by
  intro s e
  rcases sealBody_cases C s with ⟨h, q⟩ | ⟨hp, hk, hn, ha, q⟩ <;> rw [q]
  · exact sealBody_absent C (s := s.setErr e) h
  · exact sealBody_present C (s := s.setErr e) hp hk hn ha

theorem openBody_ignoresErr (C : Crypto) : IgnoresErr (openBody C) := by
  intro s e
  rcases openBody_cases C s with ⟨hk, q⟩ | ⟨hk, h, q⟩ | ⟨hk, hn, ha, hc, ⟨h, q⟩ | ⟨p, h, q⟩⟩ <;> rw [q]
  · exact openBody_noKey C (s := s.setErr e) hk
  · exact openBody_undersized C (s := s.setErr e) hk h
  · exact openBody_none C (u := s.setErr e) (by simp [cipherLengths, State.setErr, hk, hn, ha]) h
  · exact openBody_some C (u := s.setErr e) (by simp [cipherLengths, State.setErr, hk, hn, ha]) hc
      (congrArg (Option.map Vector.toList) h)

theorem packBody_ignoresErr : IgnoresErr packBody := by
  intro s e
  rcases packBody_cases s with ⟨h, q⟩ | ⟨hn, ha, hc, q⟩ <;> rw [q]
  · exact packBody_undersized (s := s.setErr e) h
  · exact packBody_present (s := s.setErr e) hn ha hc

theorem unpackBody_ignoresErr : IgnoresErr unpackBody := fun _ _ => rfl

theorem buildBody_ignoresErr : IgnoresErr buildBody := by
  intro s e
  rcases buildBody_cases s with ⟨h, q⟩ | ⟨h, q⟩ <;> rw [q]
  · exact buildBody_noBlob (s := s.setErr e) h
  · rw [buildBody_present (s := s.setErr e) h, State.contents_setErr, State.store_setErr]
    rfl

theorem deliverScan_setErr (s : State) (e : ErrorKind) (r : ScanResult) :
    deliverScan (s.setErr e) r = ⟨(deliverScan s r).state.setErr e, (deliverScan s r).err⟩ := by
  unfold deliverScan
  cases r.payload <;> rfl

theorem scanBody_ignoresErr : IgnoresErr scanBody := fun s e => deliverScan_setErr s e (scanStream (s.contents .frame))

theorem embedBody_ignoresErr : IgnoresErr embedBody := by
  intro s e
  rcases embedBody_cases s with ⟨h, q⟩ | ⟨_, h, q⟩ | ⟨hf, hn, hb, q⟩ | ⟨hf, hn, hb, q⟩ <;> rw [q]
  · exact embedBody_input (s := s.setErr e) (.inl h)
  · exact embedBody_input (s := s.setErr e) (.inr h)
  · exact embedBody_capacity (s := s.setErr e) hf hn hb
  · exact embedBody_fits (s := s.setErr e) hf hn hb

theorem extractBody_ignoresErr : IgnoresErr extractBody := by
  intro s e
  rcases extractBody_cases s with ⟨h, q⟩ | ⟨h, q⟩ <;> rw [q]
  · exact extractBody_tooLarge (s := s.setErr e) h
  · exact (extractBody_fits (s := s.setErr e) h).trans (deliverScan_setErr s e _)

theorem clrBody_ignoresErr : IgnoresErr clrBody := fun _ _ => rfl

theorem encodeBody_ignoresErr (C : Crypto) : IgnoresErr (encodeBody C) :=
  ((((genBody_ignoresErr.andThen (deriveBody_ignoresErr C)).andThen (sealBody_ignoresErr C)).andThen packBody_ignoresErr).andThen
    buildBody_ignoresErr).andThen embedBody_ignoresErr

theorem decodeBody_ignoresErr (C : Crypto) : IgnoresErr (decodeBody C) :=
  ((extractBody_ignoresErr.andThen unpackBody_ignoresErr).andThen (deriveBody_ignoresErr C)).andThen (openBody_ignoresErr C)

theorem body_ignoresErr (i : Instr) : IgnoresErr (body i) := by
  cases i with
  | gen => exact genBody_ignoresErr
  | derive => exact deriveBody_ignoresErr _
  | sealPt => exact sealBody_ignoresErr _
  | openCt => exact openBody_ignoresErr _
  | pack => exact packBody_ignoresErr
  | unpack => exact unpackBody_ignoresErr
  | build => exact buildBody_ignoresErr
  | scan => exact scanBody_ignoresErr
  | embed => exact embedBody_ignoresErr
  | extract => exact extractBody_ignoresErr
  | encode => exact encodeBody_ignoresErr _
  | decode => exact decodeBody_ignoresErr _
  | clr => exact clrBody_ignoresErr

/-- The code an earlier command left does not matter to a later one, which overwrites it (60_exceptions.md R186). -/
theorem exec_setErr (i : Instr) (s : State) (e : ErrorKind) : exec i (s.setErr e) = exec i s := by
  rw [exec_eq_finish_body, exec_eq_finish_body, body_ignoresErr i s e]
  rfl

/-! Separate commands, and the bodies of a composite one after another. -/

theorem runCommands_setErr (i : Instr) (l : List Instr) (s : State) (e : ErrorKind) :
    runCommands (i :: l) (s.setErr e) = runCommands (i :: l) s := by
  cases l <;> simp only [runCommands, exec_setErr]

/-- A command that succeeded is followed by the others, run on what it wrote. -/
theorem runCommands_of_success {i : Instr} {s : State} (h : (body i s).err = .success) (j : Instr) (l : List Instr) :
    runCommands (i :: j :: l) s = runCommands (j :: l) (body i s).state := by
  have herr : ((body i s).state.setErr (body i s).err).err = .success := h
  simp only [runCommands, exec_eq_finish_body, finish_eq_setErr, if_pos herr]
  exact runCommands_setErr j l _ _

/-- A command that failed is the last one. -/
theorem runCommands_of_failed {i : Instr} {s : State} (h : (body i s).err ≠ .success) (l : List Instr) :
    runCommands (i :: l) s = finish (body i s) := by
  cases l with
  | nil => exact exec_eq_finish_body i s
  | cons j l =>
    have herr : ((body i s).state.setErr (body i s).err).err ≠ .success := h
    simp only [runCommands, exec_eq_finish_body, finish_eq_setErr, if_neg herr]

/-- The next step of a composite, named by its command. -/
def CmdResult.andThenCommand (r : CmdResult) (i : Instr) : CmdResult := r.andThen (body i)

theorem foldl_andThenCommand_failed {r : CmdResult} (h : r.err ≠ .success) (l : List Instr) :
    l.foldl CmdResult.andThenCommand r = r := by
  induction l with
  | nil => rfl
  | cons i l ih => rwa [List.foldl_cons, CmdResult.andThenCommand, CmdResult.andThen_failed h]

/-- Commands run separately end as one command made of their bodies ends (44_composite.md R162). -/
theorem runCommands_eq_finish_foldl (i : Instr) (l : List Instr) (s : State) :
    runCommands (i :: l) s = finish (l.foldl CmdResult.andThenCommand (body i s)) := by
  induction l generalizing i s with
  | nil => exact exec_eq_finish_body i s
  | cons j l ih =>
    by_cases h : (body i s).err = .success
    · have hnext : (body i s).andThenCommand j = body j (body i s).state := if_pos h
      rw [runCommands_of_success h, ih, List.foldl_cons, hnext]
    · rw [runCommands_of_failed h, foldl_andThenCommand_failed h]

theorem body_encode (s : State) :
    body .encode s = [.derive, .sealPt, .pack, .build, .embed].foldl CmdResult.andThenCommand (body .gen s) := by
  simp only [List.foldl_cons, List.foldl_nil, CmdResult.andThenCommand, body, encodeBody]

theorem body_decode (s : State) :
    body .decode s = [.unpack, .derive, .openCt].foldl CmdResult.andThenCommand (body .extract s) := by
  simp only [List.foldl_cons, List.foldl_nil, CmdResult.andThenCommand, body, decodeBody]

/-! The image. -/

/-- The steps of ENCODE before EMBED: they leave a frame to embed (44_composite.md R160). -/
def prepareBody (C : Crypto) (s : State) : CmdResult :=
  ((((genBody s).andThen (deriveBody C)).andThen (sealBody C)).andThen packBody).andThen buildBody

theorem encodeBody_eq (C : Crypto) (s : State) : encodeBody C s = (prepareBody C s).andThen embedBody := rfl

/-- EMBED is the only step of ENCODE that writes to IMG. -/
theorem Frame.prepare (C : Crypto) (s : State) :
    Frame [.nonce, .ad, .key, .ct, .blob, .frame] false false true s (prepareBody C s).state := by
  refine Frame.andThen (Frame.andThen (Frame.andThen (Frame.andThen ?_ fun t => ?_) fun t => ?_) fun t => ?_) fun t => ?_
  · exact (Frame.gen s).mono (by decide) (by simp) (by simp) (by simp)
  · exact (Frame.derive C t).mono (by decide) (by simp) (by simp) (by simp)
  · exact (Frame.seals C t).mono (by decide) (by simp) (by simp) (by simp)
  · exact (Frame.pack t).mono (by decide) (by simp) (by simp) (by simp)
  · exact (Frame.build t).mono (by decide) (by simp) (by simp) (by simp)

/-- A failed ENCODE failed before EMBED or in an EMBED that wrote nothing (43_bitplane.md R145). -/
theorem encodeBody_failed_img (C : Crypto) {s : State} (h : (encodeBody C s).err ≠ .success) : (encodeBody C s).state.img = s.img := by
  have himg : (prepareBody C s).state.img = s.img := (Frame.prepare C s).img rfl
  rw [encodeBody_eq] at h ⊢
  rcases (prepareBody C s).andThen_cases embedBody with ⟨_, e⟩ | ⟨_, e⟩ <;> rw [e] at h ⊢
  · rw [embedBody_failed h, himg]
  · exact himg

/-- The frame of a command is that of its body, so a command that never writes to IMG leaves it alone. -/
theorem body_img {i : Instr} (h : writesImage i = false) (s : State) : (body i s).state.img = s.img := by
  obtain ⟨t, ht, hf⟩ := exec_frame i s
  rw [exec_eq_finish_body] at ht
  obtain rfl := (finish_next _ t).mp ht
  exact hf.img h

/-- A command that fails has changed no byte of IMG: all but two never write there, and those two fail before they do. -/
theorem body_failed_img {i : Instr} {s : State} (h : (body i s).err ≠ .success) : (body i s).state.img = s.img := by
  cases i with
  | embed => exact congrArg State.img (embedBody_failed h)
  | encode => exact encodeBody_failed_img Config.crypto h
  | gen | derive | sealPt | openCt | pack | unpack | build | scan | extract | decode | clr => exact body_img rfl s

theorem exec_failed_img {i : Instr} {s t : State} (ht : exec i s = .next t) (herr : t.err ≠ .success) : t.img = s.img := by
  rw [exec_eq_finish_body] at ht
  obtain rfl := (finish_next _ t).mp ht
  exact body_failed_img herr

/-- Settles O39: the bodies one after another are the commands one after another, because no body reads the code of the one before. -/
theorem compositesAreTheirSequences : Obligations.CompositesAreTheirSequences := by
  refine ⟨fun s => ⟨?_, ?_⟩, fun _ _ => exec_failed_img, fun s t ht => ?_⟩
  · rw [exec_eq_finish_body, body_encode, runCommands_eq_finish_foldl]
  · rw [exec_eq_finish_body, body_decode, runCommands_eq_finish_foldl]
  · obtain ⟨t', ht', hf⟩ := exec_frame .decode s
    cases ht'.symm.trans ht
    exact hf.img rfl

/-- Settles O45, from what a failed command leaves of IMG, and from the frame that keeps the image shape always. -/
theorem failureLeavesTheImageWhole : Obligations.FailureLeavesTheImageWhole := by
  intro i s t ht herr
  obtain ⟨t', ht', hf⟩ := exec_frame i s
  cases ht'.symm.trans ht
  exact ⟨exec_failed_img ht herr, hf.imgW, hf.imgH⟩

end Sys2Proof.Machine
end

section
/-! PROOF. What ENCODE does (O40, 44_composite.md R160): the state its steps before EMBED leave, then EMBED on the frame of the blob. -/

namespace Sys2Proof.Machine

/-! What GEN draws, and what the other steps make of it. -/

/-- The nonce GEN draws (45_system.md R170). -/
def State.drawnNonce (s : State) : List Byte := (s.drawBytes 56).take 24

/-- The associated data GEN draws (45_system.md R170). -/
def State.drawnAd (s : State) : List Byte := (s.drawBytes 56).drop 24

/-- The ciphertext ENCODE makes of the payload under the key `k` (44_composite.md R160). -/
def sealedPayload (C : Crypto) (s : State) (k : List Byte) : List Byte :=
  (C.aeadSeal k s.drawnNonce (s.contents .pt) s.drawnAd).toList

/-- The blob ENCODE hides under the key `k` (44_composite.md R160). -/
def hiddenBlob (C : Crypto) (s : State) (k : List Byte) : List Byte := s.drawnNonce ++ s.drawnAd ++ sealedPayload C s k

@[simp] theorem length_drawnNonce (s : State) : s.drawnNonce.length = 24 := by simp [State.drawnNonce]

@[simp] theorem length_drawnAd (s : State) : s.drawnAd.length = 32 := by simp [State.drawnAd]

@[simp] theorem length_sealedPayload (C : Crypto) (s : State) (k : List Byte) : (sealedPayload C s k).length = s.len .pt + 16 := by
  rw [sealedPayload, Vector.length_toList, State.length_contents]

@[simp] theorem length_hiddenBlob (C : Crypto) (s : State) (k : List Byte) : (hiddenBlob C s k).length = s.len .pt + 72 := by
  simp only [hiddenBlob, List.length_append, length_drawnNonce, length_drawnAd, length_sealedPayload]
  omega

/-- The state GEN leaves. -/
def State.afterGen (s : State) : State := ((s.afterDraw 56).store .nonce s.drawnNonce).store .ad s.drawnAd

theorem genBody_eq_afterGen (s : State) : genBody s = complete s.afterGen := rfl

theorem Frame.afterGen (s : State) : Frame [.nonce, .ad] false false true s s.afterGen := Frame.gen s

theorem delivered_nonce_afterGen (s : State) : delivered .nonce s.drawnNonce s s.afterGen :=
  .of_write (by simp) (by simp [State.afterGen]) (by simp [State.afterGen])

theorem delivered_ad_afterGen (s : State) : delivered .ad s.drawnAd s s.afterGen :=
  .of_write (by simp) (by simp [State.afterGen]) (by simp [State.afterGen])

/-! A buffer read after an output was delivered to it or to another. -/

theorem delivered.len_eq {b : Buf} {v : List Byte} {s t : State} (h : delivered b v s t) : t.len b = v.length := h.1

theorem delivered.contents_eq {b : Buf} {v : List Byte} {s t : State} (h : delivered b v s t) : t.contents b = v := h.2.1

section
variable (s : State) {b c : Buf} {v : List Byte}

theorem State.contents_store_self (hv : v.length < 2 ^ 32) : (s.store b v).contents b = v := (delivered.store s b hv).contents_eq

theorem State.len_store_self (hv : v.length < 2 ^ 32) : (s.store b v).len b = v.length := (delivered.store s b hv).len_eq

@[simp] theorem State.contents_store_of_ne (h : c ≠ b) : (s.store b v).contents c = s.contents c :=
  ((Frame.store s b v).sameBuffer (by simpa using h)).contents_eq

@[simp] theorem State.len_store_of_ne (h : c ≠ b) : (s.store b v).len c = s.len c :=
  ((Frame.store s b v).sameBuffer (by simpa using h)).len_eq

end

@[simp] theorem State.contents_afterGen_nonce (s : State) : s.afterGen.contents .nonce = s.drawnNonce :=
  (delivered_nonce_afterGen s).contents_eq

@[simp] theorem State.contents_afterGen_ad (s : State) : s.afterGen.contents .ad = s.drawnAd :=
  (delivered_ad_afterGen s).contents_eq

@[simp] theorem State.len_afterGen_nonce (s : State) : s.afterGen.len .nonce = 24 := by simp [(delivered_nonce_afterGen s).len_eq]

@[simp] theorem State.len_afterGen_ad (s : State) : s.afterGen.len .ad = 32 := by simp [(delivered_ad_afterGen s).len_eq]

@[simp] theorem State.contents_afterGen_of_kept (s : State) {b : Buf} (h : b ∉ [Buf.nonce, .ad]) : s.afterGen.contents b = s.contents b :=
  ((Frame.afterGen s).sameBuffer h).contents_eq

@[simp] theorem State.len_afterGen_of_kept (s : State) {b : Buf} (h : b ∉ [Buf.nonce, .ad]) : s.afterGen.len b = s.len b :=
  ((Frame.afterGen s).sameBuffer h).len_eq

@[simp] theorem State.params_afterGen (s : State) : s.afterGen.params = s.params := (Frame.afterGen s).params

/-! The steps before EMBED. -/

theorem prepareBody_keeps_inv (C : Crypto) {s : State} (h : s.Inv) : (prepareBody C s).state.Inv :=
  andThen_keeps_inv (andThen_keeps_inv (andThen_keeps_inv (andThen_keeps_inv (genBody_keeps_inv h)
    fun _ => deriveBody_keeps_inv C) fun _ => sealBody_keeps_inv C) fun _ => packBody_keeps_inv) fun _ => buildBody_keeps_inv

/-- ENCODE without a key ends at DERIVE. -/
theorem prepareBody_noKey (C : Crypto) {s : State}
    (hk : (C.kdf s.params.keyBytes (s.contents .pw) s.drawnNonce).map Vector.toList = none) :
    prepareBody C s = raise s.afterGen .keyDerivation := by
  have hderive : deriveBody C s.afterGen = raise s.afterGen .keyDerivation := deriveBody_none C <| by
    rw [State.params_afterGen, State.contents_afterGen_of_kept s (by decide), State.contents_afterGen_nonce, hk]
  rw [prepareBody, genBody_eq_afterGen, andThen_complete, hderive]
  rfl

theorem encodeBody_noKey (C : Crypto) {s : State}
    (hk : (C.kdf s.params.keyBytes (s.contents .pw) s.drawnNonce).map Vector.toList = none) :
    encodeBody C s = raise s.afterGen .keyDerivation := by
  rw [encodeBody_eq, prepareBody_noKey C hk]
  rfl

/-- The state the steps of ENCODE before EMBED leave where KDF gives the key `k`: each has delivered one output. -/
def prepared (C : Crypto) (s : State) (k : List Byte) : State :=
  (((s.afterGen.store .key k).store .ct (sealedPayload C s k)).store .blob (hiddenBlob C s k)).store .frame (frameOf (hiddenBlob C s k))

/-- A key is small against a 32-bit register. -/
theorem keyLength_lt {P : Params} (hlegal : P.legal = true) {k : List Byte} (hlk : k.length = P.keyBytes) : k.length < 2 ^ 32 := by
  have hmax : P.keyBytes ≤ 2 ^ 24 := bufSize_le hlegal .key
  omega

section
variable (C : Crypto) {s : State} (hs : s.Inv) {k : List Byte}
include hs

/-- SEAL, its operands delivered by GEN and DERIVE. -/
theorem sealBody_afterGen (hlk : k.length = s.params.keyBytes) (hpt : s.len .pt ≠ 0) : sealBody C (s.afterGen.store .key k) =
    complete ((s.afterGen.store .key k).store .ct (sealedPayload C s k)) := by
  have hkey : (s.afterGen.store .key k).contents .key = k := State.contents_store_self _ (keyLength_lt hs.legal hlk)
  have hpayload : (s.afterGen.store .key k).contents .pt = s.contents .pt := by simp
  have hklen : (s.afterGen.store .key k).len .key = s.params.keyBytes := by rw [← State.length_contents, hkey, hlk]
  rw [sealBody_present C (by simpa using hpt) (by simpa using hklen) (by simp) (by simp), hkey, hpayload]
  simp [sealedPayload]

/-- PACK, its operands delivered by GEN and SEAL. -/
theorem packBody_afterGen : packBody ((s.afterGen.store .key k).store .ct (sealedPayload C s k)) =
    complete (((s.afterGen.store .key k).store .ct (sealedPayload C s k)).store .blob (hiddenBlob C s k)) := by
  have hmax := hs.len_le_pow .pt
  have hct : ((s.afterGen.store .key k).store .ct (sealedPayload C s k)).contents .ct = sealedPayload C s k :=
    State.contents_store_self _ (by rw [length_sealedPayload]; omega)
  have hlct : 16 ≤ ((s.afterGen.store .key k).store .ct (sealedPayload C s k)).len .ct := by
    rw [← State.length_contents, hct, length_sealedPayload]; omega
  rw [packBody_present (by simp) (by simp) hlct, hct]
  simp [hiddenBlob]

/-- Every step of ENCODE before EMBED completes, where there is a password, a payload and a key. -/
theorem prepareBody_eq (hlk : k.length = s.params.keyBytes) (hpw : s.len .pw ≠ 0) (hpt : s.len .pt ≠ 0)
    (hk : (C.kdf s.params.keyBytes (s.contents .pw) s.drawnNonce).map Vector.toList = some k) :
    prepareBody C s = complete (prepared C s k) := by
  have hmax := hs.len_le_pow .pt
  have hderive : deriveBody C s.afterGen = complete (s.afterGen.store .key k) := by
    refine deriveBody_some C (by simpa using hpw) (by simp) ?_
    rw [State.params_afterGen, State.contents_afterGen_of_kept s (by decide), State.contents_afterGen_nonce, hk]
  have hblob : (((s.afterGen.store .key k).store .ct (sealedPayload C s k)).store .blob (hiddenBlob C s k)).contents .blob =
      hiddenBlob C s k := State.contents_store_self _ (by rw [length_hiddenBlob]; omega)
  rw [prepareBody, genBody_eq_afterGen, andThen_complete, hderive, andThen_complete, sealBody_afterGen C hs hlk hpt, andThen_complete,
    packBody_afterGen C hs, andThen_complete, buildBody_present, hblob, prepared]
  rw [← State.length_contents, hblob, length_hiddenBlob]
  omega

end

/-- What the steps of ENCODE before EMBED leave under the key `k`: every operand in its buffer, and the frame of the blob in FRAME
(44_composite.md R160). -/
structure Prepared (C : Crypto) (s : State) (k : List Byte) (t : State) : Prop where
  run : prepareBody C s = complete t
  nonce : delivered .nonce s.drawnNonce s t
  ad : delivered .ad s.drawnAd s t
  key : delivered .key k s t
  ct : delivered .ct (sealedPayload C s k) s t
  blob : delivered .blob (hiddenBlob C s k) s t
  frame : delivered .frame (frameOf (hiddenBlob C s k)) s t
  inv : t.Inv
  kept : Frame [.nonce, .ad, .key, .ct, .blob, .frame] false false true s t

theorem length_of_kdf_some {C : Crypto} {n : Nat} {pw salt k : List Byte} (h : (C.kdf n pw salt).map Vector.toList = some k) :
    k.length = n := by
  obtain ⟨v, _, rfl⟩ := Option.map_eq_some_iff.mp h
  exact Vector.length_toList

theorem exists_prepared (C : Crypto) {s : State} (hs : s.Inv) (hpw : s.len .pw ≠ 0) (hpt : s.len .pt ≠ 0) {k : List Byte}
    (hk : (C.kdf s.params.keyBytes (s.contents .pw) s.drawnNonce).map Vector.toList = some k) : ∃ t, Prepared C s k t := by
  have hlk := length_of_kdf_some hk
  have hrun := prepareBody_eq C hs hlk hpw hpt hk
  have hinv := prepareBody_keeps_inv C hs
  have hkept := Frame.prepare C s
  have hmax := hs.len_le_pow .pt
  rw [hrun] at hinv hkept
  refine ⟨prepared C s k, hrun, ?_, ?_, ?_, ?_, ?_, ?_, hinv, hkept⟩
  · exact .of_write (by simp) (by simp [prepared, State.afterGen]) (by simp [prepared, State.afterGen])
  · exact .of_write (by simp) (by simp [prepared, State.afterGen]) (by simp [prepared, State.afterGen])
  · exact .of_write (keyLength_lt hs.legal hlk) (by simp [prepared]) (by simp [prepared, State.afterGen])
  · exact .of_write (by simp; omega) (by simp [prepared]) (by simp [prepared, State.afterGen])
  · exact .of_write (by simp; omega) (by simp [prepared]) (by simp [prepared, State.afterGen])
  · exact .of_write (by simp; omega) (by simp [prepared]) (by simp [prepared, State.afterGen])

/-! EMBED, the last step. -/

section
variable {C : Crypto} {s t : State} {k : List Byte} (h : Prepared C s k t)
include h

theorem Prepared.len_frame : t.len .frame = s.len .pt + 84 := by
  rw [h.frame.len_eq, length_frameOf, length_hiddenBlob]

theorem Prepared.parity_frameBit (p : Nat) :
    frameBit t p = streamBit (frameOf (hiddenBlob C s k)) (p % (8 * (s.len .pt + 84))) := by
  rw [frameBit, h.frame.contents_eq, h.len_frame]

variable (hbits : 8 * (s.len .pt + 84) ≤ s.npix) (hn : s.npix ≤ s.params.imgMaxPix)
include hbits hn

/-- EMBED finds a frame that fits the image. -/
theorem Prepared.embedBody_eq : embedBody t = complete (embedded t) := by
  have hlen := h.len_frame
  refine embedBody_fits (by omega) ?_ ?_
  · rw [h.kept.npix, h.kept.params]; exact hn
  · rw [h.kept.npix, hlen]; exact hbits

theorem Prepared.encodeBody_eq : encodeBody C s = complete (Machine.embedded t) := by
  rw [Machine.encodeBody_eq, h.run, andThen_complete, h.embedBody_eq hbits hn]

theorem Prepared.embedded : Embedded t { Machine.embedded t with err := .success } :=
  .of_success h.inv (congrArg finish (h.embedBody_eq hbits hn)) rfl

end

/-- Settles O40: without a key ENCODE ends as GEN left the state, and with one the frame of the blob is embedded. -/
theorem encodeHidesThePayload : Obligations.EncodeHidesThePayload := by
  refine ⟨rfl, fun s hs hpw hpt hbits hn => ?_⟩
  cases hk : Config.kdf s.params.keyBytes (s.contents .pw) s.drawnNonce with
  | none =>
    have hbody := encodeBody_noKey Config.crypto (congrArg (Option.map Vector.toList) hk)
    have hkept := (Frame.afterGen s).setErr .keyDerivation
    refine ⟨s.drawBytes 56, _, s.length_drawBytes 56, s.getElem_drawBytes 56, congrArg finish hbody,
      (delivered_nonce_afterGen s).setErr _, (delivered_ad_afterGen s).setErr _, hkept.scannerKept, hkept.portKept, hkept.imgW,
      hkept.imgH, ?_⟩
    rw [State.drawnNonce] at hk
    rw [hk]
    exact ⟨rfl, hkept.buffersKept, hkept.imageKept⟩
  | some k =>
    obtain ⟨u, hu⟩ := exists_prepared Config.crypto hs hpw hpt (congrArg (Option.map Vector.toList) hk)
    have hbody := hu.encodeBody_eq hbits hn
    have hemb := hu.embedded hbits hn
    have hkept := (Frame.encode Config.crypto s).setErr .success
    rw [hbody] at hkept
    have hpixel : ∀ p < s.npix, _ := fun p hp => (hemb.parity_red (hu.kept.npix ▸ hp)).trans (congrArg _ (hu.parity_frameBit p))
    refine ⟨s.drawBytes 56, _, s.length_drawBytes 56, s.getElem_drawBytes 56, congrArg finish hbody,
      hu.nonce.after hemb.frame (by decide), hu.ad.after hemb.frame (by decide), hkept.scannerKept, hkept.portKept, hkept.imgW,
      hkept.imgH, ?_⟩
    rw [State.drawnNonce] at hk
    rw [hk]
    exact ⟨sealedPayload Config.crypto s k.toList, hiddenBlob Config.crypto s k.toList, rfl, rfl, rfl,
      hu.key.after hemb.frame (by decide), hu.ct.after hemb.frame (by decide), hu.blob.after hemb.frame (by decide), hemb.discarded,
      hkept.buffersKept, hpixel, hkept.other⟩

end Sys2Proof.Machine
end

section
/-! PROOF. What DECODE does (O41, 44_composite.md R163), its errors in their order (O42, R163, 60_exceptions.md R183), and that it undoes
ENCODE (O43, R165). -/

namespace Sys2Proof.Machine

/-! DECODE that finds no blob. -/

theorem decodeBody_tooLarge (C : Crypto) {s : State} (h : s.params.imgMaxPix < s.npix) : decodeBody C s = raise s .input := by
  rw [decodeBody, extractBody_tooLarge h]
  rfl

theorem decodeBody_notFound (C : Crypto) {s : State} (hn : s.npix ≤ s.params.imgMaxPix) {st : ScanState} {pos : Nat}
    (hscan : scanStream (s.stream s.npix) = ⟨st, pos, none⟩) : decodeBody C s = raise (s.setScan pos st) .sentinelNotFound := by
  rw [decodeBody, extractBody_fits hn, hscan]
  rfl

/-! DECODE that finds a blob: EXTRACT and UNPACK both complete. -/

/-- The state EXTRACT and UNPACK leave when the scan of the image ended at `pos` with the payload `blob`. -/
def State.unpacked (s : State) (pos : Nat) (blob : List Byte) : State :=
  ((((s.setScan pos .done).store .blob blob).store .nonce (blob.take 24)).store .ad ((blob.drop 24).take 32)).store .ct (blob.drop 56)

/-- What EXTRACT and UNPACK leave when the image holds the blob `found`: its three parts in NONCE, AD and CT (44_composite.md R163). -/
structure Unpacked (s : State) (pos : Nat) (found : List Byte) (t : State) : Prop where
  run : (extractBody s).andThen unpackBody = complete t
  fsm : t.fsm = .done
  scanPos : t.scanPos.toNat = pos
  blob : delivered .blob found s t
  nonce : delivered .nonce (found.take 24) s t
  ad : delivered .ad ((found.drop 24).take 32) s t
  ct : delivered .ct (found.drop 56) s t
  kept : Frame [.blob, .nonce, .ad, .ct] true false false s t

theorem exists_unpacked {s : State} (hlegal : s.params.legal = true) (hn : s.npix ≤ s.params.imgMaxPix) {pos : Nat} {found : List Byte}
    (hscan : scanStream (s.stream s.npix) = ⟨.done, pos, some found⟩) : ∃ t, Unpacked s pos found t := by
  obtain ⟨hpos, hpayload⟩ := scanStream_stream_fits hlegal hn
  rw [hscan] at hpos hpayload
  have hlen := hpayload found rfl
  have hfound : extractBody s = complete ((s.setScan pos .done).store .blob found) := by
    rw [extractBody_fits hn, hscan]
    rfl
  have hrun : (extractBody s).andThen unpackBody = complete (s.unpacked pos found) := by
    rw [hfound, andThen_complete, unpackBody_eq, State.contents_store_self _ hlen, State.unpacked]
  have hkept : Frame [.blob, .nonce, .ad, .ct] true false false s ((extractBody s).andThen unpackBody).state :=
    .andThen ((Frame.extract s).mono (by decide) (by simp) (by simp) (by simp))
      fun t => (Frame.unpack t).mono (by decide) (by simp) (by simp) (by simp)
  rw [hrun] at hkept
  refine ⟨s.unpacked pos found, hrun, by simp [State.unpacked], ?_, ?_, ?_, ?_, ?_, hkept⟩
  · simpa [State.unpacked] using hpos
  · exact .of_write hlen (by simp [State.unpacked]) (by simp [State.unpacked])
  · exact .of_write (by simp) (by simp [State.unpacked]) (by simp [State.unpacked])
  · exact .of_write (by simp) (by simp [State.unpacked]) (by simp [State.unpacked])
  · exact .of_write (by simp; omega) (by simp [State.unpacked]) (by simp [State.unpacked])

section
variable {C : Crypto} {s t : State} {pos : Nat} {found : List Byte} (h : Unpacked s pos found t)
include h

theorem Unpacked.decodeBody_eq : decodeBody C s = ((deriveBody C t).andThen (openBody C)) := by
  rw [decodeBody, h.run, andThen_complete]

theorem Unpacked.sameBuffer_pw : sameBuffer .pw s t := h.kept.sameBuffer (by decide)

/-! DERIVE, from the password and the nonce of the blob. -/

theorem Unpacked.decodeBody_absent (habs : s.len .pw = 0 ∨ found.length < 24) : decodeBody C s = raise t .keyDerivation := by
  have hnonce : t.len .nonce = min 24 found.length := by rw [h.nonce.len_eq, List.length_take]
  have hderive : deriveBody C t = raise t .keyDerivation := deriveBody_absent C <| by
    rw [h.sameBuffer_pw.len_eq]; omega
  rw [h.decodeBody_eq, hderive]
  rfl

theorem Unpacked.decodeBody_noKey (hk : (C.kdf s.params.keyBytes (s.contents .pw) (found.take 24)).map Vector.toList = none) :
    decodeBody C s = raise t .keyDerivation := by
  have hderive : deriveBody C t = raise t .keyDerivation := deriveBody_none C <| by
    rw [h.kept.params, h.sameBuffer_pw.contents_eq, h.nonce.contents_eq, hk]
  rw [h.decodeBody_eq, hderive]
  rfl

section
variable {k : List Byte} (hk : (C.kdf s.params.keyBytes (s.contents .pw) (found.take 24)).map Vector.toList = some k)
include hk

theorem Unpacked.decodeBody_key (hpw : s.len .pw ≠ 0) (h24 : 24 ≤ found.length) : decodeBody C s = openBody C (t.store .key k) := by
  have hnonce : t.len .nonce = 24 := by rw [h.nonce.len_eq, List.length_take]; omega
  have hderive : deriveBody C t = complete (t.store .key k) := by
    refine deriveBody_some C (by rwa [h.sameBuffer_pw.len_eq]) hnonce ?_
    rw [h.kept.params, h.sameBuffer_pw.contents_eq, h.nonce.contents_eq, hk]
  rw [h.decodeBody_eq, hderive, andThen_complete]

/-! OPEN, from that key and the other parts of the blob. -/

variable (hlegal : s.params.legal = true)
include hlegal

theorem Unpacked.len_key : (t.store .key k).len .key = (t.store .key k).params.keyBytes := by
  have hlk := length_of_kdf_some hk
  rw [State.len_store_self t (keyLength_lt hlegal hlk), hlk, State.params_store, h.kept.params]

/-- A blob with room for a nonce, and no room for associated data and tag. -/
theorem Unpacked.decodeBody_undersized (hpw : s.len .pw ≠ 0) (h24 : 24 ≤ found.length) (h72 : found.length < 72) :
    decodeBody C s = raise (t.store .key k) .authentication := by
  rw [h.decodeBody_key hk hpw h24]
  refine openBody_undersized C (h.len_key hk hlegal) (.inr (.inr ?_))
  rw [State.len_store_of_ne t (by decide), h.ct.len_eq, List.length_drop]
  omega

theorem Unpacked.cipherLengths_key (h72 : 72 ≤ found.length) :
    cipherLengths (t.store .key k).params.keyBytes ((t.store .key k).contents .key) ((t.store .key k).contents .nonce)
      ((t.store .key k).contents .ad) := by
  refine ⟨(State.length_contents _ _).trans (h.len_key hk hlegal), ?_, ?_⟩
  · rw [State.contents_store_of_ne t (by decide), h.nonce.contents_eq, List.length_take]
    omega
  · rw [State.contents_store_of_ne t (by decide), h.ad.contents_eq, List.length_take, List.length_drop]
    omega

/-- AEAD_OPEN is asked for the key, the nonce and the other parts of the blob. -/
theorem Unpacked.aeadOpen_key : (C.aeadOpen ((t.store .key k).contents .key) ((t.store .key k).contents .nonce)
      ((t.store .key k).contents .ct) ((t.store .key k).contents .ad)).map Vector.toList =
    (C.aeadOpen k (found.take 24) (found.drop 56) ((found.drop 24).take 32)).map Vector.toList := by
  rw [State.contents_store_self t (keyLength_lt hlegal (length_of_kdf_some hk)), State.contents_store_of_ne t (by decide),
    State.contents_store_of_ne t (by decide), State.contents_store_of_ne t (by decide), h.nonce.contents_eq, h.ct.contents_eq,
    h.ad.contents_eq]

variable (h72 : 72 ≤ found.length) (hpw : s.len .pw ≠ 0)
include h72 hpw

theorem Unpacked.decodeBody_noTag (hopen : C.aeadOpen k (found.take 24) (found.drop 56) ((found.drop 24).take 32) = none) :
    decodeBody C s = raise (t.store .key k) .authentication := by
  rw [h.decodeBody_key hk hpw (by omega)]
  refine openBody_none C (h.cipherLengths_key hk hlegal h72) (Option.map_eq_none_iff (f := Vector.toList) |>.mp ?_)
  rw [h.aeadOpen_key hk hlegal, hopen, Option.map_none]

theorem Unpacked.decodeBody_plaintext {p : List Byte}
    (hopen : (C.aeadOpen k (found.take 24) (found.drop 56) ((found.drop 24).take 32)).map Vector.toList = some p) :
    decodeBody C s = complete ((t.store .key k).store .pt p) := by
  rw [h.decodeBody_key hk hpw (by omega)]
  refine openBody_some C (h.cipherLengths_key hk hlegal h72) ?_ ((h.aeadOpen_key hk hlegal).trans hopen)
  rw [State.len_store_of_ne t (by decide), h.ct.len_eq, List.length_drop]
  omega

end

/-! The frames of what follows UNPACK. -/

theorem Unpacked.frame_key (k : List Byte) : Frame [.blob, .nonce, .ad, .ct, .key] true false false s (t.store .key k) :=
  (h.kept.mono (by decide) (by simp) (by simp) (by simp)).trans
    ((Frame.store t .key k).mono (by decide) (by simp) (by simp) (by simp))

/-- The steps after UNPACK write KEY and PT alone. -/
theorem Unpacked.frame_decode (C : Crypto) : Frame [.key, .pt] false false false t (decodeBody C s).state := by
  rw [h.decodeBody_eq]
  exact .andThen ((Frame.derive C t).mono (by decide) (by simp) (by simp) (by simp))
    fun u => (Frame.opens C u).mono (by decide) (by simp) (by simp) (by simp)

/-- DERIVE and OPEN on a blob of 72 bytes or more: no key, no plaintext, or both. -/
theorem Unpacked.decodeBody_cases (C : Crypto) (hlegal : s.params.legal = true) (hpw : s.len .pw ≠ 0) (h72 : 72 ≤ found.length) :
    (C.kdf s.params.keyBytes (s.contents .pw) (found.take 24) = none ∧ decodeBody C s = raise t .keyDerivation) ∨
    ∃ k, C.kdf s.params.keyBytes (s.contents .pw) (found.take 24) = some k ∧
      ((C.aeadOpen k.toList (found.take 24) (found.drop 56) ((found.drop 24).take 32) = none ∧
          decodeBody C s = raise (t.store .key k.toList) .authentication) ∨
       ∃ p, C.aeadOpen k.toList (found.take 24) (found.drop 56) ((found.drop 24).take 32) = some p ∧
          decodeBody C s = complete ((t.store .key k.toList).store .pt p.toList)) := by
  cases hkdf : C.kdf s.params.keyBytes (s.contents .pw) (found.take 24) with
  | none => exact .inl ⟨rfl, h.decodeBody_noKey (congrArg (Option.map Vector.toList) hkdf)⟩
  | some k =>
    have hk := congrArg (Option.map Vector.toList) hkdf
    refine .inr ⟨k, rfl, ?_⟩
    cases hopen : C.aeadOpen k.toList (found.take 24) (found.drop 56) ((found.drop 24).take 32) with
    | none => exact .inl ⟨rfl, h.decodeBody_noTag hk hlegal h72 hpw hopen⟩
    | some p => exact .inr ⟨p, rfl, h.decodeBody_plaintext hk hlegal h72 hpw (congrArg (Option.map Vector.toList) hopen)⟩

end

/-- Settles O41: EXTRACT and UNPACK leave the blob and its parts, which the steps after them do not write. -/
theorem decodeRecoversThePayload : Obligations.DecodeRecoversThePayload := by
  refine ⟨rfl, fun s pos found hs hpw hn hscan h72 => ?_⟩
  obtain ⟨t, ht⟩ := exists_unpacked hs.legal hn hscan
  have hmax := (scanStream_stream_fits hs.legal hn).2 found (congrArg ScanResult.payload hscan)
  have htail := (ht.frame_decode Config.crypto).setErr (decodeBody Config.crypto s).err
  have hkept := (Frame.decode Config.crypto s).setErr (decodeBody Config.crypto s).err
  refine ⟨_, rfl, (htail.fsm rfl).trans ht.fsm, (congrArg BitVec.toNat (htail.scanPos rfl)).trans ht.scanPos,
    ht.blob.after htail (by decide), ht.nonce.after htail (by decide), ht.ad.after htail (by decide), ht.ct.after htail (by decide),
    hkept.sameBuffer (by decide), hkept.sameBuffer (by decide), hkept.imageKept, hkept.portKept, hkept.entropyKept, ?_⟩
  have hkey (k : Vector Byte s.params.keyBytes) : delivered .key k.toList s (t.store .key k.toList) :=
    .before ht.kept (by decide) (.store t .key (keyLength_lt hs.legal Vector.length_toList))
  rcases ht.decodeBody_cases Config.crypto hs.legal hpw h72 with ⟨hk, e⟩ | ⟨k, hk, ⟨ho, e⟩ | ⟨p, ho, e⟩⟩ <;>
    change Config.kdf _ _ _ = _ at hk <;> rw [hk, e]
  · exact ⟨rfl, (ht.kept.setErr _).sameBuffer (by decide), (ht.kept.setErr _).sameBuffer (by decide)⟩
  · change Config.aeadOpen _ _ _ _ = none at ho
    refine ⟨(hkey k).setErr _, ?_⟩
    rw [ho]
    exact ⟨rfl, ((ht.frame_key _).setErr _).sameBuffer (by decide)⟩
  · change Config.aeadOpen _ _ _ _ = some p at ho
    refine ⟨((hkey k).after (Frame.store _ .pt p.toList) (by decide)).setErr _, ?_⟩
    rw [ho]
    have hlen : p.toList.length < 2 ^ 32 := by rw [Vector.length_toList, List.length_drop]; omega
    exact ⟨rfl, (delivered.before (ht.frame_key _) (by decide) (.store _ .pt hlen)).setErr _⟩

/-- Settles O42: each failure by the step that finds it, all of them before PT is written. -/
theorem decodeReportsTheFirstFailure : Obligations.DecodeReportsTheFirstFailure := by
  refine ⟨fun s h => congrArg finish (decodeBody_tooLarge Config.crypto h),
    fun s pos st hn hscan => congrArg finish (decodeBody_notFound Config.crypto hn hscan), fun s pos found hs hn hscan habs => ?_,
    fun s pos found hs hn hscan hpw h24 h72 => ?_⟩
  · obtain ⟨t, ht⟩ := exists_unpacked hs.legal hn hscan
    have hkept := ht.kept.setErr .keyDerivation
    exact ⟨_, congrArg finish (ht.decodeBody_absent habs), rfl, hkept.sameBuffer (by decide), hkept.sameBuffer (by decide)⟩
  · obtain ⟨t, ht⟩ := exists_unpacked hs.legal hn hscan
    cases hkdf : Config.kdf s.params.keyBytes (s.contents .pw) (found.take 24) with
    | none =>
      have hbody := ht.decodeBody_noKey (C := Config.crypto) (congrArg (Option.map Vector.toList) hkdf)
      exact ⟨_, congrArg finish hbody, (ht.kept.setErr _).sameBuffer (by decide), rfl⟩
    | some k =>
      have hbody := ht.decodeBody_undersized (C := Config.crypto) (congrArg (Option.map Vector.toList) hkdf) hs.legal hpw h24 h72
      exact ⟨_, congrArg finish hbody, ((ht.frame_key _).setErr _).sameBuffer (by decide), rfl⟩

/-! DECODE after ENCODE. -/

/-- The parts of the hidden blob are what it was joined from. -/
theorem take_hiddenBlob (C : Crypto) (s : State) (k : List Byte) : (hiddenBlob C s k).take 24 = s.drawnNonce := by
  rw [hiddenBlob, List.append_assoc, List.take_left' (length_drawnNonce s)]

theorem take_drop_hiddenBlob (C : Crypto) (s : State) (k : List Byte) : ((hiddenBlob C s k).drop 24).take 32 = s.drawnAd := by
  rw [hiddenBlob, List.append_assoc, List.drop_left' (length_drawnNonce s), List.take_left' (length_drawnAd s)]

theorem drop_hiddenBlob (C : Crypto) (s : State) (k : List Byte) : (hiddenBlob C s k).drop 56 = sealedPayload C s k := by
  rw [hiddenBlob, List.drop_left' (by simp)]

/-- A scan of the frame of a clean blob, whatever follows, finds that blob (42_frame.md R133). -/
theorem scanStream_frameOf_of_clean {found : List Byte} (h : cleanBlob found) (T : List Byte) :
    scanStream (frameOf found ++ T) = ⟨.done, 6 + found.length + 6, some found⟩ := by
  rw [scanStream_frameOf_append le_rfl (standsAt_endSentinel_length found) ((cleanBlob_iff_standsAt found).mp h), List.take_length]

/-- The stream of an image with the parities EMBED left begins with the frame. -/
theorem Embedded.frame_prefix_of_parities {s t u : State} (h : Embedded s t) (hnpix : u.npix = s.npix)
    (hred : ∀ p < s.npix, (u.red p).toNat % 2 = (t.red p).toNat % 2) : s.contents .frame <+: u.stream u.npix := by
  rw [hnpix, State.stream_congr hred]
  exact h.frame_prefix_stream

/-- An image with the parities ENCODE left holds the hidden blob, when that is clean. -/
theorem Prepared.scanStream_of_parities {C : Crypto} {s t u : State} {k : List Byte} (h : Prepared C s k t)
    (hbits : 8 * (s.len .pt + 84) ≤ s.npix) (hn : s.npix ≤ s.params.imgMaxPix) (hclean : cleanBlob (hiddenBlob C s k))
    (hnpix : u.npix = s.npix) (hred : ∀ p < s.npix, (u.red p).toNat % 2 = ((encodeBody C s).state.red p).toNat % 2) :
    ∃ pos, scanStream (u.stream u.npix) = ⟨.done, pos, some (hiddenBlob C s k)⟩ := by
  rw [h.encodeBody_eq hbits hn] at hred
  obtain ⟨T, hT⟩ := (h.embedded hbits hn).frame_prefix_of_parities (hnpix.trans h.kept.npix.symm) (h.kept.npix ▸ hred)
  rw [h.frame.contents_eq] at hT
  exact ⟨_, hT ▸ scanStream_frameOf_of_clean hclean T⟩

/-- Settles O43: the image holds the hidden blob, so DECODE derives ENCODE's key and asks AEAD_OPEN what P-RT answers. -/
theorem decodeUndoesEncode : Obligations.DecodeUndoesEncode := by
  refine ⟨fun _ => ⟨rfl, rfl⟩, fun C s u k hrt hs hpw hpt hbits hn hkdf hclean hparams hupw hw hh hred => ?_⟩
  have hk := congrArg (Option.map Vector.toList) hkdf
  have hnpix : u.npix = s.npix := by rw [State.npix, hw, hh, State.npix]
  have hblob : hiddenBlob C s k.toList = s.drawBytes 56 ++ sealedPayload C s k.toList := by
    rw [hiddenBlob, State.drawnNonce, State.drawnAd, List.take_append_drop]
  obtain ⟨t, ht⟩ := exists_prepared C hs (by omega) (by omega) hk
  obtain ⟨pos, hscan⟩ := ht.scanStream_of_parities hbits hn (hblob ▸ hclean) hnpix hred
  obtain ⟨v, hv⟩ := exists_unpacked (hparams ▸ hs.legal) (by rw [hnpix, hparams]; exact hn) hscan
  have hdecode : decodeBody C u = complete ((v.store .key k.toList).store .pt (s.contents .pt)) := by
    refine hv.decodeBody_plaintext ?_ (hparams ▸ hs.legal) (by simp) (by rw [hupw.len_eq]; omega) ?_
    · rw [hparams, hupw.contents_eq, take_hiddenBlob]; exact hk
    · rw [take_hiddenBlob, drop_hiddenBlob, take_drop_hiddenBlob]
      exact hrt _ _ _ _ ⟨Vector.length_toList, length_drawnNonce s, length_drawnAd s⟩
  have hmax : (s.contents .pt).length < 2 ^ 32 := by
    rw [State.length_contents]
    exact (hs.len_le_pow .pt).trans_lt (by decide)
  rw [hdecode, ht.encodeBody_eq hbits hn]
  exact ⟨rfl, rfl, State.contents_store_self (v.store .key k.toList) (b := .pt) hmax⟩

end Sys2Proof.Machine
end

section
/-! PROOF. What GEN (O17, 45_system.md R170, R171) and CLR (O48, R173) do. -/

namespace Sys2Proof.Machine

/-- Settles O17: GEN leaves NONCE and AD with the two parts of what it drew, and the frame of its two stores. -/
theorem genDrawsNonceAndAssociatedData : Obligations.GenDrawsNonceAndAssociatedData := by
  refine ⟨rfl, fun s => ?_⟩
  have hkept := (Frame.afterGen s).setErr .success
  exact ⟨s.drawBytes 56, _, s.length_drawBytes 56, s.getElem_drawBytes 56, congrArg finish (genBody_eq_afterGen s), rfl,
    (delivered_nonce_afterGen s).setErr _, (delivered_ad_afterGen s).setErr _, hkept.buffersKept, hkept.imageKept,
    hkept.scannerKept, hkept.portKept⟩

/-- A buffer whose bytes all lie inside its size is empty once every buffer is cleared. -/
theorem State.Inv.buf_clearAll_eq_nil {s : State} (h : s.Inv) (b : Buf) : (allBufs.foldl State.discard s).buf b = [] := by
  rw [State.buf_clearAll]
  exact Memory.clearBelow_eq_nil (h.buf_ok b).2

/-- What CLR leaves is what reset leaves, but for the image and what is not the block's own. -/
theorem State.Inv.clrBody_eq {s : State} (h : s.Inv) : clrBody s = complete { State.reset with
    params := s.params, script := s.script, reply := s.reply, entropy := s.entropy, drawn := s.drawn, err := s.err,
    imgW := s.imgW, imgH := s.imgH, img := s.img } := by
  refine congrArg complete (State.ext_fields (State.params_clearAll s) (State.script_clearAll s) (State.reply_clearAll s)
    (State.entropy_clearAll s) (State.drawn_clearAll s) (State.err_clearAll s) rfl (State.imgW_clearAll s) (State.imgH_clearAll s)
    (fun b => ?_) rfl (fun b => ?_) (State.img_clearAll s))
  · rw [State.lenReg_setScan, State.lenReg_clearAll]
    exact (State.lenReg_resetInput s [] b).symm
  · rw [State.buf_setScan, h.buf_clearAll_eq_nil]
    exact (State.buf_resetInput s [] b).symm

/-- Settles O48: clearing leaves every buffer of a state of the invariant as reset does, empty. -/
theorem clearIsResetButForTheImage : Obligations.ClearIsResetButForTheImage :=
  ⟨rfl, fun _ hs => congrArg finish hs.clrBody_eq⟩

end Sys2Proof.Machine
end

section
/-! PROOF. What an error leaves (60_exceptions.md): STATUS.ERR alone, but for the scanner's registers (O52, R184), and PT in any case (O44,
44_composite.md R163); which error an absent operand raises (O53, R182); that no command reads the code of the one before (O54, R186). -/

namespace Sys2Proof.Machine

/-! A body that raises an error has written nothing, that of SCAN and EXTRACT nothing but the scan (60_exceptions.md R184). -/

/-- The result of a body run on `s` that, where it is an error, is `s` itself. -/
def CmdResult.UnwrittenOnError (s : State) (r : CmdResult) : Prop := r.err ≠ .success → r.state = s

theorem unwrittenOnError_raise (s : State) (e : ErrorKind) : (raise s e).UnwrittenOnError s := fun _ => rfl

theorem unwrittenOnError_complete (s t : State) : (complete t).UnwrittenOnError s := fun h => absurd rfl h

theorem deriveBody_unwrittenOnError (C : Crypto) (s : State) : (deriveBody C s).UnwrittenOnError s := by
  rcases deriveBody_cases C s with ⟨_, e⟩ | ⟨_, _, _, e⟩ | ⟨_, _, _, _, e⟩ <;> rw [e]
  · exact unwrittenOnError_raise s _
  · exact unwrittenOnError_raise s _
  · exact unwrittenOnError_complete s _

theorem sealBody_unwrittenOnError (C : Crypto) (s : State) : (sealBody C s).UnwrittenOnError s := by
  rcases sealBody_cases C s with ⟨_, e⟩ | ⟨_, _, _, _, e⟩ <;> rw [e]
  · exact unwrittenOnError_raise s _
  · exact unwrittenOnError_complete s _

theorem packBody_unwrittenOnError (s : State) : (packBody s).UnwrittenOnError s := by
  rcases packBody_cases s with ⟨_, e⟩ | ⟨_, _, _, e⟩ <;> rw [e]
  · exact unwrittenOnError_raise s _
  · exact unwrittenOnError_complete s _

theorem buildBody_unwrittenOnError (s : State) : (buildBody s).UnwrittenOnError s := by
  rcases buildBody_cases s with ⟨_, e⟩ | ⟨_, e⟩ <;> rw [e]
  · exact unwrittenOnError_raise s _
  · exact unwrittenOnError_complete s _

/-- The commands whose errors leave more than their code: the two that scan, and the two composites. -/
def writesBeforeError : Instr → Bool
  | .scan | .extract | .encode | .decode => true
  | .gen | .derive | .sealPt | .openCt | .pack | .unpack | .build | .embed | .clr => false

theorem body_unwrittenOnError {i : Instr} (h : writesBeforeError i = false) (s : State) : (body i s).UnwrittenOnError s := by
  cases i with
  | gen | unpack | clr => exact unwrittenOnError_complete s _
  | derive => exact deriveBody_unwrittenOnError _ s
  | sealPt => exact sealBody_unwrittenOnError _ s
  | openCt => exact openBody_failed _
  | pack => exact packBody_unwrittenOnError s
  | build => exact buildBody_unwrittenOnError s
  | embed => exact embedBody_failed
  | scan | extract | encode | decode => cases h

/-- A command that writes nothing before its error leaves the code alone. -/
theorem exec_failed_eq_setErr {i : Instr} (hi : writesBeforeError i = false) {s t : State} (ht : exec i s = .next t)
    (herr : t.err ≠ .success) : t = s.setErr t.err := by
  rw [exec_eq_finish_body] at ht
  obtain rfl := (finish_next _ t).mp ht
  exact congrArg (State.setErr · (body i s).err) (body_unwrittenOnError hi s herr)

/-- A scan that ends with an error found no sentinel, and has written the scanner's registers alone (42_frame.md R132). -/
theorem deliverScan_failed {s : State} {r : ScanResult} (h : (deliverScan s r).err ≠ .success) :
    deliverScan s r = raise (s.setScan r.pos r.state) .sentinelNotFound := by
  rcases deliverScan_cases s r with ⟨_, e⟩ | ⟨p, _, e⟩
  · exact e
  · rw [e] at h; exact absurd rfl h

/-- The same of EXTRACT, but for an image beyond the pixel memory, which it does not scan (43_bitplane.md R151). -/
theorem extractBody_failed {s : State} (h : (extractBody s).err ≠ .success) :
    extractBody s = raise s .input ∨ ∃ pos st, extractBody s = raise (s.setScan pos st) .sentinelNotFound := by
  rcases extractBody_cases s with ⟨_, e⟩ | ⟨_, e⟩
  · exact .inl e
  · rw [e] at h ⊢; exact .inr ⟨_, _, deliverScan_failed h⟩

/-- Settles O52: a body that raises an error has written nothing, that of SCAN and of EXTRACT nothing but the scan. -/
theorem anErrorChangesNothingElse : Obligations.AnErrorChangesNothingElse := by
  intro i s t hencode hdecode ht herr
  cases i with
  | gen | derive | sealPt | openCt | pack | unpack | build | embed | clr => exact .inl (exec_failed_eq_setErr rfl ht herr)
  | scan =>
    obtain rfl := (finish_next _ t).mp ht
    have e : scanBody s = _ := deliverScan_failed herr
    rw [e]
    exact .inr ⟨.inl rfl, rfl, rfl⟩
  | extract =>
    obtain rfl := (finish_next _ t).mp ht
    rcases extractBody_failed herr with e | ⟨pos, st, e⟩ <;> rw [e]
    · exact .inl rfl
    · exact .inr ⟨.inr rfl, rfl, rfl⟩
  | encode => exact absurd rfl hencode
  | decode => exact absurd rfl hdecode

/-! The plaintext (44_composite.md R163). -/

/-- The steps of DECODE before OPEN do not write PT. -/
theorem Frame.beforeOpen (C : Crypto) (s : State) :
    Frame [.blob, .nonce, .ad, .ct, .key] true false false s (((extractBody s).andThen unpackBody).andThen (deriveBody C)).state := by
  refine .andThen (.andThen ?_ fun t => ?_) fun t => ?_
  · exact (Frame.extract s).mono (by decide) (by simp) (by simp) (by simp)
  · exact (Frame.unpack t).mono (by decide) (by simp) (by simp) (by simp)
  · exact (Frame.derive C t).mono (by decide) (by simp) (by simp) (by simp)

/-- A failed DECODE failed before OPEN or in an OPEN that wrote nothing, so it has not written PT. -/
theorem Frame.decode_failed (C : Crypto) {s : State} (h : (decodeBody C s).err ≠ .success) :
    Frame [.blob, .nonce, .ad, .ct, .key] true false false s (decodeBody C s).state := by
  have hbefore := Frame.beforeOpen C s
  unfold decodeBody at h ⊢
  rcases CmdResult.andThen_cases _ (openBody C) with ⟨_, e⟩ | ⟨_, e⟩ <;> rw [e] at h ⊢
  · rwa [openBody_failed C h]
  · exact hbefore

/-- Settles O44: a failed OPEN has written nothing, and a failed DECODE nothing to PT. -/
theorem failedOpeningKeepsThePlaintext : Obligations.FailedOpeningKeepsThePlaintext := by
  rintro i s t (rfl | rfl) ht herr
  · obtain rfl := (finish_next _ t).mp ht
    exact ((Frame.decode_failed Config.crypto herr).setErr _).sameBuffer (by decide)
  · rw [exec_failed_eq_setErr rfl ht herr]
    exact ((Frame.refl [] false false false s).setErr _).sameBuffer (by decide)

/-! Absent operands (60_exceptions.md R182). -/

/-- A scan of no bytes ends where it starts, looking for START. -/
theorem scanStream_nil : scanStream [] = ⟨.scanningStart, 0, none⟩ := rfl

theorem scanBody_noFrame {s : State} (h : s.len .frame = 0) : scanBody s = raise (s.setScan 0 .scanningStart) .sentinelNotFound := by
  have hnil : s.contents .frame = [] := List.eq_nil_of_length_eq_zero ((s.length_contents .frame).trans h)
  rw [scanBody, hnil, scanStream_nil]
  rfl

theorem extractBody_noPixels {s : State} (h : s.npix = 0) : extractBody s = raise (s.setScan 0 .scanningStart) .sentinelNotFound := by
  have hnil : s.stream s.npix = [] := by rw [h]; rfl
  rw [extractBody_fits (h ▸ Nat.zero_le _), hnil, scanStream_nil]
  rfl

/-- EMBED of a frame into an image of no pixels. -/
theorem embedBody_noPixels {s : State} (hf : s.len .frame ≠ 0) (h : s.npix = 0) : embedBody s = raise s .capacity :=
  embedBody_capacity hf (h ▸ Nat.zero_le _) (by omega)

/-- UNPACK of any blob completes, with the lengths the blob has bytes for (42_frame.md R124). -/
theorem exec_unpack_lengths (s : State) : ∃ t, exec .unpack s = .next t ∧ t.err = .success ∧ t.len .nonce = min (s.len .blob) 24 ∧
    t.len .ad = min (s.len .blob - 24) 32 ∧ t.len .ct = s.len .blob - 56 := by
  obtain ⟨t, ht, herr, _, hn, _, ha, _, hc, _⟩ := unpackSplitsTheBlob.2 s
  exact ⟨t, ht, herr, hn, ha, hc⟩

/-- Settles O53, command by command, by what its body does where an operand is absent. -/
theorem absentOperandErrors : Obligations.AbsentOperandErrors := fun s =>
  ⟨fun h => congrArg finish (deriveBody_absent Config.crypto h),
    fun h => congrArg finish (sealBody_absent Config.crypto h),
    fun h => congrArg finish (openBody_noKey Config.crypto h),
    fun hk h => congrArg finish (openBody_undersized Config.crypto hk h),
    fun h => congrArg finish (packBody_undersized h),
    exec_unpack_lengths s,
    fun h => congrArg finish (buildBody_noBlob h),
    fun h => congrArg finish (scanBody_noFrame h),
    fun h => congrArg finish (embedBody_input (.inl h)),
    fun hf h => congrArg finish (embedBody_noPixels hf h),
    fun h => congrArg finish (extractBody_noPixels h)⟩

/-! The code of the command before (60_exceptions.md R186). -/

/-- Settles O54: no body reads STATUS.ERR, and the end of the command overwrites it. -/
theorem anEarlierErrorDoesNotMatter : Obligations.AnEarlierErrorDoesNotMatter := exec_setErr

end Sys2Proof.Machine
end

section
/-! PROOF. The hazards (70_reset_and_hazards.md): what the commands do without a password (O46, R203) and without a payload (O47, R216),
that EXTRACT reads nothing of the image but its red parities (O38, R213), and no command anything of the image shape but its product (O55,
R210). -/

namespace Sys2Proof.Machine

/-! Absent operands of the composites. -/

/-- An ENCODE that derives no key ends at DERIVE (44_composite.md R160). -/
theorem encodeBody_underived (C : Crypto) {s : State} (h : deriveBody C s.afterGen = raise s.afterGen .keyDerivation) :
    encodeBody C s = raise s.afterGen .keyDerivation := by
  rw [encodeBody, genBody_eq_afterGen, andThen_complete, h]
  rfl

theorem encodeBody_noPassword (C : Crypto) {s : State} (h : s.len .pw = 0) : encodeBody C s = raise s.afterGen .keyDerivation :=
  encodeBody_underived C (deriveBody_absent C (.inl ((s.len_afterGen_of_kept (by decide)).trans h)))

/-- ENCODE without a payload ends at SEAL, or at DERIVE before it. -/
theorem encodeBody_noPayload (C : Crypto) {s : State} (h : s.len .pt = 0) :
    encodeBody C s = raise s.afterGen .keyDerivation ∨ ∃ k, encodeBody C s = raise (s.afterGen.store .key k) .input := by
  rcases deriveBody_cases C s.afterGen with ⟨_, e⟩ | ⟨_, _, _, e⟩ | ⟨_, _, k, _, e⟩
  · exact .inl (encodeBody_underived C e)
  · exact .inl (encodeBody_underived C e)
  · have hpt : (s.afterGen.store .key k.toList).len .pt = 0 := by
      rw [State.len_store_of_ne _ (by decide), State.len_afterGen_of_kept s (by decide), h]
    refine .inr ⟨k.toList, ?_⟩
    rw [encodeBody, genBody_eq_afterGen, andThen_complete, e, andThen_complete, sealBody_absent C (.inl hpt)]
    rfl

/-- The steps of DECODE before DERIVE write neither PW, KEY nor PT. -/
theorem Frame.beforeDerive (s : State) :
    Frame [.blob, .nonce, .ad, .ct] true false false s ((extractBody s).andThen unpackBody).state := by
  refine .andThen ?_ fun t => ?_
  · exact (Frame.extract s).mono (by decide) (by simp) (by simp) (by simp)
  · exact (Frame.unpack t).mono (by decide) (by simp) (by simp) (by simp)

/-- DECODE without a password fails, before DERIVE or in it, and what its steps before DERIVE wrote is all it writes. -/
theorem decodeBody_noPassword (C : Crypto) {s : State} (h : s.len .pw = 0) :
    (decodeBody C s).err ≠ .success ∧ (decodeBody C s).state = ((extractBody s).andThen unpackBody).state := by
  have hpw : ((extractBody s).andThen unpackBody).state.len .pw = 0 :=
    ((Frame.beforeDerive s).sameBuffer (by decide)).len_eq.trans h
  rw [decodeBody]
  generalize (extractBody s).andThen unpackBody = r at hpw ⊢
  rcases r.andThen_cases (deriveBody C) with ⟨_, e⟩ | ⟨hr, e⟩ <;> rw [e]
  · rw [deriveBody_absent C (.inl hpw)]
    exact ⟨nofun, rfl⟩
  · rw [CmdResult.andThen_failed hr]
    exact ⟨hr, rfl⟩

/-- Settles O46: without a password DERIVE writes nothing, ENCODE what GEN wrote, DECODE what EXTRACT and UNPACK wrote. -/
theorem noPasswordNoKey : Obligations.NoPasswordNoKey := by
  refine fun s t hpw => ⟨fun ht => ?_, fun ht => ?_, fun ht => ?_⟩ <;> obtain rfl := (finish_next _ t).mp ht
  · rw [deriveBody_absent Config.crypto (.inl hpw)]
    exact ⟨rfl, ((Frame.refl [] false false false s).setErr .keyDerivation).sameBuffer (by decide)⟩
  · rw [encodeBody_noPassword Config.crypto hpw]
    have hf := (Frame.afterGen s).setErr .keyDerivation
    exact ⟨rfl, hf.sameBuffer (by decide), hf.sameBuffer (by decide)⟩
  · obtain ⟨herr, hstate⟩ := decodeBody_noPassword Config.crypto hpw
    have hf := (Frame.beforeDerive s).setErr (decodeBody Config.crypto s).err
    rw [← hstate] at hf
    exact ⟨herr, hf.sameBuffer (by decide), hf.sameBuffer (by decide)⟩

/-- Settles O47: an ENCODE without a payload has written nonce, associated data and at most the key. -/
theorem emptyPayloadIsRefused : Obligations.EmptyPayloadIsRefused := by
  refine fun s t hpt => ⟨fun ht => ?_, fun ht => ?_⟩ <;> obtain rfl := (finish_next _ t).mp ht
  · rw [sealBody_absent Config.crypto (.inl hpt)]
    rfl
  · have hgen : Frame [.nonce, .ad, .key] false false true s s.afterGen :=
      (Frame.afterGen s).mono (by decide) (by simp) (by simp) (by simp)
    rcases encodeBody_noPayload Config.crypto hpt with e | ⟨k, e⟩ <;> rw [e]
    · have hf := hgen.setErr .keyDerivation
      exact ⟨.inr rfl, hf.img rfl, hf.sameBuffer (by decide)⟩
    · have hkey : Frame [.nonce, .ad, .key] false false true s.afterGen (s.afterGen.store .key k) :=
        (Frame.store _ _ _).mono (by decide) (by simp) (by simp) (by simp)
      have hf := (hgen.trans hkey).setErr .input
      exact ⟨.inl rfl, hf.img rfl, hf.sameBuffer (by decide)⟩

/-! A result with one part of its state replaced: the image, or its shape. -/

/-- The result with its state changed. -/
def CmdResult.mapState (u : State → State) (r : CmdResult) : CmdResult := ⟨u r.state, r.err⟩

/-- Delivering a scan reads nothing of the state, so it commutes with every change to what it does not write. -/
theorem deliverScan_comm {u : State → State} (hscan : ∀ s pos st, (u s).setScan pos st = u (s.setScan pos st))
    (hstore : ∀ s v, (u s).store .blob v = u (s.store .blob v)) (s : State) (r : ScanResult) :
    deliverScan (u s) r = (deliverScan s r).mapState u := by
  rcases deliverScan_cases s r with ⟨h, e⟩ | ⟨p, h, e⟩ <;> rw [e, deliverScan, h]
  · exact congrArg (raise · .sentinelNotFound) (hscan s _ _)
  · exact congrArg complete ((congrArg (State.store · .blob p) (hscan s _ _)).trans (hstore _ p))

theorem deliverScan_setImg (s : State) (m : Memory) (r : ScanResult) :
    deliverScan (s.setMem .img m) r = (deliverScan s r).mapState (State.setMem · .img m) :=
  deliverScan_comm (u := (State.setMem · .img m)) (fun _ _ _ => rfl) (fun _ _ => rfl) s r

/-- Where the red parities below NPIX agree, so do the streams, and the image is read no further (43_bitplane.md R150, R151). -/
theorem extractBody_setImg {s : State} {m : Memory}
    (h : ∀ p < s.npix, ((s.setMem .img m).red p).toNat % 2 = (s.red p).toNat % 2) :
    extractBody (s.setMem .img m) = (extractBody s).mapState (State.setMem · .img m) := by
  rcases extractBody_cases s with ⟨hn, e⟩ | ⟨hn, e⟩ <;> rw [e]
  · exact extractBody_tooLarge (s := s.setMem .img m) hn
  · calc extractBody (s.setMem .img m)
        = deliverScan (s.setMem .img m) (scanStream ((s.setMem .img m).stream s.npix)) := extractBody_fits (s := s.setMem .img m) hn
      _ = deliverScan (s.setMem .img m) (scanStream (s.stream s.npix)) := by rw [State.stream_congr h]
      _ = _ := deliverScan_setImg s m _

/-- Settles O38: EXTRACT scans the stream of the parities, and leaves the image it was given. -/
theorem extractReadsOnlyParities : Obligations.ExtractReadsOnlyParities := by
  intro s t m hred ht
  obtain rfl := (finish_next _ t).mp ht
  exact congrArg finish (extractBody_setImg hred)

/-! The image shape (10_state.md R26). -/

/-- IMG_W and IMG_H replaced. -/
def State.setShape (s : State) (w h : Word) : State := { s with imgW := w, imgH := h }

theorem State.contents_setShape (s : State) (w h : Word) (b : Buf) : (s.setShape w h).contents b = s.contents b := by cases b <;> rfl

theorem State.store_setShape (s : State) (w h : Word) (b : Buf) (v : List Byte) :
    (s.setShape w h).store b v = (s.store b v).setShape w h := by
  cases b <;> rfl

/-- A body that looks at IMG_W and IMG_H through NPIX alone, and leaves them: on any other shape of as many pixels it ends the same. -/
structure SeesOnlyNpix (f : State → CmdResult) : Prop where
  setShape : ∀ s w h, (s.setShape w h).npix = s.npix → f (s.setShape w h) = (f s).mapState (State.setShape · w h)
  npix : ∀ s, (f s).state.npix = s.npix

theorem SeesOnlyNpix.andThen {f g : State → CmdResult} (hf : SeesOnlyNpix f) (hg : SeesOnlyNpix g) :
    SeesOnlyNpix fun s => (f s).andThen g := by
  refine ⟨fun s w h hn => ?_, fun s => ?_⟩
  · simp only [hf.setShape s w h hn, CmdResult.andThen, CmdResult.mapState]
    split
    · exact hg.setShape _ w h (hn.trans (hf.npix s).symm)
    · rfl
  · simp only [CmdResult.andThen]
    split
    · exact (hg.npix _).trans (hf.npix s)
    · exact hf.npix s

theorem genBody_seesOnlyNpix : SeesOnlyNpix genBody := ⟨fun _ _ _ _ => rfl, fun s => (Frame.gen s).npix⟩

theorem deriveBody_seesOnlyNpix (C : Crypto) : SeesOnlyNpix (deriveBody C) := by
  refine ⟨fun s w h _ => ?_, fun s => (Frame.derive C s).npix⟩
  rcases deriveBody_cases C s with ⟨q, e⟩ | ⟨_, _, q, e⟩ | ⟨hp, hn, k, q, e⟩ <;> rw [e]
  · exact deriveBody_absent C (s := s.setShape w h) q
  · exact deriveBody_none C (s := s.setShape w h) (congrArg _ q)
  · exact deriveBody_some C (s := s.setShape w h) hp hn (congrArg (Option.map Vector.toList) q)

theorem sealBody_seesOnlyNpix (C : Crypto) : SeesOnlyNpix (sealBody C) := by
  refine ⟨fun s w h _ => ?_, fun s => (Frame.seals C s).npix⟩
  rcases sealBody_cases C s with ⟨q, e⟩ | ⟨hp, hk, hn, ha, e⟩ <;> rw [e]
  · exact sealBody_absent C (s := s.setShape w h) q
  · exact sealBody_present C (s := s.setShape w h) hp hk hn ha

/-- Key, nonce and associated data of full length, as the cipher takes them. -/
theorem cipherLengths_contents {s : State} (hk : s.len .key = s.params.keyBytes) (hn : s.len .nonce = 24) (ha : s.len .ad = 32) :
    cipherLengths s.params.keyBytes (s.contents .key) (s.contents .nonce) (s.contents .ad) := by
  simp [cipherLengths, hk, hn, ha]

theorem openBody_seesOnlyNpix (C : Crypto) : SeesOnlyNpix (openBody C) := by
  refine ⟨fun s w h _ => ?_, fun s => (Frame.opens C s).npix⟩
  rcases openBody_cases C s with ⟨hk, e⟩ | ⟨hk, q, e⟩ | ⟨hk, hn, ha, hc, ⟨q, e⟩ | ⟨p, q, e⟩⟩ <;> rw [e]
  · exact openBody_noKey C (s := s.setShape w h) hk
  · exact openBody_undersized C (s := s.setShape w h) hk q
  · exact openBody_none C (u := s.setShape w h) (cipherLengths_contents hk hn ha) q
  · exact openBody_some C (u := s.setShape w h) (cipherLengths_contents hk hn ha) hc (congrArg (Option.map Vector.toList) q)

theorem packBody_seesOnlyNpix : SeesOnlyNpix packBody := by
  refine ⟨fun s w h _ => ?_, fun s => (Frame.pack s).npix⟩
  rcases packBody_cases s with ⟨q, e⟩ | ⟨hn, ha, hc, e⟩ <;> rw [e]
  · exact packBody_undersized (s := s.setShape w h) q
  · exact packBody_present (s := s.setShape w h) hn ha hc

theorem unpackBody_seesOnlyNpix : SeesOnlyNpix unpackBody := ⟨fun _ _ _ _ => rfl, fun s => (Frame.unpack s).npix⟩

theorem buildBody_seesOnlyNpix : SeesOnlyNpix buildBody := by
  refine ⟨fun s w h _ => ?_, fun s => (Frame.build s).npix⟩
  rcases buildBody_cases s with ⟨q, e⟩ | ⟨q, e⟩ <;> rw [e]
  · exact buildBody_noBlob (s := s.setShape w h) q
  · rw [buildBody_present (s := s.setShape w h) q, State.contents_setShape, State.store_setShape]
    rfl

theorem deliverScan_setShape (s : State) (w h : Word) (r : ScanResult) :
    deliverScan (s.setShape w h) r = (deliverScan s r).mapState (State.setShape · w h) :=
  deliverScan_comm (u := (State.setShape · w h)) (fun _ _ _ => rfl) (fun s v => s.store_setShape w h .blob v) s r

theorem scanBody_seesOnlyNpix : SeesOnlyNpix scanBody :=
  ⟨fun s w h _ => deliverScan_setShape s w h (scanStream (s.contents .frame)), fun s => (Frame.scan s).npix⟩

theorem embedded_setShape {s : State} {w h : Word} (hn : (s.setShape w h).npix = s.npix) :
    embedded (s.setShape w h) = (embedded s).setShape w h := by
  rw [embedded, hn]
  rfl

theorem embedBody_seesOnlyNpix : SeesOnlyNpix embedBody := by
  refine ⟨fun s w h hn => ?_, fun s => (Frame.embed s).npix⟩
  rcases embedBody_cases s with ⟨q, e⟩ | ⟨_, q, e⟩ | ⟨hf, hm, hb, e⟩ | ⟨hf, hm, hb, e⟩ <;> rw [e]
  · exact embedBody_input (s := s.setShape w h) (.inl q)
  · exact embedBody_input (s := s.setShape w h) (.inr (hn ▸ q))
  · exact embedBody_capacity (s := s.setShape w h) hf (hn ▸ hm) (hn ▸ hb)
  · rw [embedBody_fits (s := s.setShape w h) hf (hn ▸ hm) (hn ▸ hb), embedded_setShape hn]
    rfl

theorem extractBody_seesOnlyNpix : SeesOnlyNpix extractBody := by
  refine ⟨fun s w h hn => ?_, fun s => (Frame.extract s).npix⟩
  rcases extractBody_cases s with ⟨q, e⟩ | ⟨q, e⟩ <;> rw [e]
  · exact extractBody_tooLarge (s := s.setShape w h) (hn ▸ q)
  · rw [extractBody_fits (s := s.setShape w h) (hn ▸ q), hn]
    exact deliverScan_setShape s w h _

theorem clrBody_seesOnlyNpix : SeesOnlyNpix clrBody := ⟨fun _ _ _ _ => rfl, fun s => (Frame.clear s).npix⟩

theorem encodeBody_seesOnlyNpix (C : Crypto) : SeesOnlyNpix (encodeBody C) :=
  ((((genBody_seesOnlyNpix.andThen (deriveBody_seesOnlyNpix C)).andThen (sealBody_seesOnlyNpix C)).andThen
    packBody_seesOnlyNpix).andThen buildBody_seesOnlyNpix).andThen embedBody_seesOnlyNpix

theorem decodeBody_seesOnlyNpix (C : Crypto) : SeesOnlyNpix (decodeBody C) :=
  ((extractBody_seesOnlyNpix.andThen unpackBody_seesOnlyNpix).andThen (deriveBody_seesOnlyNpix C)).andThen (openBody_seesOnlyNpix C)

theorem body_seesOnlyNpix (i : Instr) : SeesOnlyNpix (body i) := by
  cases i with
  | gen => exact genBody_seesOnlyNpix
  | derive => exact deriveBody_seesOnlyNpix _
  | sealPt => exact sealBody_seesOnlyNpix _
  | openCt => exact openBody_seesOnlyNpix _
  | pack => exact packBody_seesOnlyNpix
  | unpack => exact unpackBody_seesOnlyNpix
  | build => exact buildBody_seesOnlyNpix
  | scan => exact scanBody_seesOnlyNpix
  | embed => exact embedBody_seesOnlyNpix
  | extract => exact extractBody_seesOnlyNpix
  | encode => exact encodeBody_seesOnlyNpix _
  | decode => exact decodeBody_seesOnlyNpix _
  | clr => exact clrBody_seesOnlyNpix

/-- Settles O55: the body of every command sees the shape through NPIX alone. -/
theorem onlyThePixelCountMatters : Obligations.OnlyThePixelCountMatters := by
  intro i s t w h hn ht
  rw [exec_eq_finish_body] at ht ⊢
  obtain rfl := (finish_next _ t).mp ht
  exact congrArg finish ((body_seesOnlyNpix i).setShape s w h hn)

end Sys2Proof.Machine
end
